-- ==== Sys2Proof/Word.lean ====
section
/-! DEFINITION. The machine word (00_scope.md R4 `XLEN`, section 5 "Notation"): a 32-bit vector. Addresses,
registers, memory words and instruction words all have this one width. `BitVec.toNat` is the spec's `u(v)` and
`BitVec.toInt` its `s(v)`; `+`, `-`, `*` on words are modulo `2^32`. -/

namespace Sys2Proof

/-- A register, an address, a memory word or an instruction word: 32 bits (R4). -/
abbrev Word := BitVec 32

/-- A 16-bit immediate or offset field (R63, R64, R67). -/
abbrev Half := BitVec 16

end Sys2Proof
end

