-- ==== Sys2Proof/Syntax.lean ====
section
/-! DEFINITION. The instruction set: one constructor per row of spec/opcode_table.json, 20 operation kinds
(30_encoding.md R70), with the fields that R62 to R69 give each format. Bits outside a format's fields are no part of
an instruction (R72); the instruction record keeps them in its raw word (`Machine.Rec.word`). -/

namespace Sys2Proof

/-- The number of a general register, 0 to 31: every 5-bit field names one (R11, R75). -/
abbrev Reg := Fin 32

/-- An instruction, as the decoder reads it. Field names are those of R62 to R69. -/
inductive Instr where
  /-- J, format J (R62, R101). -/
  | j (idx : BitVec 26)
  /-- BEQ, format B (R63, R102). -/
  | beq (rs rt : Reg) (off : Half)
  /-- BNE, format B (R63, R103). -/
  | bne (rs rt : Reg) (off : Half)
  /-- BGTZ, format B with bits 20:16 ignored (R63, R104). -/
  | bgtz (rs : Reg) (off : Half)
  /-- SW, format M (R64, R111): `x[rt]` is stored at `x[base] + off`. -/
  | sw (base rt : Reg) (off : Half)
  /-- LW, format M (R64, R112): `x[rt]` is loaded from `x[base] + off`. -/
  | lw (base rt : Reg) (off : Half)
  /-- BREAK, format K, no fields (R65, R120). -/
  | brk
  /-- ADD, format R (R66, R131). -/
  | add (rd ra rb : Reg)
  /-- SUB, format R (R66, R132). -/
  | sub (rd ra rb : Reg)
  /-- AND, format R (R66, R133). -/
  | and (rd ra rb : Reg)
  /-- OR, format R (R66, R134). -/
  | or (rd ra rb : Reg)
  /-- SRL, format R (R66, R135): the shift amount is a register, not a field. -/
  | srl (rd ra rb : Reg)
  /-- SRA, format R (R66, R136). -/
  | sra (rd ra rb : Reg)
  /-- ADDI, format I (R67, R141). -/
  | addi (rd ra : Reg) (imm : Half)
  /-- ANDI, format I (R67, R142). -/
  | andi (rd ra : Reg) (imm : Half)
  /-- ORI, format I (R67, R143). -/
  | ori (rd ra : Reg) (imm : Half)
  /-- MULT, format D (R68, R151). -/
  | mult (ra rb : Reg)
  /-- DIV, format D (R68, R152). -/
  | div (ra rb : Reg)
  /-- MFHI, format F (R69, R161). -/
  | mfhi (rd : Reg)
  /-- MFLO, format F (R69, R162). -/
  | mflo (rd : Reg)
  deriving DecidableEq, Repr

end Sys2Proof
end

