-- ==== Sys2Proof/Decode.lean ====
section
/-! DEFINITION. The decoder and the encoder of 30_encoding.md. `decode` is total on all `2^32` words: it answers the
instruction or nothing, and nothing is the spec's decoding error (R71), raised by name (`Fault.decode`) where the
fetch stage meets the word (`Machine.fetchLoop`, R230). -/

namespace Sys2Proof

/-- `w[lo+4:lo]` as a register number. -/
def regField (w : Word) (lo : Nat) : Reg := Fin.ofNat 32 (w.extractLsb' lo 5).toNat

/-- `w[15:0]`, the immediate or offset of formats B, M and I. -/
def halfField (w : Word) : Half := w.extractLsb' 0 16

/-- `cat = w[31:29]` (R61). -/
def catField (w : Word) : Nat := (w.extractLsb' 29 3).toNat

/-- `op = w[28:26]` (R61). -/
def opField (w : Word) : Nat := (w.extractLsb' 26 3).toNat

/-- The decoder (R75): the opcode map R70 over the formats R62 to R69. Bits outside a format's fields are not tested
(R72). Every pair that R70 does not list is illegal (R71) and has no instruction. -/
def decode (w : Word) : Option Instr :=
  match catField w, opField w with
  | 0, 0 => some (.j (w.extractLsb' 0 26))
  | 0, 1 => some (.beq (regField w 21) (regField w 16) (halfField w))
  | 0, 2 => some (.bne (regField w 21) (regField w 16) (halfField w))
  | 0, 3 => some (.bgtz (regField w 21) (halfField w))
  | 0, 4 => some (.sw (regField w 21) (regField w 16) (halfField w))
  | 0, 5 => some (.lw (regField w 21) (regField w 16) (halfField w))
  | 0, 6 => some .brk
  | 1, 0 => some (.add (regField w 21) (regField w 16) (regField w 11))
  | 1, 1 => some (.sub (regField w 21) (regField w 16) (regField w 11))
  | 1, 2 => some (.and (regField w 21) (regField w 16) (regField w 11))
  | 1, 3 => some (.or (regField w 21) (regField w 16) (regField w 11))
  | 1, 4 => some (.srl (regField w 21) (regField w 16) (regField w 11))
  | 1, 5 => some (.sra (regField w 21) (regField w 16) (regField w 11))
  | 2, 0 => some (.addi (regField w 21) (regField w 16) (halfField w))
  | 2, 1 => some (.andi (regField w 21) (regField w 16) (halfField w))
  | 2, 2 => some (.ori (regField w 21) (regField w 16) (halfField w))
  | 3, 0 => some (.mult (regField w 21) (regField w 16))
  | 3, 1 => some (.div (regField w 21) (regField w 16))
  | 4, 0 => some (.mfhi (regField w 21))
  | 4, 1 => some (.mflo (regField w 21))
  | _, _ => none

/-- A word with category `cat`, opcode `op` and the value `rest` in bits 25:0. -/
def packWord (cat op rest : Nat) : Word := BitVec.ofNat 32 (cat * 2 ^ 29 + op * 2 ^ 26 + rest)

/-- Three register fields, bits 25:21, 20:16 and 15:11, zeros below (format R). -/
def packR (a b c : Reg) : Nat := a.val * 2 ^ 21 + b.val * 2 ^ 16 + c.val * 2 ^ 11

/-- Two register fields, bits 25:21 and 20:16, and a 16-bit field (formats B, M, I; D with a zero half). -/
def packI (a b : Reg) (h : Half) : Nat := a.val * 2 ^ 21 + b.val * 2 ^ 16 + h.toNat

/-- The encoder (R76): each field at its bits, zeros everywhere else. -/
def encode : Instr → Word
  | .j idx => packWord 0 0 idx.toNat
  | .beq rs rt off => packWord 0 1 (packI rs rt off)
  | .bne rs rt off => packWord 0 2 (packI rs rt off)
  | .bgtz rs off => packWord 0 3 (packI rs 0 off)
  | .sw base rt off => packWord 0 4 (packI base rt off)
  | .lw base rt off => packWord 0 5 (packI base rt off)
  | .brk => packWord 0 6 0
  | .add rd ra rb => packWord 1 0 (packR rd ra rb)
  | .sub rd ra rb => packWord 1 1 (packR rd ra rb)
  | .and rd ra rb => packWord 1 2 (packR rd ra rb)
  | .or rd ra rb => packWord 1 3 (packR rd ra rb)
  | .srl rd ra rb => packWord 1 4 (packR rd ra rb)
  | .sra rd ra rb => packWord 1 5 (packR rd ra rb)
  | .addi rd ra imm => packWord 2 0 (packI rd ra imm)
  | .andi rd ra imm => packWord 2 1 (packI rd ra imm)
  | .ori rd ra imm => packWord 2 2 (packI rd ra imm)
  | .mult ra rb => packWord 3 0 (packI ra rb 0)
  | .div ra rb => packWord 3 1 (packI ra rb 0)
  | .mfhi rd => packWord 4 0 (packI rd 0 0)
  | .mflo rd => packWord 4 1 (packI rd 0 0)

/-- The word of a row of spec/opcode_table.json: its low `nbits` bits are those of `w`, the rest are zero. Every
instruction is one word (R60), fetched whole (R55), so there is no byte order between the table's numbering and the
word. -/
def tableWord (nbits w : Nat) : Word := BitVec.ofNat 32 (w % 2 ^ nbits)

/-- What the decoder reads from a row's word, numbered as the table numbers it. -/
def decodeTableWord (nbits w : Nat) : Option Instr := decode (tableWord nbits w)

end Sys2Proof
end

