-- ==== Sys2Proof/Config.lean ====
section
/-! DEFINITION. The sizes that the hardware fixes (00_scope.md R4) and the two constants of the image interface
(R5). None of them is state (10_state.md R29). The run's own parameters, the image and `WAW_WINDOW_CHECK`, are held
in `Machine.Setup`, because `State.reset` is one constant and a machine is loaded from outside. The spec leaves no
value open that a run can observe (93_implementation_defined.md, end of part 1), so there is no free value here. -/

namespace Sys2Proof.Config

/-- `MIN_ADDR`: the lowest address of memory and the reset value of the program counter (R4, R27). -/
abbrev minAddr : Nat := 256

/-- `FW_CAP`: the capacity of the fetch window (R4). -/
abbrev fwCap : Nat := 8

/-- `Q_CAP`: the capacity of each of the four issue queues (R4). -/
abbrev qCap : Nat := 2

/-- `FETCH_WIDTH`: the most words the fetch stage decodes in one cycle (R4, R223). -/
abbrev fetchWidth : Nat := 4

/-- The bound on `MAX_ADDR` that R5 puts on an image: `256 + 4*N <= 2^27`. -/
abbrev addrBound : Nat := 134217728

/-- `BREAK_WORD`: the word whose first occurrence in the image ends the code segment (R5, R41). -/
abbrev breakWord : Word := 0x18000000#32

end Sys2Proof.Config
end

