-- ==== Sys2Proof/Machine/State.lean ====
section
/-! DEFINITION. The state record of 10_state.md as plain data: two generations (R290), the run status (R22), the
cycle count (R23), the run's parameters (R5, R29) and, as the model's own field, the cycle in progress (`Work`).
A generation's fields are grouped as the table of R290 groups them by the stage that assigns them. -/

namespace Sys2Proof.Machine

/-- The 34 physical registers (R13): `x[0] .. x[31]`, `HI`, `LO`. -/
inductive PReg where
  | x (i : Reg)
  | hi
  | lo
  deriving DecidableEq, Repr

/-- A source reference (R16). `none` is the document's sentinel: it reads 0 and is never awaiting (R207). -/
inductive SRef where
  | none
  | gpr (i : Reg)
  | hi
  | lo
  deriving DecidableEq, Repr

/-- A destination reference (R16). `hilo` is the coupled pair, one destination of two elements (R204). -/
inductive DRef where
  | none
  | gpr (i : Reg)
  | hilo
  deriving DecidableEq, Repr

/-- The four issue queues (R18). -/
inductive QueueId where
  | ls
  | div
  | mul
  | alu
  deriving DecidableEq, Repr

/-- An instruction record (R15): `addr` and `word` from fetch, `instr` from the decoder, `v1` and `v2` captured at
issue. R15's `kind`, `dest`, `src1`, `src2`, `imm` and `target` are functions of `instr` and `addr`
(Machine/Operands.lean), so they are computed and not stored twice (notes/assumptions/4.md). -/
structure Rec where
  addr : Word
  word : Word
  instr : Instr
  v1 : Word
  v2 : Word
  deriving DecidableEq, Repr

/-- The contents of `ALUO` (a result), `LSA` (an address) and `MEMO` (a datum): R19. -/
structure Latch where
  ins : Rec
  value : Word
  deriving DecidableEq, Repr

/-- The contents of `DIVO`, `MUL1O`, `MUL2O` and `MUL3O`: R19. -/
structure PairLatch where
  ins : Rec
  hi : Word
  lo : Word
  deriving DecidableEq, Repr

/-- The fields that the fetch stage alone assigns (R290): `pc` (R14), the two branch slots (R20), `halt_req` (R21). -/
structure FetchRegs where
  pc : Word
  stalled : Option Rec
  resolved : Option Rec
  haltReq : Bool
  deriving DecidableEq, Repr

/-- The issue queues `LSQ`, `DIVQ`, `MULQ`, `ALUQ`, oldest record first (R18). -/
structure Queues where
  ls : List Rec
  div : List Rec
  mul : List Rec
  alu : List Rec
  deriving DecidableEq, Repr

/-- The seven latches `ALUO`, `LSA`, `MEMO`, `DIVO`, `MUL1O`, `MUL2O`, `MUL3O` (R19). -/
structure Latches where
  aluo : Option Latch
  lsa : Option Latch
  memo : Option Latch
  divo : Option PairLatch
  mul1o : Option PairLatch
  mul2o : Option PairLatch
  mul3o : Option PairLatch
  deriving DecidableEq, Repr

/-- The 32 general registers (R11; `x[0]` is an ordinary one) and `HI`, `LO` (R12). -/
structure RegFile where
  x : Vector Word 32
  hi : Word
  lo : Word
  deriving DecidableEq, Repr

/-- One Boolean per physical register: the awaiting flags `AW` (R13). -/
structure Scoreboard where
  x : Vector Bool 32
  hi : Bool
  lo : Bool
  deriving DecidableEq, Repr

/-- Memory (R24, R40): a map from the byte address of a word to the word, as a list in one canonical form (`Memory.wf`):
addresses strictly rising, no word equal to 0, which is what an unlisted address of the array holds. The unit is the
32-bit word because R55 forbids bytes. -/
abbrev Memory := List (Nat × Word)

/-- One generation (R10). -/
structure Gen where
  fetch : FetchRegs
  fw : List Rec
  queues : Queues
  latches : Latches
  regs : RegFile
  aw : Scoreboard
  mem : Memory
  deriving DecidableEq, Repr

/-- The five fatal faults (R300). Each is safe: the run ends where the hardware's run ends. -/
inductive Fault where
  /-- The fetch stage reached a word that does not decode (R301). -/
  | decode (addr word : Word)
  /-- LW or SW, in the MEM unit: misaligned or out of range (R302). -/
  | memAddress (ea : Word)
  /-- SW, in the MEM unit: an address below `DATA_START` (R303). -/
  | storeToCode (ea : Word)
  /-- DIV, in the DIV unit: the captured divisor is 0 (R304). -/
  | divideByZero (addr : Word)
  /-- A record of a kind that its stage never takes; no reachable state raises it (R305). -/
  | internal
  deriving DecidableEq, Repr

/-- What the model refuses. -/
inductive Refusal where
  /-- Raised by `exec` for an instruction without a meaning; no arm of this model raises it. Safe. -/
  | notModelled (mnemonic : String)
  /-- Raised by `State.load` for an image that breaks R5 (93_implementation_defined.md U9). Safe: the spec refuses it. -/
  | badImage
  deriving DecidableEq, Repr

/-- The run status (R22). `halted` and `faulted` are terminal. -/
inductive Status where
  | running
  | halted
  | faulted (why : Fault)
  deriving DecidableEq, Repr

/-- The parameters of a run, fixed before the first cycle (R5, R29): `words` is `N`, `dataStart` is `DATA_START` (R41),
`wawCheck` is `WAW_WINDOW_CHECK` (R245). No step changes them. -/
structure Setup where
  words : Nat
  dataStart : Nat
  wawCheck : Bool
  deriving DecidableEq, Repr

/-- The place in the cycle at which an instruction record is presented to `exec`: the stage, with what it works on. -/
inductive Station where
  /-- The fetch stage decoded the word at `next.pc` (R223). Between cycles a state rests here. -/
  | fetch
  /-- The fetch stage retries the stalled branch (R222). -/
  | retry (ins : Rec)
  /-- The issue scan has reached this record of the window (R240). -/
  | issue (ins : Rec)
  /-- ALU1 took this head of `ALUQ` (R261). -/
  | alu1 (ins : Rec)
  /-- ALU2 took this head of `LSQ` (R262). -/
  | alu2 (ins : Rec)
  /-- MEM took this content of `LSA` (R263). -/
  | mem (ins : Rec) (ea : Word)
  /-- DIV took this head of `DIVQ` (R264). -/
  | div (ins : Rec)
  /-- MUL1 took this head of `MULQ` (R265). -/
  | mul1 (ins : Rec)
  /-- MUL2 took this content of `MUL1O` (R266). -/
  | mul2 (ins : Rec) (hi lo : Word)
  /-- MUL3 took this content of `MUL2O` (R267). -/
  | mul3 (ins : Rec) (hi lo : Word)
  /-- Writeback took this content of `ALUO` (R281). -/
  | wbAlu (ins : Rec) (result : Word)
  /-- Writeback took this content of `MEMO` (R282). -/
  | wbMem (ins : Rec) (data : Word)
  /-- Writeback took this content of `DIVO` (R283). -/
  | wbDiv (ins : Rec) (hi lo : Word)
  /-- Writeback took this content of `MUL3O` (R284). -/
  | wbMul (ins : Rec) (hi lo : Word)
  deriving DecidableEq, Repr

/-- The model's own field: the cycle in progress. `station` says which stage presents its record; `newFw` is R220's
list of records fetched so far; `older`, `kept`, `marks` and `enq` are R240's window prefix already scanned, records
that stay (R251), registers marked, and records appended to each queue. Between cycles it is `Work.fresh`. -/
structure Work where
  station : Station
  newFw : List Rec
  older : List Rec
  kept : List Rec
  marks : Scoreboard
  enq : Queues
  deriving DecidableEq, Repr

/-- The machine: the current generation, the next one (R290), the cycle in progress, the run status (R22), the cycle
count (R23) and the run's parameters. -/
structure State where
  cur : Gen
  next : Gen
  work : Work
  status : Status
  cycles : Nat
  setup : Setup
  deriving DecidableEq, Repr

/-- No register marked or awaiting. -/
def Scoreboard.clear : Scoreboard :=
  { x := Vector.replicate 32 false, hi := false, lo := false }

/-- Four empty queues. -/
def Queues.empty : Queues := { ls := [], div := [], mul := [], alu := [] }

/-- Seven empty latches. -/
def Latches.empty : Latches :=
  { aluo := none, lsa := none, memo := none, divo := none, mul1o := none, mul2o := none, mul3o := none }

/-- The cycle in progress before anything of it has happened. -/
def Work.fresh : Work :=
  { station := .fetch, newFw := [], older := [], kept := [], marks := Scoreboard.clear, enq := Queues.empty }

/-- The generation after reset (R27), with no image loaded: its memory lists nothing. -/
def Gen.reset : Gen :=
  { fetch := { pc := 256#32, stalled := none, resolved := none, haltReq := false }
    fw := []
    queues := Queues.empty
    latches := Latches.empty
    regs := { x := Vector.replicate 32 0#32, hi := 0#32, lo := 0#32 }
    aw := Scoreboard.clear
    mem := [] }

/-- The machine right after reset (R27, R330), before an image is loaded: `N = 0`, so that no address exists and the
fetch stage idles (R231). `State.load` puts an image into it. -/
def State.reset : State :=
  { cur := Gen.reset
    next := Gen.reset
    work := Work.fresh
    status := .running
    cycles := 0
    setup := { words := 0, dataStart := Config.minAddr, wawCheck := false } }

end Sys2Proof.Machine
end

