-- ==== Sys2Proof/Machine/Operands.lean ====
section
/-! DEFINITION. What an instruction names: immediates and targets (30_encoding.md R73), operand roles (R74), the sets of
registers read and written (50_scoreboard.md R205), its queue (52_issue.md R246), and the arithmetic of the units
(53_execute_units.md R261 to R265). -/

namespace Sys2Proof.Machine

/-- `sext_16` (00_scope.md, section 5). -/
def sext16 (h : Half) : Word := h.signExtend 32

/-- `zext_16` (00_scope.md, section 5). -/
def zext16 (h : Half) : Word := h.setWidth 32

/-- `addr + 4 + (sext_16(off16) << 2)` modulo `2^32`: the target of BEQ, BNE, BGTZ (R73). -/
def branchTarget (addr : Word) (off : Half) : Word := addr + 4#32 + (sext16 off <<< 2)

/-- J's target, the four top bits of `addr + 4`, then the 26-bit index, then two zeros (R73). -/
def jumpTarget (addr : Word) (idx : BitVec 26) : Word :=
  (addr + 4#32).extractLsb' 28 4 ++ idx ++ 0#2

/-- The record's `imm` (R73): 0 when the kind has none. -/
def immOf : Instr → Word
  | .j _ => 0#32
  | .beq _ _ off => sext16 off
  | .bne _ _ off => sext16 off
  | .bgtz _ off => sext16 off
  | .sw _ _ off => sext16 off
  | .lw _ _ off => sext16 off
  | .brk => 0#32
  | .add _ _ _ => 0#32
  | .sub _ _ _ => 0#32
  | .and _ _ _ => 0#32
  | .or _ _ _ => 0#32
  | .srl _ _ _ => 0#32
  | .sra _ _ _ => 0#32
  | .addi _ _ imm => sext16 imm
  | .andi _ _ imm => zext16 imm
  | .ori _ _ imm => zext16 imm
  | .mult _ _ => 0#32
  | .div _ _ => 0#32
  | .mfhi _ => 0#32
  | .mflo _ => 0#32

/-- The record's `target` at address `addr` (R73); no other kind has one, and nothing reads theirs (R15). -/
def targetOf : Instr → Word → Word
  | .j idx => fun addr => jumpTarget addr idx
  | .beq _ _ off => fun addr => branchTarget addr off
  | .bne _ _ off => fun addr => branchTarget addr off
  | .bgtz _ off => fun addr => branchTarget addr off
  | .sw _ _ _ | .lw _ _ _ | .brk => id
  | .add _ _ _ | .sub _ _ _ | .and _ _ _ | .or _ _ _ | .srl _ _ _ | .sra _ _ _ => id
  | .addi _ _ _ | .andi _ _ _ | .ori _ _ _ | .mult _ _ | .div _ _ | .mfhi _ | .mflo _ => id

/-- The record's `src1` (R74). -/
def src1Of : Instr → SRef
  | .j _ => .none
  | .beq rs _ _ => .gpr rs
  | .bne rs _ _ => .gpr rs
  | .bgtz rs _ => .gpr rs
  | .sw base _ _ => .gpr base
  | .lw base _ _ => .gpr base
  | .brk => .none
  | .add _ ra _ => .gpr ra
  | .sub _ ra _ => .gpr ra
  | .and _ ra _ => .gpr ra
  | .or _ ra _ => .gpr ra
  | .srl _ ra _ => .gpr ra
  | .sra _ ra _ => .gpr ra
  | .addi _ ra _ => .gpr ra
  | .andi _ ra _ => .gpr ra
  | .ori _ ra _ => .gpr ra
  | .mult ra _ => .gpr ra
  | .div ra _ => .gpr ra
  | .mfhi _ => .hi
  | .mflo _ => .lo

/-- The record's `src2` (R74). -/
def src2Of : Instr → SRef
  | .j _ => .none
  | .beq _ rt _ => .gpr rt
  | .bne _ rt _ => .gpr rt
  | .bgtz _ _ => .none
  | .sw _ rt _ => .gpr rt
  | .lw _ _ _ => .none
  | .brk => .none
  | .add _ _ rb => .gpr rb
  | .sub _ _ rb => .gpr rb
  | .and _ _ rb => .gpr rb
  | .or _ _ rb => .gpr rb
  | .srl _ _ rb => .gpr rb
  | .sra _ _ rb => .gpr rb
  | .addi _ _ _ => .none
  | .andi _ _ _ => .none
  | .ori _ _ _ => .none
  | .mult _ rb => .gpr rb
  | .div _ rb => .gpr rb
  | .mfhi _ => .none
  | .mflo _ => .none

/-- The record's `dest` (R74). -/
def destOf : Instr → DRef
  | .j _ => .none
  | .beq _ _ _ => .none
  | .bne _ _ _ => .none
  | .bgtz _ _ => .none
  | .sw _ _ _ => .none
  | .lw _ rt _ => .gpr rt
  | .brk => .none
  | .add rd _ _ => .gpr rd
  | .sub rd _ _ => .gpr rd
  | .and rd _ _ => .gpr rd
  | .or rd _ _ => .gpr rd
  | .srl rd _ _ => .gpr rd
  | .sra rd _ _ => .gpr rd
  | .addi rd _ _ => .gpr rd
  | .andi rd _ _ => .gpr rd
  | .ori rd _ _ => .gpr rd
  | .mult _ _ => .hilo
  | .div _ _ => .hilo
  | .mfhi rd => .gpr rd
  | .mflo rd => .gpr rd

/-- `regs(ref)` of a source reference (R205). -/
def SRef.regs : SRef → List PReg
  | .none => []
  | .gpr i => [.x i]
  | .hi => [.hi]
  | .lo => [.lo]

/-- `regs(ref)` of a destination reference (R205): the pair is the two-element set. -/
def DRef.regs : DRef → List PReg
  | .none => []
  | .gpr i => [.x i]
  | .hilo => [.hi, .lo]

/-- `reads(I)` (R205), a set kept as a list. -/
def readsOf (i : Instr) : List PReg := (src1Of i).regs ++ (src2Of i).regs

/-- `writes(I)` (R205). -/
def writesOf (i : Instr) : List PReg := (destOf i).regs

/-- Two register sets have an element in common. -/
def meets (as bs : List PReg) : Bool := as.any (fun r => decide (r ∈ bs))

/-- `raw(A, B)`: `B` reads what `A` writes (R209). -/
def raw (a b : Instr) : Bool := meets (writesOf a) (readsOf b)

/-- `war(A, B)`: `B` overwrites what `A` reads (R209). -/
def war (a b : Instr) : Bool := meets (readsOf a) (writesOf b)

/-- `waw(A, B)`: both write the same register (R209). -/
def waw (a b : Instr) : Bool := meets (writesOf a) (writesOf b)

/-- The kind is J, BEQ, BNE or BGTZ (R100). -/
def isBranch : Instr → Bool
  | .j _ | .beq _ _ _ | .bne _ _ _ | .bgtz _ _ => true
  | .sw _ _ _ | .lw _ _ _ | .brk => false
  | .add _ _ _ | .sub _ _ _ | .and _ _ _ | .or _ _ _ | .srl _ _ _ | .sra _ _ _ => false
  | .addi _ _ _ | .andi _ _ _ | .ori _ _ _ | .mult _ _ | .div _ _ | .mfhi _ | .mflo _ => false

/-- The kind ends the fetch loop and never enters the window: a branch, a jump or BREAK (R224, R225, R252). -/
def endsFetch : Instr → Bool
  | .brk => true
  | i => isBranch i

/-- `I.kind = SW`. -/
def isStore : Instr → Bool
  | .sw _ _ _ => true
  | .j _ | .beq _ _ _ | .bne _ _ _ | .bgtz _ _ | .lw _ _ _ | .brk => false
  | .add _ _ _ | .sub _ _ _ | .and _ _ _ | .or _ _ _ | .srl _ _ _ | .sra _ _ _ => false
  | .addi _ _ _ | .andi _ _ _ | .ori _ _ _ | .mult _ _ | .div _ _ | .mfhi _ | .mflo _ => false

/-- `I.kind = LW`. -/
def isLoad : Instr → Bool
  | .lw _ _ _ => true
  | .j _ | .beq _ _ _ | .bne _ _ _ | .bgtz _ _ | .sw _ _ _ | .brk => false
  | .add _ _ _ | .sub _ _ _ | .and _ _ _ | .or _ _ _ | .srl _ _ _ | .sra _ _ _ => false
  | .addi _ _ _ | .andi _ _ _ | .ori _ _ _ | .mult _ _ | .div _ _ | .mfhi _ | .mflo _ => false

/-- `queue_of(I)` (R246); J, BEQ, BNE, BGTZ and BREAK have no queue (R252). -/
def queueOf : Instr → Option QueueId
  | .sw _ _ _ | .lw _ _ _ => some .ls
  | .div _ _ => some .div
  | .mult _ _ => some .mul
  | .add _ _ _ | .sub _ _ _ | .and _ _ _ | .or _ _ _ | .srl _ _ _ | .sra _ _ _ => some .alu
  | .addi _ _ _ | .andi _ _ _ | .ori _ _ _ | .mfhi _ | .mflo _ => some .alu
  | .j _ | .beq _ _ _ | .bne _ _ _ | .bgtz _ _ | .brk => none

/-- The shift amount of SRL and SRA, `u(v2) mod 32` (R135). -/
def shiftAmount (v : Word) : Nat := v.toNat % 32

/-- `v1 >>u k` (R135). -/
def shiftRightLogical (v1 v2 : Word) : Word := v1 >>> shiftAmount v2

/-- `v1 >>s k` (R136). -/
def shiftRightArith (v1 v2 : Word) : Word := v1.sshiftRight (shiftAmount v2)

/-- `p mod 2^64` for the exact signed product (R151). -/
def product64 (v1 v2 : Word) : BitVec 64 := BitVec.ofInt 64 (v1.toInt * v2.toInt)

/-- `p64[63:32]` (R151). -/
def productHi (v1 v2 : Word) : Word := (product64 v1 v2).extractLsb' 32 32

/-- `p64[31:0]` (R151). -/
def productLo (v1 v2 : Word) : Word := (product64 v1 v2).extractLsb' 0 32

/-- `q mod 2^32`, with `q` the signed quotient rounded toward zero (R152). -/
def quotient (v1 v2 : Word) : Word := BitVec.ofInt 32 (v1.toInt.tdiv v2.toInt)

/-- `r mod 2^32`, with `r = a - q*b` (R152). -/
def remainder (v1 v2 : Word) : Word := BitVec.ofInt 32 (v1.toInt - v1.toInt.tdiv v2.toInt * v2.toInt)

end Sys2Proof.Machine
end

