-- ==== Sys2Proof/Machine/Flags.lean ====
section
/-! DEFINITION. The awaiting flags, the only flags of the machine (10_state.md R13, R25): the operations that
50_scoreboard.md names over them, the composition of the next flags (54_writeback.md R288), and the branch conditions,
which compare registers because there are no condition codes (R25). -/

namespace Sys2Proof.Machine

/-- `AW[r]` (R13). -/
def Scoreboard.flag (aw : Scoreboard) : PReg → Bool
  | .x i => aw.x[i]
  | .hi => aw.hi
  | .lo => aw.lo

/-- `is_awaiting(S, ref)` of a source reference (R202): `none` is never awaiting. -/
def Scoreboard.awaitsSrc (aw : Scoreboard) : SRef → Bool
  | .none => false
  | .gpr i => aw.x[i]
  | .hi => aw.hi
  | .lo => aw.lo

/-- `is_awaiting(S, ref)` of a destination reference (R202): the pair queries both halves. -/
def Scoreboard.awaitsDest (aw : Scoreboard) : DRef → Bool
  | .none => false
  | .gpr i => aw.x[i]
  | .hilo => aw.hi || aw.lo

/-- The flags of a destination set to `b`: `mark_awaiting` (R203) with `true`, the clearing half of `rf_set` (R201)
with `false`. The pair is set both halves at once. -/
def Scoreboard.put (aw : Scoreboard) (d : DRef) (b : Bool) : Scoreboard :=
  match d with
  | .none => aw
  | .gpr i => { aw with x := aw.x.set i b }
  | .hilo => { aw with hi := b, lo := b }

/-- `mark_awaiting(S, dref)` (R203). -/
def Scoreboard.mark (aw : Scoreboard) (d : DRef) : Scoreboard := aw.put d true

/-- The flags of `aw`, and those of `marks` set: the last line of R288, where a mark wins. -/
def Scoreboard.union (aw marks : Scoreboard) : Scoreboard :=
  { x := Vector.ofFn (fun i => aw.x[i] || marks.x[i]), hi := aw.hi || marks.hi, lo := aw.lo || marks.lo }

/-- BEQ's condition: all 32 bits equal (R102). -/
def takenEq (a b : Word) : Bool := a == b

/-- BNE's condition (R103). -/
def takenNe (a b : Word) : Bool := a != b

/-- BGTZ's condition, a signed comparison (R104). -/
def takenGtz (a : Word) : Bool := decide (0 < a.toInt)

end Sys2Proof.Machine
end

