-- ==== Sys2Proof/Machine/Memory.lean ====
section
/-! DEFINITION. Memory as 20_memory.md states it: a word array from 256 to `MAX_ADDR` (R40), read and written one
whole word at a time (R44), with no byte order (R55). -/

namespace Sys2Proof.Machine

/-- The canonical form: addresses strictly rising, and no listed word is 0, which an unlisted address holds. -/
def Memory.wf (m : Memory) : Bool :=
  decide (m.Pairwise (fun a b => a.1 < b.1)) && m.all (fun c => c.2 != 0#32)

/-- The word at byte address `a`; 0 where nothing is listed. -/
def Memory.get : Memory → Nat → Word
  | [], _ => 0#32
  | (b, v) :: m, a => if b = a then v else Memory.get m a

/-- Put `v` at address `a`, in the canonical form: a 0 is not listed. -/
def Memory.set : Memory → Nat → Word → Memory
  | [], a, v => if v = 0#32 then [] else [(a, v)]
  | (b, w) :: m, a, v =>
    if a < b then (if v = 0#32 then (b, w) :: m else (a, v) :: (b, w) :: m)
    else if a = b then (if v = 0#32 then m else (a, v) :: m)
    else (b, w) :: Memory.set m a v

/-- `MAX_ADDR = 256 + 4*N` (R5, R40): the first address past the array. -/
def Setup.maxAddr (c : Setup) : Nat := Config.minAddr + 4 * c.words

/-- `256 <= u(p) < MAX_ADDR`, the fetch stage's test of the fetch pointer (R46, R223). -/
def Setup.inRange (c : Setup) (p : Word) : Bool :=
  decide (Config.minAddr ≤ p.toNat) && decide (p.toNat < c.maxAddr)

/-- `MemRead(S, addr, 4)` (R42): the word, or the fault of a misaligned or absent address. -/
def memRead (c : Setup) (m : Memory) (ea : Word) : Except Fault Word :=
  if ea.toNat % 4 ≠ 0 ∨ ea.toNat < Config.minAddr ∨ c.maxAddr ≤ ea.toNat then .error (.memAddress ea)
  else .ok (m.get ea.toNat)

/-- `MemWrite(S, addr, 4, v)` (R43): the code-segment test first, then alignment and the upper bound. -/
def memWrite (c : Setup) (m : Memory) (ea v : Word) : Except Fault Memory :=
  if ea.toNat < c.dataStart then .error (.storeToCode ea)
  else if ea.toNat % 4 ≠ 0 ∨ c.maxAddr ≤ ea.toNat then .error (.memAddress ea)
  else .ok (m.set ea.toNat v)

end Sys2Proof.Machine
end

