-- ==== Sys2Proof/Machine/Ops.lean ====
section
/-! DEFINITION. The named operations that the instructions' meanings are made of: updates of the next generation,
`rf_get` and `rf_set` (50_scoreboard.md), branch resolution (51_fetch.md R227, R228), the issue conditions and the issue
action (52_issue.md R241 to R248), the units' actions (53_execute_units.md) and the taking of a fault
(60_exceptions.md R306). Every operation reads `cur` and writes `next` or the cycle in progress (R290). -/

namespace Sys2Proof.Machine

/-- What a meaning answers. -/
abbrev Out := Host.Outcome State Fault Refusal

/-- Go on with the next state; a fault or a refusal ends the cycle (R294: a cycle that faults is abandoned whole). -/
def andThen (o : Out) (f : State → Out) : Out :=
  match o with
  | .next s => f s
  | .fault r => .fault r
  | .refused r => .refused r

/-! ### Updates of one part of the state -/

/-- Replace the fetch stage's registers in the next generation. -/
def State.setFetch (s : State) (r : FetchRegs) : State := { s with next := { s.next with fetch := r } }

/-- Replace the latches of the next generation. -/
def State.setLatches (s : State) (l : Latches) : State := { s with next := { s.next with latches := l } }

/-- Replace the register file of the next generation. -/
def State.setRegs (s : State) (r : RegFile) : State := { s with next := { s.next with regs := r } }

/-- Replace the awaiting flags of the next generation. -/
def State.setAw (s : State) (aw : Scoreboard) : State := { s with next := { s.next with aw := aw } }

/-- Replace the memory of the next generation. -/
def State.setMem (s : State) (m : Memory) : State := { s with next := { s.next with mem := m } }

/-- Replace the cycle in progress. -/
def State.setWork (s : State) (w : Work) : State := { s with work := w }

/-- Present a record at a station. -/
def State.present (s : State) (st : Station) : State := s.setWork { s.work with station := st }

/-! ### Faults -/

/-- `raise <Fault>(info)`: the cycle ends, and the run (R306). -/
def raise (f : Fault) : Out := .fault f

/-- The effect of a fault (R306): the run status records it and nothing else changes; `pc`, the registers and the
memory keep the values of the last complete cycle, and no handler is entered. There is no return from it (R309). -/
def State.takeFault (s : State) (f : Fault) : State := { s with status := .faulted f }

/-! ### The register file -/

/-- `rf_get(S, ref)` (R200): the absent register reads 0; `x[0]` is like any other. -/
def Gen.rfGet (g : Gen) : SRef → Word
  | .none => 0#32
  | .gpr i => g.regs.x[i]
  | .hi => g.regs.hi
  | .lo => g.regs.lo

/-- `rf_set(next, dref, v)` of a single value (R201): the write and the clearing of the flag are one action. A record
without a destination writes nothing; the pair takes two values, so one value for it is an internal inconsistency. -/
def State.rfSet (s : State) (d : DRef) (v : Word) : Out :=
  match d with
  | .none => .next s
  | .gpr i => .next ((s.setRegs { s.next.regs with x := s.next.regs.x.set i v }).setAw (s.next.aw.put d false))
  | .hilo => raise .internal

/-- `rf_set(next, hilo, vhi, vlo)` (R201, R283, R284): both halves and both flags in the same generation. -/
def State.rfSetPair (s : State) (vhi vlo : Word) : State :=
  (s.setRegs { s.next.regs with hi := vhi, lo := vlo }).setAw (s.next.aw.put .hilo false)

/-! ### Fetch and branch resolution -/

/-- The record that `decode(p, w)` makes of the word at the fetch pointer (R75, R223): not yet captured, so `v1` and
`v2` are 0. -/
def State.fetched (s : State) (i : Instr) : Rec :=
  { addr := s.next.fetch.pc, word := s.cur.mem.get s.next.fetch.pc.toNat, instr := i, v1 := 0#32, v2 := 0#32 }

/-- R226: the record goes behind those fetched earlier in this cycle, and the fetch pointer moves on by 4. -/
def State.enterWindow (s : State) (i : Instr) : State :=
  (s.setWork { s.work with newFw := s.work.newFw ++ [s.fetched i] }).setFetch
    { s.next.fetch with pc := s.next.fetch.pc + 4#32 }

/-- R224: BREAK requests the halt; the fetch pointer stays, and the record is discarded. -/
def State.requestHalt (s : State) : State := s.setFetch { s.next.fetch with haltReq := true }

/-- `can_resolve(B, S, extra)` (R227): no register that `B` reads is awaiting, and no unissued older record writes
one. -/
def canResolve (b : Instr) (g : Gen) (extra : List Rec) : Bool :=
  (readsOf b).all (fun r => !g.aw.flag r) && (g.fw ++ extra).all (fun ins => !raw ins.instr b)

/-- `outcome(B, S)` (R228) for a branch at `addr` with condition `taken` and target `target`. -/
def outcome (b : Instr) (taken : Word → Word → Bool) (target addr : Word) (g : Gen) : Word :=
  if taken (g.rfGet (src1Of b)) (g.rfGet (src2Of b)) then target else addr + 4#32

/-- The branch resolves: `pc` takes the outcome, `stalled` is empty, `resolved` holds the branch (R222, R225). -/
def State.resolve (s : State) (ins : Rec) (pc : Word) : State :=
  s.setFetch { s.next.fetch with pc := pc, stalled := none, resolved := some ins }

/-- The branch stalls: `pc` stays at its address (R225). -/
def State.stall (s : State) (ins : Rec) : State :=
  s.setFetch { s.next.fetch with stalled := some ins }

/-- A branch or jump that has just been decoded (R225): resolve at once or stall. -/
def State.branchFetched (s : State) (b : Instr) (taken : Word → Word → Bool) (target : Word → Word) : State :=
  if canResolve b s.cur s.work.newFw then
    s.resolve (s.fetched b) (outcome b taken (target s.next.fetch.pc) s.next.fetch.pc s.cur)
  else s.stall (s.fetched b)

/-- The retry of a stalled branch (R222): resolve, or nothing. -/
def State.branchRetried (s : State) (b : Instr) (taken : Word → Word → Bool) (target : Word → Word) (ins : Rec) : State :=
  if canResolve b s.cur [] then s.resolve ins (outcome b taken (target ins.addr) ins.addr s.cur) else s

/-! ### Issue -/

/-- The records of one queue. -/
def Queues.get (q : Queues) : QueueId → List Rec
  | .ls => q.ls
  | .div => q.div
  | .mul => q.mul
  | .alu => q.alu

/-- A record appended to one queue. -/
def Queues.push (q : Queues) (k : QueueId) (ins : Rec) : Queues :=
  match k with
  | .ls => { q with ls := q.ls ++ [ins] }
  | .div => { q with div := q.div ++ [ins] }
  | .mul => { q with mul := q.mul ++ [ins] }
  | .alu => { q with alu := q.alu ++ [ins] }

/-- Condition (a), the scoreboard check (R241). -/
def condA (i : Instr) (aw marks : Scoreboard) : Bool :=
  (readsOf i ++ writesOf i).all (fun r => !aw.flag r && !marks.flag r)

/-- Condition (b), read after write inside the window (R242). -/
def condB (i : Instr) (older : List Rec) : Bool := older.all (fun j => !raw j.instr i)

/-- Condition (c), write after read inside the window (R243). -/
def condC (i : Instr) (older : List Rec) : Bool := older.all (fun j => !war j.instr i)

/-- Condition (d), memory ordering (R244): a load waits for older stores, a store for older stores and loads. -/
def condD (i : Instr) (older : List Rec) : Bool :=
  if isLoad i then older.all (fun j => !isStore j.instr)
  else if isStore i then older.all (fun j => !isStore j.instr && !isLoad j.instr)
  else true

/-- Condition (e), write after write inside the window, only when `WAW_WINDOW_CHECK` (R245). -/
def condE (check : Bool) (i : Instr) (older : List Rec) : Bool :=
  if check then older.all (fun j => !waw j.instr i) else true

/-- The queue has a free slot, judged on `cur` and this scan's own issues (R247). -/
def State.slotFree (s : State) (k : QueueId) : Bool :=
  decide ((s.cur.queues.get k).length + (s.work.enq.get k).length < Config.qCap)

/-- All that R240 asks of a record before it issues to queue `k`. -/
def State.canIssue (s : State) (i : Instr) (k : QueueId) : Bool :=
  condA i s.cur.aw s.work.marks && condB i s.work.older && condC i s.work.older && condD i s.work.older
    && condE s.setup.wawCheck i s.work.older && s.slotFree k

/-- The record with its operands captured from the current generation (R248). -/
def State.capture (s : State) (i : Instr) (ins : Rec) : Rec :=
  { ins with v1 := s.cur.rfGet (src1Of i), v2 := s.cur.rfGet (src2Of i) }

/-- The issue action (R248): capture, mark the destination, append to the queue; the record leaves the window. -/
def State.issueTo (s : State) (i : Instr) (k : QueueId) (ins : Rec) : State :=
  s.setWork { s.work with
    marks := s.work.marks.mark (destOf i)
    enq := s.work.enq.push k (s.capture i ins) }

/-- The record stays in the window and is retried next cycle (R240, R251). -/
def State.keepInWindow (s : State) (ins : Rec) : State :=
  s.setWork { s.work with kept := s.work.kept ++ [ins] }

/-- The issue scan at one record (R240): issue it if every condition holds, else leave it in the window. -/
def State.tryIssue (s : State) (i : Instr) (k : QueueId) (ins : Rec) : State :=
  if s.canIssue i k then s.issueTo i k ins else s.keepInWindow ins

/-! ### The units -/

/-- ALU1 writes `ALUO` (R261). -/
def State.putAluo (s : State) (ins : Rec) (result : Word) : State :=
  s.setLatches { s.next.latches with aluo := some { ins := ins, value := result } }

/-- ALU2 writes `LSA` (R262). -/
def State.putLsa (s : State) (ins : Rec) (ea : Word) : State :=
  s.setLatches { s.next.latches with lsa := some { ins := ins, value := ea } }

/-- MEM writes `MEMO` (R263). -/
def State.putMemo (s : State) (ins : Rec) (data : Word) : State :=
  s.setLatches { s.next.latches with memo := some { ins := ins, value := data } }

/-- MEM performs a load: it reads the current generation's memory (R263, R50). -/
def State.loadFrom (s : State) (ins : Rec) (ea : Word) : Out :=
  match memRead s.setup s.cur.mem ea with
  | .ok d => .next (s.putMemo ins d)
  | .error f => raise f

/-- MEM performs a store of the captured `v2`: it writes the next generation's memory and leaves `MEMO` empty
(R263). -/
def State.storeTo (s : State) (ins : Rec) (ea : Word) : Out :=
  match memWrite s.setup s.next.mem ea ins.v2 with
  | .ok m => .next (s.setMem m)
  | .error f => raise f

/-- The DIV unit (R264, R152): quotient in `lo`, remainder in `hi`; a zero divisor faults. -/
def State.divide (s : State) (ins : Rec) : Out :=
  if ins.v2 = 0#32 then raise (.divideByZero ins.addr)
  else .next (s.setLatches { s.next.latches with
    divo := some { ins := ins, hi := remainder ins.v1 ins.v2, lo := quotient ins.v1 ins.v2 } })

/-- MUL1 (R265, R151): the halves of the exact signed product. -/
def State.multiply (s : State) (ins : Rec) : State :=
  s.setLatches { s.next.latches with
    mul1o := some { ins := ins, hi := productHi ins.v1 ins.v2, lo := productLo ins.v1 ins.v2 } }

/-- MUL2 passes `MUL1O` on (R266). -/
def State.passMul2 (s : State) (ins : Rec) (hi lo : Word) : State :=
  s.setLatches { s.next.latches with mul2o := some { ins := ins, hi := hi, lo := lo } }

/-- MUL3 passes `MUL2O` on (R267). -/
def State.passMul3 (s : State) (ins : Rec) (hi lo : Word) : State :=
  s.setLatches { s.next.latches with mul3o := some { ins := ins, hi := hi, lo := lo } }

/-! ### An instruction's life, stage by stage -/

/-- What a stage does with an instruction that is not on the stage's own path. Only unreachable states come here
(R28 (c), (d)). Stages whose rule does not look at the kind act as on any record (ALU2 R262, DIV R264, MUL1 to MUL3 R265 to
R267, writeback R281 to R284); ALU1 and MEM raise the internal fault (R305), and so do the branch slots; the issue scan
leaves the record where it is (R252). -/
def offPath (i : Instr) (s : State) : Out :=
  match s.work.station with
  | .fetch => raise .internal
  | .retry _ => raise .internal
  | .issue ins => .next (s.keepInWindow ins)
  | .alu1 _ => raise .internal
  | .alu2 ins => .next (s.putLsa ins (ins.v1 + immOf i))
  | .mem _ _ => raise .internal
  | .div ins => s.divide ins
  | .mul1 ins => .next (s.multiply ins)
  | .mul2 ins hi lo => .next (s.passMul2 ins hi lo)
  | .mul3 ins hi lo => .next (s.passMul3 ins hi lo)
  | .wbAlu _ v => s.rfSet (destOf i) v
  | .wbMem _ v => s.rfSet (destOf i) v
  | .wbDiv _ hi lo => .next (s.rfSetPair hi lo)
  | .wbMul _ hi lo => .next (s.rfSetPair hi lo)

/-- The life of a branch or jump (R100): handled by the fetch stage alone. -/
def branchLife (b : Instr) (taken : Word → Word → Bool) (target : Word → Word) (s : State) : Out :=
  match s.work.station with
  | .fetch => .next (s.branchFetched b taken target)
  | .retry ins => .next (s.branchRetried b taken target ins)
  | _ => offPath b s

/-- The life of an instruction of the generic ALU (R130, R140, R160): window, `ALUQ`, ALU1, writeback of `result`, a
function of the captured operands. -/
def aluLife (i : Instr) (result : Word → Word → Word) (s : State) : Out :=
  match s.work.station with
  | .fetch => .next (s.enterWindow i)
  | .issue ins => .next (s.tryIssue i .alu ins)
  | .alu1 ins => .next (s.putAluo ins (result ins.v1 ins.v2))
  | .wbAlu _ v => s.rfSet (destOf i) v
  | _ => offPath i s

end Sys2Proof.Machine
end

