-- ==== Sys2Proof/Machine/AluImmediate.lean ====
section
/-! DEFINITION. ADDI, ANDI, ORI (44_alu_immediate.md): the results of R141 to R143 over the life of R140. -/

namespace Sys2Proof.Machine

/-- ADDI (R141): the immediate is sign-extended. -/
def execAddi (rd ra : Reg) (imm : Half) (s : State) : Out :=
  aluLife (.addi rd ra imm) (fun a _ => a + sext16 imm) s

/-- ANDI (R142): the immediate is zero-extended. -/
def execAndi (rd ra : Reg) (imm : Half) (s : State) : Out :=
  aluLife (.andi rd ra imm) (fun a _ => a &&& zext16 imm) s

/-- ORI (R143): the immediate is zero-extended. -/
def execOri (rd ra : Reg) (imm : Half) (s : State) : Out :=
  aluLife (.ori rd ra imm) (fun a _ => a ||| zext16 imm) s

end Sys2Proof.Machine
end

