-- ==== Sys2Proof/Machine/AluRegister.lean ====
section
/-! DEFINITION. ADD, SUB, AND, OR, SRL, SRA (43_alu_register.md): the results of R131 to R136 over the life of R130. -/

namespace Sys2Proof.Machine

/-- ADD (R131): modulo `2^32`; overflow is not detected. -/
def execAdd (rd ra rb : Reg) (s : State) : Out := aluLife (.add rd ra rb) (fun a b => a + b) s

/-- SUB (R132): first source minus second source. -/
def execSub (rd ra rb : Reg) (s : State) : Out := aluLife (.sub rd ra rb) (fun a b => a - b) s

/-- AND (R133). -/
def execAnd (rd ra rb : Reg) (s : State) : Out := aluLife (.and rd ra rb) (fun a b => a &&& b) s

/-- OR (R134). -/
def execOr (rd ra rb : Reg) (s : State) : Out := aluLife (.or rd ra rb) (fun a b => a ||| b) s

/-- SRL (R135): the amount is the low 5 bits of the second source's value. -/
def execSrl (rd ra rb : Reg) (s : State) : Out := aluLife (.srl rd ra rb) shiftRightLogical s

/-- SRA (R136). -/
def execSra (rd ra rb : Reg) (s : State) : Out := aluLife (.sra rd ra rb) shiftRightArith s

end Sys2Proof.Machine
end

