-- ==== Sys2Proof/Machine/Branch.lean ====
section
/-! DEFINITION. J, BEQ, BNE, BGTZ (40_branch_jump.md): resolved by the fetch stage, never issued (R100). -/

namespace Sys2Proof.Machine

/-- J (R101): always taken, to the target in its word. It reads nothing, so it resolves in the cycle it is fetched. -/
def execJ (idx : BitVec 26) (s : State) : Out :=
  branchLife (.j idx) (fun _ _ => true) (fun addr => jumpTarget addr idx) s

/-- BEQ (R102). -/
def execBeq (rs rt : Reg) (off : Half) (s : State) : Out :=
  branchLife (.beq rs rt off) takenEq (fun addr => branchTarget addr off) s

/-- BNE (R103). -/
def execBne (rs rt : Reg) (off : Half) (s : State) : Out :=
  branchLife (.bne rs rt off) takenNe (fun addr => branchTarget addr off) s

/-- BGTZ (R104): signed, and `rs` alone is read. -/
def execBgtz (rs : Reg) (off : Half) (s : State) : Out :=
  branchLife (.bgtz rs off) (fun a _ => takenGtz a) (fun addr => branchTarget addr off) s

end Sys2Proof.Machine
end

