-- ==== Sys2Proof/Machine/Break.lean ====
section
/-! DEFINITION. BREAK (42_break.md): met by the fetch stage, it requests the halt. It is no trap (R309). -/

namespace Sys2Proof.Machine

/-- BREAK (R120, R224): `halt_req` is set, `pc` stays, nothing enters the window. -/
def execBreak (s : State) : Out :=
  match s.work.station with
  | .fetch => .next s.requestHalt
  | _ => offPath .brk s

end Sys2Proof.Machine
end

