-- ==== Sys2Proof/Machine/LoadStore.lean ====
section
/-! DEFINITION. SW and LW (41_load_store.md): `LSQ`, ALU2 (the address), MEM (the access), and for LW writeback (R110). -/

namespace Sys2Proof.Machine

/-- SW (R111): `x[rt]`, captured at issue, is stored at `x[base] + sext_16(off)`. It has no writeback. -/
def execSw (base rt : Reg) (off : Half) (s : State) : Out :=
  match s.work.station with
  | .fetch => .next (s.enterWindow (.sw base rt off))
  | .issue ins => .next (s.tryIssue (.sw base rt off) .ls ins)
  | .alu2 ins => .next (s.putLsa ins (ins.v1 + sext16 off))
  | .mem ins ea => s.storeTo ins ea
  | _ => offPath (.sw base rt off) s

/-- LW (R112): the word at `x[base] + sext_16(off)` is loaded into `x[rt]`. -/
def execLw (base rt : Reg) (off : Half) (s : State) : Out :=
  match s.work.station with
  | .fetch => .next (s.enterWindow (.lw base rt off))
  | .issue ins => .next (s.tryIssue (.lw base rt off) .ls ins)
  | .alu2 ins => .next (s.putLsa ins (ins.v1 + sext16 off))
  | .mem ins ea => s.loadFrom ins ea
  | .wbMem _ d => s.rfSet (.gpr rt) d
  | _ => offPath (.lw base rt off) s

end Sys2Proof.Machine
end

