-- ==== Sys2Proof/Machine/MoveFrom.lean ====
section
/-! DEFINITION. MFHI and MFLO (46_move_from_hilo.md): the special register is captured at issue like any source, and the
ALU passes the captured value through (R160). -/

namespace Sys2Proof.Machine

/-- MFHI (R161). -/
def execMfhi (rd : Reg) (s : State) : Out := aluLife (.mfhi rd) (fun a _ => a) s

/-- MFLO (R162). -/
def execMflo (rd : Reg) (s : State) : Out := aluLife (.mflo rd) (fun a _ => a) s

end Sys2Proof.Machine
end

