-- ==== Sys2Proof/Machine/MultDiv.lean ====
section
/-! DEFINITION. MULT and DIV (45_mult_div.md): the destination is the pair HI, LO (R150). -/

namespace Sys2Proof.Machine

/-- MULT (R151): MUL1 forms the exact signed product, MUL2 and MUL3 pass it on, writeback writes HI and LO together. -/
def execMult (ra rb : Reg) (s : State) : Out :=
  match s.work.station with
  | .fetch => .next (s.enterWindow (.mult ra rb))
  | .issue ins => .next (s.tryIssue (.mult ra rb) .mul ins)
  | .mul1 ins => .next (s.multiply ins)
  | .mul2 ins hi lo => .next (s.passMul2 ins hi lo)
  | .mul3 ins hi lo => .next (s.passMul3 ins hi lo)
  | .wbMul _ hi lo => .next (s.rfSetPair hi lo)
  | _ => offPath (.mult ra rb) s

/-- DIV (R152): quotient to LO, remainder to HI; a zero divisor faults in the DIV unit. -/
def execDiv (ra rb : Reg) (s : State) : Out :=
  match s.work.station with
  | .fetch => .next (s.enterWindow (.div ra rb))
  | .issue ins => .next (s.tryIssue (.div ra rb) .div ins)
  | .div ins => s.divide ins
  | .wbDiv _ hi lo => .next (s.rfSetPair hi lo)
  | _ => offPath (.div ra rb) s

end Sys2Proof.Machine
end

