-- ==== Sys2Proof/Machine/Dispatch.lean ====
section
/-! DEFINITION. What instruction `i` does at the station at which `s` presents it. The spec gives an instruction's
meaning stage by stage (R111: "issue: ... ALU2: ... MEM: ..."), so a meaning is a function of the station, and the cycle
(Machine/Cycle.lean) calls `exec` once for every record of every stage. -/

namespace Sys2Proof.Machine

def exec (i : Instr) (s : State) : Host.Outcome State Fault Refusal :=
  match i with
  | .j idx => Sys2Proof.Machine.execJ idx s
  | .beq rs rt off => Sys2Proof.Machine.execBeq rs rt off s
  | .bne rs rt off => Sys2Proof.Machine.execBne rs rt off s
  | .bgtz rs off => Sys2Proof.Machine.execBgtz rs off s
  | .sw base rt off => Sys2Proof.Machine.execSw base rt off s
  | .lw base rt off => Sys2Proof.Machine.execLw base rt off s
  | .brk => Sys2Proof.Machine.execBreak s
  | .add rd ra rb => Sys2Proof.Machine.execAdd rd ra rb s
  | .sub rd ra rb => Sys2Proof.Machine.execSub rd ra rb s
  | .and rd ra rb => Sys2Proof.Machine.execAnd rd ra rb s
  | .or rd ra rb => Sys2Proof.Machine.execOr rd ra rb s
  | .srl rd ra rb => Sys2Proof.Machine.execSrl rd ra rb s
  | .sra rd ra rb => Sys2Proof.Machine.execSra rd ra rb s
  | .addi rd ra imm => Sys2Proof.Machine.execAddi rd ra imm s
  | .andi rd ra imm => Sys2Proof.Machine.execAndi rd ra imm s
  | .ori rd ra imm => Sys2Proof.Machine.execOri rd ra imm s
  | .mult ra rb => Sys2Proof.Machine.execMult ra rb s
  | .div ra rb => Sys2Proof.Machine.execDiv ra rb s
  | .mfhi rd => Sys2Proof.Machine.execMfhi rd s
  | .mflo rd => Sys2Proof.Machine.execMflo rd s

end Sys2Proof.Machine
end

