-- ==== Sys2Proof/Machine/Cycle.lean ====
section
/-! DEFINITION. The transition function `cycle` of 55_cycle_driver.md R291, stage by stage in the document's order (the
order decides only which fault is reported, R307). A stage presents each of its records to `exec`. -/

namespace Sys2Proof.Machine

/-- Present a record at a station and do what its instruction does there. -/
def runAt (st : Station) (ins : Rec) (s : State) : Out := exec ins.instr (s.present st)

/-- The start of a cycle: the next generation begins as a copy of the current one (R220, R280: what no stage sets
keeps its value), but with all seven latches empty, since every latch is rewritten in every cycle (R270). -/
def State.openCycle (s : State) : State :=
  { s with next := { s.cur with latches := Latches.empty }, work := Work.fresh }

/-! ### Fetch (51_fetch.md) -/

/-- The conditions of the fetch loop (R223) but the count of words: a free slot, and the fetch pointer in range. -/
def State.fetchOpen (s : State) : Bool :=
  decide (s.work.newFw.length < Config.fwCap - s.cur.fw.length) && s.setup.inRange s.next.fetch.pc

/-- The word at the fetch pointer. -/
def State.fetchWord (s : State) : Word := s.cur.mem.get s.next.fetch.pc.toNat

/-- The fetch loop (R223) with `n` words left in this cycle: BREAK, a branch or a jump leaves it (R224, R225). -/
def fetchLoop : Nat → State → Out
  | 0, s => .next s
  | n + 1, s =>
    if s.fetchOpen then
      match decode s.fetchWord with
      | none => raise (.decode s.next.fetch.pc s.fetchWord)
      | some i => andThen (exec i (s.present .fetch)) (fun t => if endsFetch i then .next t else fetchLoop n t)
    else .next s

/-- The fetch stage (R220): nothing after BREAK (R221), the retry of a stalled branch (R222), or the loop. -/
def fetchStage (s : State) : Out :=
  if s.cur.fetch.haltReq then .next s
  else match s.cur.fetch.stalled with
    | some b => runAt (.retry b) b s
    | none => fetchLoop Config.fetchWidth s

/-! ### Issue (52_issue.md) -/

/-- The record has been scanned: it is older than those that follow (R240, R250). -/
def State.scanned (s : State) (ins : Rec) : State :=
  s.setWork { s.work with older := s.work.older ++ [ins] }

/-- The scan of the window, oldest first (R240). -/
def issueScan : List Rec → State → Out
  | [], s => .next s
  | ins :: younger, s => andThen (runAt (.issue ins) ins s) (fun t => issueScan younger (t.scanned ins))

/-- The issue stage (R240). -/
def issueStage (s : State) : Out := issueScan s.cur.fw s

/-! ### The units (53_execute_units.md): each takes the head of its queue, or the latch it reads (R260) -/

/-- MEM on `cur.LSA` (R263). -/
def memStage (s : State) : Out :=
  match s.cur.latches.lsa with
  | none => .next s
  | some l => runAt (.mem l.ins l.value) l.ins s

/-- The DIV unit on `cur.DIVQ` (R264). -/
def divStage (s : State) : Out :=
  match s.cur.queues.div with
  | [] => .next s
  | ins :: _ => runAt (.div ins) ins s

/-- MUL1 on `cur.MULQ` (R265). -/
def mul1Stage (s : State) : Out :=
  match s.cur.queues.mul with
  | [] => .next s
  | ins :: _ => runAt (.mul1 ins) ins s

/-- ALU1 on `cur.ALUQ` (R261). -/
def alu1Stage (s : State) : Out :=
  match s.cur.queues.alu with
  | [] => .next s
  | ins :: _ => runAt (.alu1 ins) ins s

/-- ALU2 on `cur.LSQ` (R262). -/
def alu2Stage (s : State) : Out :=
  match s.cur.queues.ls with
  | [] => .next s
  | ins :: _ => runAt (.alu2 ins) ins s

/-- MUL2 on `cur.MUL1O` (R266). -/
def mul2Stage (s : State) : Out :=
  match s.cur.latches.mul1o with
  | none => .next s
  | some l => runAt (.mul2 l.ins l.hi l.lo) l.ins s

/-- MUL3 on `cur.MUL2O` (R267). -/
def mul3Stage (s : State) : Out :=
  match s.cur.latches.mul2o with
  | none => .next s
  | some l => runAt (.mul3 l.ins l.hi l.lo) l.ins s

/-! ### Writeback (54_writeback.md): the four final latches, in the order of R285 -/

/-- Writeback from `ALUO` (R281). -/
def wbAluStage (s : State) : Out :=
  match s.cur.latches.aluo with
  | none => .next s
  | some l => runAt (.wbAlu l.ins l.value) l.ins s

/-- Writeback from `MEMO` (R282). -/
def wbMemStage (s : State) : Out :=
  match s.cur.latches.memo with
  | none => .next s
  | some l => runAt (.wbMem l.ins l.value) l.ins s

/-- Writeback from `DIVO` (R283). -/
def wbDivStage (s : State) : Out :=
  match s.cur.latches.divo with
  | none => .next s
  | some l => runAt (.wbDiv l.ins l.hi l.lo) l.ins s

/-- Writeback from `MUL3O` (R284). -/
def wbMulStage (s : State) : Out :=
  match s.cur.latches.mul3o with
  | none => .next s
  | some l => runAt (.wbMul l.ins l.hi l.lo) l.ins s

/-- The stages in the order of R291. -/
def stages : List (State → Out) :=
  [fetchStage, issueStage, memStage, divStage, mul1Stage, alu1Stage, alu2Stage, mul2Stage, mul3Stage,
   wbAluStage, wbMemStage, wbDivStage, wbMulStage]

/-- Run stages one after another; the first fault ends the cycle (R307). -/
def runStages : List (State → Out) → State → Out
  | [], s => .next s
  | f :: fs, s => andThen (f s) (runStages fs)

/-! ### The swap (R292) and the end of the run (R293) -/

/-- `next.Q` of the four queues (R268): the head leaves, this cycle's records go behind. -/
def Queues.advance (q enq : Queues) : Queues :=
  { ls := q.ls.tail ++ enq.ls
    div := q.div.tail ++ enq.div
    mul := q.mul.tail ++ enq.mul
    alu := q.alu.tail ++ enq.alu }

/-- The next generation whole (R291): the window is the survivors and then the new records (R251), the queues have
moved on (R268), and the marks are set over the cleared flags (R288). -/
def State.nextGen (s : State) : Gen :=
  { s.next with
    fw := s.work.kept ++ s.work.newFw
    queues := s.cur.queues.advance s.work.enq
    aw := s.next.aw.union s.work.marks }

/-- `in_flight(S)` (R293). -/
def Gen.inFlight (g : Gen) : Bool :=
  !g.fw.isEmpty || !g.queues.ls.isEmpty || !g.queues.div.isEmpty || !g.queues.mul.isEmpty || !g.queues.alu.isEmpty
    || g.latches.lsa.isSome || g.latches.memo.isSome || g.latches.divo.isSome || g.latches.mul1o.isSome
    || g.latches.mul2o.isSome || g.latches.mul3o.isSome || g.latches.aluo.isSome || g.fetch.stalled.isSome

/-- The run halts after a cycle that leaves the halt requested and nothing in flight (R293). -/
def Gen.finished (g : Gen) : Bool := g.fetch.haltReq && !g.inFlight

/-- The swap (R292): the next generation becomes the current one, whole, and the cycle counts. -/
def State.adopt (s : State) (g : Gen) : State :=
  { s with
    cur := g
    next := g
    work := Work.fresh
    cycles := s.cycles + 1
    status := if g.finished then .halted else s.status }

/-- One cycle (R291, R292, R293) of a running machine. -/
def cycle (s : State) : Out :=
  andThen (runStages stages s.openCycle) (fun t => .next (t.adopt t.nextGen))

end Sys2Proof.Machine
end

