-- ==== Sys2Proof/WellFormed.lean ====
section
/-! DEFINITION. What must hold of the machine's inputs. An `Instr` needs no check: every value that its fields'
types admit is one that the encoding admits (R75: "every 5-bit value names a register"; all 16- and 26-bit values are
legal). Two things do need one: the image (00_scope.md R5: "A model must refuse an IMAGE that breaks the constraint")
and the address an instruction is decoded at (the precondition of `decode`, R75, R15). -/

namespace Sys2Proof

/-- R5: an image has at least one word and ends at or below `2^27`. `Machine.State.load` refuses any other. -/
def imageOk (image : List Word) : Bool :=
  decide (1 ≤ image.length) && decide (Config.minAddr + 4 * image.length ≤ Config.addrBound)

/-- R15, R75: an instruction's address is a multiple of 4 and at least 256. -/
def instrAddrOk (addr : Word) : Bool :=
  decide (addr.toNat % 4 = 0) && decide (Config.minAddr ≤ addr.toNat)

end Sys2Proof
end

