-- ==== Sys2Proof/Machine/Image.lean ====
section
/-! DEFINITION. The one way into the machine from outside: the image (20_memory.md R41, R51; 70_reset_and_hazards.md
R330), its binary text, and the placing of one instruction word where the fetch stage will meet it. -/

namespace Sys2Proof.Machine

/-- The words of an image from address `a` on, as memory in its canonical form. -/
def imageMemory : Nat → List Word → Memory
  | _, [] => []
  | a, w :: ws => if w = 0#32 then imageMemory (a + 4) ws else (a, w) :: imageMemory (a + 4) ws

/-- `DATA_START` of the words from address `a` on (R41): the address after the first `BREAK_WORD`, or `MAX_ADDR`. -/
def dataStartFrom : Nat → List Word → Nat
  | a, [] => a
  | a, w :: ws => if w = Config.breakWord then a + 4 else dataStartFrom (a + 4) ws

/-- `reset(IMAGE)` (R330): the reset state with the image in memory; an image that breaks R5 is refused. -/
def State.load (image : List Word) (wawCheck : Bool) : Host.Outcome State Fault Refusal :=
  if imageOk image then
    .next { State.reset with
      cur := { Gen.reset with mem := imageMemory Config.minAddr image }
      next := { Gen.reset with mem := imageMemory Config.minAddr image }
      setup :=
        { words := image.length
          dataStart := dataStartFrom Config.minAddr image
          wawCheck := wawCheck } }
  else .refused .badImage

/-- A word as its text line (R51): 32 characters, bit 31 first. -/
def lineOfWord (w : Word) : List Char :=
  (List.range 32).map (fun j => if w.getLsbD (31 - j) then '1' else '0')

/-- The value of a string of `0` and `1`, most significant first, after the digits read so far gave `n`. -/
def binaryValue : Nat → List Char → Option Nat
  | n, [] => some n
  | n, c :: cs =>
    if c = '0' then binaryValue (2 * n) cs else if c = '1' then binaryValue (2 * n + 1) cs else none

/-- A text line as a word (R51); a line that is not exactly 32 characters of `0` and `1` is malformed and gives
nothing (R315). -/
def wordOfLine (line : List Char) : Option Word :=
  if line.length = 32 then (binaryValue 0 line).map (BitVec.ofNat 32) else none

/-- An image from its text (R51): one word a line, or nothing if a line is malformed. -/
def imageOfText : List (List Char) → Option (List Word)
  | [] => some []
  | l :: ls =>
    match wordOfLine l, imageOfText ls with
    | some w, some ws => some (w :: ws)
    | _, _ => none

/-- `p` can hold an instruction of some image (R5, R15). -/
def placeable (p : Word) : Bool := instrAddrOk p && decide (p.toNat + 4 ≤ Config.addrBound)

/-- The parameters with `MAX_ADDR` above `p`. If the array has to grow and has no data segment, it still has none. -/
def Setup.reaching (c : Setup) (p : Word) : Setup :=
  if c.inRange p then c
  else
    let words := (p.toNat - Config.minAddr) / 4 + 1
    { c with
      words := words
      dataStart := if c.dataStart = c.maxAddr then Config.minAddr + 4 * words else c.dataStart }

/-- The generation whose fetch loop meets `w` first: `w` is in memory at the fetch pointer (256 if the pointer cannot
hold an instruction), no halt is requested, no branch is stalled, and the window has a free slot. -/
def Gen.withNextWord (g : Gen) (w : Word) : Gen :=
  let p := if placeable g.fetch.pc then g.fetch.pc else 256#32
  { g with
    fetch := { g.fetch with pc := p, stalled := none, haltReq := false }
    fw := g.fw.take (Config.fwCap - 1)
    mem := g.mem.set p.toNat w }

/-- The running state whose next cycle decodes `w` first. -/
def State.withNextWord (s : State) (w : Word) : State :=
  let g := s.cur.withNextWord w
  { s with cur := g, next := g, work := Work.fresh, status := .running, setup := s.setup.reaching g.fetch.pc }

end Sys2Proof.Machine
end

