-- ==== Sys2Proof/Machine/Step.lean ====
section
/-! DEFINITION. One step is one turn of the loop of 55_cycle_driver.md R297: one cycle of a running machine. -/

namespace Sys2Proof.Machine

/-- One turn of the run (R297). A running machine performs one cycle; if the cycle faults, the status records the fault
and nothing else changes (R294, R306). No further cycle runs once the status is terminal (R22): a halted machine stays
as it is, and a faulted one answers its fault (notes/assumptions/3.md). -/
def step (s : State) : Host.Outcome State Fault Refusal :=
  match s.status with
  | .running =>
    match cycle s with
    | .next t => .next t
    | .fault f => .next (s.takeFault f)
    | .refused r => .refused r
  | .halted => .next s
  | .faulted f => .fault f

/-- `s` with a table row's word where the next cycle's fetch loop begins. -/
def State.withFetchWord (s : State) (nbits w : Nat) : State := s.withNextWord (tableWord nbits w)

end Sys2Proof.Machine
end

