-- ==== Sys2Proof/Safety.lean ====
section
/-! DEFINITION. The terms in which claims are made: the invariants of every reachable state (10_state.md R28,
50_scoreboard.md R208), the ALU's result as R261 tabulates it, runs, and what a safe run is. -/

namespace Sys2Proof.Machine

/-- `alu_result(I)` (R261) as the table of that rule gives it, on the captured operands; `none` for any other kind. It is
written apart from the instructions' meanings, so that a claim can compare the two. -/
def aluResult (i : Instr) (v1 v2 : Word) : Option Word :=
  match i with
  | .add _ _ _ => some (v1 + v2)
  | .sub _ _ _ => some (v1 - v2)
  | .and _ _ _ => some (v1 &&& v2)
  | .or _ _ _ => some (v1 ||| v2)
  | .srl _ _ _ => some (v1 >>> (v2.toNat % 32))
  | .sra _ _ _ => some (v1.sshiftRight (v2.toNat % 32))
  | .addi _ _ imm => some (v1 + imm.signExtend 32)
  | .andi _ _ imm => some (v1 &&& imm.setWidth 32)
  | .ori _ _ imm => some (v1 ||| imm.setWidth 32)
  | .mfhi _ => some v1
  | .mflo _ => some v1
  | _ => none

/-! ### Encodings -/

/-- The bits of a word that take part in its decoding or are a field of its format (R61 to R69): the others are ignored
(R72). -/
def fieldBits (i : Instr) : Word :=
  match i with
  | .bgtz _ _ => 0xFFE0FFFF#32
  | .brk => 0xFC000000#32
  | .add _ _ _ | .sub _ _ _ | .and _ _ _ | .or _ _ _ | .srl _ _ _ | .sra _ _ _ => 0xFFFFF800#32
  | .mult _ _ | .div _ _ => 0xFFFF0000#32
  | .mfhi _ | .mflo _ => 0xFFE00000#32
  | .j _ | .beq _ _ _ | .bne _ _ _ | .sw _ _ _ | .lw _ _ _ | .addi _ _ _ | .andi _ _ _ | .ori _ _ _ => 0xFFFFFFFF#32

/-- The illegal pairs of category and opcode, as R71 lists them. -/
def illegalPair (cat op : Nat) : Bool :=
  (cat == 0 && op == 7) || (cat == 1 && decide (6 ≤ op)) || (cat == 2 && decide (3 ≤ op))
    || (cat == 3 && decide (2 ≤ op)) || (cat == 4 && decide (2 ≤ op)) || decide (5 ≤ cat)

/-- `w[31:26]` of an instruction's encoding (R70). -/
def opcodeBits (i : Instr) : BitVec 6 := (encode i).extractLsb' 26 6

/-! ### Two instructions -/

/-- Neither instruction reads or writes a register that the other writes (R209). -/
def independent (a b : Instr) : Prop := raw a b = false ∧ war a b = false ∧ waw a b = false

/-! ### The clauses of R28 -/

/-- R28 (a): the window holds at most 8 records, each queue at most 2. -/
def Gen.capacityOk (g : Gen) : Prop :=
  g.fw.length ≤ 8 ∧ g.queues.ls.length ≤ 2 ∧ g.queues.div.length ≤ 2 ∧ g.queues.mul.length ≤ 2
    ∧ g.queues.alu.length ≤ 2

/-- R28 (b): `pc` is a multiple of 4. -/
def Gen.pcOk (g : Gen) : Prop := g.fetch.pc.toNat % 4 = 0

/-- R28 (c) and (d): every record stands only where its kind can stand. -/
structure Gen.KindsOk (g : Gen) : Prop where
  fw : ∀ r ∈ g.fw, endsFetch r.instr = false
  stalled : ∀ r ∈ g.fetch.stalled, isBranch r.instr = true
  ls : ∀ r ∈ g.queues.ls, queueOf r.instr = some .ls
  div : ∀ r ∈ g.queues.div, queueOf r.instr = some .div
  mul : ∀ r ∈ g.queues.mul, queueOf r.instr = some .mul
  alu : ∀ r ∈ g.queues.alu, queueOf r.instr = some .alu
  lsa : ∀ l ∈ g.latches.lsa, queueOf l.ins.instr = some .ls
  memo : ∀ l ∈ g.latches.memo, isLoad l.ins.instr = true
  divo : ∀ l ∈ g.latches.divo, queueOf l.ins.instr = some .div
  mul1o : ∀ l ∈ g.latches.mul1o, queueOf l.ins.instr = some .mul
  mul2o : ∀ l ∈ g.latches.mul2o, queueOf l.ins.instr = some .mul
  mul3o : ∀ l ∈ g.latches.mul3o, queueOf l.ins.instr = some .mul
  aluo : ∀ l ∈ g.latches.aluo, queueOf l.ins.instr = some .alu

/-- Every issued record that has not been written back: those in the queues and in the latches (R208). -/
def Gen.issued (g : Gen) : List Rec :=
  g.queues.ls ++ g.queues.div ++ g.queues.mul ++ g.queues.alu
    ++ g.latches.lsa.toList.map Latch.ins ++ g.latches.memo.toList.map Latch.ins
    ++ g.latches.divo.toList.map PairLatch.ins ++ g.latches.mul1o.toList.map PairLatch.ins
    ++ g.latches.mul2o.toList.map PairLatch.ins ++ g.latches.mul3o.toList.map PairLatch.ins
    ++ g.latches.aluo.toList.map Latch.ins

/-- How many of the records write `r`. -/
def writersIn (rs : List Rec) (r : PReg) : Nat := rs.countP (fun ins => decide (r ∈ writesOf ins.instr))

/-- R208, R28 (e): a flag is set exactly when one issued record writes its register, and clear exactly when none does. -/
def Gen.scoreboardOk (g : Gen) : Prop :=
  ∀ r, writersIn g.issued r = if g.aw.flag r then 1 else 0

/-- R28 (f): `AW[HI] = AW[LO]`. -/
def Gen.pairOk (g : Gen) : Prop := g.aw.hi = g.aw.lo

/-- R28 (g): if `stalled` is full then `halt_req` is false. -/
def Gen.haltOk (g : Gen) : Prop := g.fetch.stalled.isSome = true → g.fetch.haltReq = false

/-- R15, R75: a record holds an address that an instruction can have, and the instruction its word decodes to. -/
def Rec.ok (r : Rec) : Prop := instrAddrOk r.addr = true ∧ decode r.word = some r.instr

/-- Every record anywhere in the generation. -/
def Gen.records (g : Gen) : List Rec :=
  g.fw ++ g.issued ++ g.fetch.stalled.toList ++ g.fetch.resolved.toList

/-- R24, R40: memory is in its canonical form and lists only words of the array. -/
def memOk (c : Setup) (m : Memory) : Prop :=
  m.wf = true ∧ ∀ w ∈ m, Config.minAddr ≤ w.1 ∧ w.1 < c.maxAddr ∧ w.1 % 4 = 0

/-- R5, R41: the array ends at or below `2^27`, and the data segment starts inside it or at its end. -/
def Setup.ok (c : Setup) : Prop :=
  c.maxAddr ≤ Config.addrBound ∧ Config.minAddr ≤ c.dataStart ∧ c.dataStart ≤ c.maxAddr

/-- A state between two cycles: nothing of the next cycle has happened. -/
def State.settled (s : State) : Prop := s.next = s.cur ∧ s.work = Work.fresh

/-- The invariants of every reachable state, together (R28, R208, R15, R24). -/
structure State.Inv (s : State) : Prop where
  capacity : s.cur.capacityOk
  kinds : s.cur.KindsOk
  pc : s.cur.pcOk
  records : ∀ r ∈ s.cur.records, r.ok
  scoreboard : s.cur.scoreboardOk
  pair : s.cur.pairOk
  halt : s.cur.haltOk
  mem : memOk s.setup s.cur.mem
  setup : s.setup.ok

/-! ### Runs -/

/-- `t` comes from `s` by some number of steps. -/
inductive Reaches (s : State) : State → Prop where
  | refl : Reaches s s
  | step {t u : State} : Reaches s t → step t = .next u → Reaches s u

/-- `t` is the state `n` completed cycles after `s` (R297): each of the cycles began in a running state and did not
fault. -/
def Cycles : Nat → State → State → Prop
  | 0, s, t => t = s
  | n + 1, s, t => ∃ u, s.status = .running ∧ cycle s = .next u ∧ Cycles n u t

/-- A safe run: no state that `s` reaches has a faulted status (R306). -/
def SafeFrom (s : State) : Prop := ∀ t, Reaches s t → ∀ f, t.status ≠ .faulted f

end Sys2Proof.Machine
end

