-- ==== Sys2Proof/Machine/Reference.lean ====
section
/-! DEFINITION. The transition function as 55_cycle_driver.md R291 writes it: one pure function from a generation to the
next generation or a fault, with no station, no cycle in progress and no call of `exec`. The machine does not use it.
It is here so that one claim can say that the cycle which presents each record to its instruction's meaning computes
exactly the function of the spec's pseudocode (Certificates/Slice0/Obligations.lean). Where the two could share text
they do not: conditions are written over the sets of R205, and the marks are a set, as in R240. -/

namespace Sys2Proof.Machine.Reference

/-- The two sets have no element in common. -/
def disjoint (as bs : List PReg) : Bool := as.all (fun r => decide (r ∉ bs))

/-- `outcome(B, S)` (R228): the condition by the branch's kind, then the target of R73 or the next address. -/
def outcome (b : Rec) (g : Gen) : Word :=
  match b.instr with
  | .j idx => (b.addr + 4#32).extractLsb' 28 4 ++ idx ++ 0#2
  | .beq rs rt off =>
    if g.regs.x[rs] = g.regs.x[rt] then b.addr + 4#32 + (off.signExtend 32 <<< 2) else b.addr + 4#32
  | .bne rs rt off =>
    if g.regs.x[rs] = g.regs.x[rt] then b.addr + 4#32 else b.addr + 4#32 + (off.signExtend 32 <<< 2)
  | .bgtz rs off =>
    if 0 < g.regs.x[rs].toInt then b.addr + 4#32 + (off.signExtend 32 <<< 2) else b.addr + 4#32
  | _ => b.addr + 4#32

/-- `can_resolve(B, S, extra)` (R227). -/
def mayResolve (b : Rec) (g : Gen) (extra : List Rec) : Bool :=
  (readsOf b.instr).all (fun r => !g.aw.flag r) &&
    (g.fw ++ extra).all (fun j => disjoint (writesOf j.instr) (readsOf b.instr))

/-- The loop of R223 at fetch pointer `p` with `n` words left: the fetch registers and the records fetched. -/
def fetchLoop (c : Setup) (g : Gen) : Nat → Word → List Rec → Except Fault (FetchRegs × List Rec)
  | 0, p, newFw => .ok ({ g.fetch with pc := p }, newFw)
  | n + 1, p, newFw =>
    if newFw.length < 8 - g.fw.length ∧ 256 ≤ p.toNat ∧ p.toNat < 256 + 4 * c.words then
      match decode (g.mem.get p.toNat) with
      | none => .error (.decode p (g.mem.get p.toNat))
      | some i =>
        let b : Rec := { addr := p, word := g.mem.get p.toNat, instr := i, v1 := 0#32, v2 := 0#32 }
        if i = .brk then .ok ({ g.fetch with pc := p, haltReq := true }, newFw)
        else if isBranch i then
          if mayResolve b g newFw then
            .ok ({ g.fetch with pc := outcome b g, stalled := none, resolved := some b }, newFw)
          else .ok ({ g.fetch with pc := p, stalled := some b }, newFw)
        else fetchLoop c g n (p + 4#32) (newFw ++ [b])
    else .ok ({ g.fetch with pc := p }, newFw)

/-- `fetch(cur, next)` (R220 to R222). -/
def fetch (c : Setup) (g : Gen) : Except Fault (FetchRegs × List Rec) :=
  if g.fetch.haltReq then .ok (g.fetch, [])
  else match g.fetch.stalled with
    | some b =>
      if mayResolve b g [] then
        .ok ({ g.fetch with pc := outcome b g, stalled := none, resolved := some b }, [])
      else .ok (g.fetch, [])
    | none => fetchLoop c g 4 g.fetch.pc []

/-- The accumulators and outputs of the issue scan (R240). -/
structure Issue where
  marks : List PReg
  kept : List Rec
  enq : Queues

/-- The issue conditions (R241 to R245) and the queue condition (R247) for a record of kind `i`. -/
def issues (c : Setup) (g : Gen) (older : List Rec) (a : Issue) (i : Instr) (k : QueueId) : Bool :=
  (readsOf i ++ writesOf i).all (fun r => !g.aw.flag r && decide (r ∉ a.marks))
    && older.all (fun j => disjoint (writesOf j.instr) (readsOf i))
    && older.all (fun j => disjoint (readsOf j.instr) (writesOf i))
    && (!isLoad i || older.all (fun j => !isStore j.instr))
    && (!isStore i || older.all (fun j => !isStore j.instr && !isLoad j.instr))
    && (!c.wawCheck || older.all (fun j => disjoint (writesOf j.instr) (writesOf i)))
    && decide ((g.queues.get k).length + (a.enq.get k).length < 2)

/-- One record of the scan: issue it (R248) or leave it. -/
def issueOne (c : Setup) (g : Gen) (older : List Rec) (a : Issue) (b : Rec) : Issue :=
  match queueOf b.instr with
  | none => { a with kept := a.kept ++ [b] }
  | some k =>
    if issues c g older a b.instr k then
      { a with
        marks := a.marks ++ writesOf b.instr
        enq := a.enq.push k { b with v1 := g.rfGet (src1Of b.instr), v2 := g.rfGet (src2Of b.instr) } }
    else { a with kept := a.kept ++ [b] }

/-- The scan of the rest of the window (R240). -/
def issueScan (c : Setup) (g : Gen) : List Rec → List Rec → Issue → Issue
  | _, [], a => a
  | older, b :: younger, a => issueScan c g (older ++ [b]) younger (issueOne c g older a b)

/-- `issue(cur, next)` (R240). -/
def issue (c : Setup) (g : Gen) : Issue :=
  issueScan c g [] g.fw { marks := [], kept := [], enq := Queues.empty }

/-- The MEM unit (R263): `MEMO` and the memory. -/
def mem (c : Setup) (g : Gen) : Except Fault (Option Latch × Memory) :=
  match g.latches.lsa with
  | none => .ok (none, g.mem)
  | some l =>
    if isLoad l.ins.instr then
      if l.value.toNat % 4 ≠ 0 ∨ l.value.toNat < 256 ∨ 256 + 4 * c.words ≤ l.value.toNat then
        .error (.memAddress l.value)
      else .ok (some { ins := l.ins, value := g.mem.get l.value.toNat }, g.mem)
    else if isStore l.ins.instr then
      if l.value.toNat < c.dataStart then .error (.storeToCode l.value)
      else if l.value.toNat % 4 ≠ 0 ∨ 256 + 4 * c.words ≤ l.value.toNat then .error (.memAddress l.value)
      else .ok (none, g.mem.set l.value.toNat l.ins.v2)
    else .error .internal

/-- The DIV unit (R264). -/
def div (g : Gen) : Except Fault (Option PairLatch) :=
  match g.queues.div with
  | [] => .ok none
  | b :: _ =>
    if b.v2 = 0#32 then .error (.divideByZero b.addr)
    else .ok (some { ins := b, hi := remainder b.v1 b.v2, lo := quotient b.v1 b.v2 })

/-- ALU1 (R261). -/
def alu1 (g : Gen) : Except Fault (Option Latch) :=
  match g.queues.alu with
  | [] => .ok none
  | b :: _ =>
    match aluResult b.instr b.v1 b.v2 with
    | some v => .ok (some { ins := b, value := v })
    | none => .error .internal

/-- The general registers after writeback from `ALUO` and `MEMO`, in that order (R281, R282, R285). -/
def regsX (g : Gen) : Vector Word 32 :=
  let put (x : Vector Word 32) (l : Option Latch) : Vector Word 32 :=
    match l with
    | some l => match destOf l.ins.instr with
      | .gpr i => x.set i l.value
      | _ => x
    | none => x
  put (put g.regs.x g.latches.aluo) g.latches.memo

/-- HI and LO after writeback from `DIVO` and `MUL3O`, in that order (R283, R284, R285). -/
def hiLo (g : Gen) : Word × Word :=
  match g.latches.mul3o, g.latches.divo with
  | some l, _ => (l.hi, l.lo)
  | none, some l => (l.hi, l.lo)
  | none, none => (g.regs.hi, g.regs.lo)

/-- `cleared` (R288): the union of the write sets of the records in the four final latches. -/
def cleared (g : Gen) : List PReg :=
  (g.latches.aluo.toList.map Latch.ins ++ g.latches.memo.toList.map Latch.ins
    ++ g.latches.divo.toList.map PairLatch.ins ++ g.latches.mul3o.toList.map PairLatch.ins).flatMap
    (fun b => writesOf b.instr)

/-- `next.AW[r]` (R288). -/
def nextFlag (g : Gen) (marks : List PReg) (r : PReg) : Bool :=
  (g.aw.flag r && decide (r ∉ cleared g)) || decide (r ∈ marks)

/-- `cycle(cur)` (R291): the ten steps in their order, then `next`. -/
def cycle (c : Setup) (g : Gen) : Except Fault Gen :=
  match fetch c g with
  | .error f => .error f
  | .ok (fetch', newFw) =>
    match mem c g with
    | .error f => .error f
    | .ok (memo', mem') =>
      match div g with
      | .error f => .error f
      | .ok divo' =>
        match alu1 g with
        | .error f => .error f
        | .ok aluo' =>
          .ok
            { fetch := fetch'
              fw := (issue c g).kept ++ newFw
              queues :=
                { ls := g.queues.ls.tail ++ (issue c g).enq.ls
                  div := g.queues.div.tail ++ (issue c g).enq.div
                  mul := g.queues.mul.tail ++ (issue c g).enq.mul
                  alu := g.queues.alu.tail ++ (issue c g).enq.alu }
              latches :=
                { aluo := aluo'
                  lsa := g.queues.ls.head?.map (fun b => { ins := b, value := b.v1 + immOf b.instr })
                  memo := memo'
                  divo := divo'
                  mul1o := g.queues.mul.head?.map
                    (fun b => { ins := b, hi := productHi b.v1 b.v2, lo := productLo b.v1 b.v2 })
                  mul2o := g.latches.mul1o
                  mul3o := g.latches.mul2o }
              regs := { x := regsX g, hi := (hiLo g).1, lo := (hiLo g).2 }
              aw :=
                { x := Vector.ofFn (fun i => nextFlag g (issue c g).marks (.x i))
                  hi := nextFlag g (issue c g).marks .hi
                  lo := nextFlag g (issue c g).marks .lo }
              mem := mem' }

end Sys2Proof.Machine.Reference
end

