-- ==== Sys2Proof/Certificates/Slice0/Obligations.lean ====
section
/-! DEFINITION. The statements for the provers. Each is a Prop and nothing here is proved. A docstring names the rule
of spec/ that the statement formalises; where it rests on one of the spec's own decisions (92_eei_decisions.md) or of
the model's conventions (notes/assumptions), it says which. -/

section

open Sys2Proof Sys2Proof.Machine

/-! ### Encodings -/

/-- R76: encoding and then decoding gives the instruction back, with every operand at every value; BREAK encodes to
`BREAK_WORD`; decoding and then encoding gives the word back exactly when its ignored bits are zero. -/
def Obligations.DecodeOfEncode : Prop :=
  (∀ i : Instr, decode (encode i) = some i) ∧ encode .brk = Config.breakWord ∧
    ∀ w i, decode w = some i → (encode i = w ↔ w &&& ~~~(fieldBits i) = 0#32)

/-- R71: a word has no instruction exactly when its category and opcode are one of the listed pairs, 44 of the 64; the
fetch loop that reaches such a word raises `DecodeFault` with its address and the word. -/
def Obligations.IllegalWordsFault : Prop :=
  (∀ w : Word, decode w = none ↔ illegalPair (w.extractLsb' 29 3).toNat (w.extractLsb' 26 3).toNat = true) ∧
    ((List.range 64).filter (fun k => illegalPair (k / 8) (k % 8))).length = 44 ∧
    ∀ (n : Nat) (s : State), s.fetchOpen = true → decode s.fetchWord = none →
      fetchLoop (n + 1) s = .fault (.decode s.next.fetch.pc s.fetchWord)

/-- R72 (decision D6): bits outside a format's fields are ignored. The encoder writes zeros there, and changing any of
them changes nothing of the decoded instruction. -/
def Obligations.BitsOutsideFieldsIgnored : Prop :=
  ∀ w i, decode w = some i →
    encode i = w &&& fieldBits i ∧ ∀ k : Word, decode (w ^^^ (k &&& ~~~(fieldBits i))) = some i

/-- Words written out in the spec (30_encoding.md section 8; 95_test_vectors.md section 2.1) decode to the instructions
it says they stand for: at least one of every format. -/
def Obligations.WordsOfTheSpecDecode : Prop :=
  decode 0x20200000#32 = some (.add 1 0 0) ∧ decode 0x27FEE800#32 = some (.sub 31 30 29) ∧
    decode 0x00000044#32 = some (.j 68) ∧ decode 0x0422FFFF#32 = some (.beq 1 2 0xFFFF) ∧
    decode 0x0C3F0001#32 = some (.bgtz 1 1) ∧ decode 0x1107FFFC#32 = some (.sw 8 7 0xFFFC) ∧
    decode 0x15498000#32 = some (.lw 10 9 0x8000) ∧ decode 0x180000FF#32 = some .brk ∧
    decode 0x40228000#32 = some (.addi 1 2 0x8000) ∧ decode 0x64640000#32 = some (.div 3 4) ∧
    decode 0x87E00000#32 = some (.mflo 31) ∧ decode 0x1C000000#32 = none

/-! ### The register file and the scoreboard -/

/-- R205, R209, R246: the registers that each kind reads and writes, by the table of R205; the three conflict predicates
between an older and a younger instruction; and the queue of each of the fifteen kinds that issue. -/
def Obligations.RolesByKind : Prop :=
  (∀ i, readsOf i = (src1Of i).regs ++ (src2Of i).regs ∧ writesOf i = (destOf i).regs) ∧
    (∀ k : Reg, SRef.none.regs = [] ∧ (SRef.gpr k).regs = [.x k] ∧ SRef.hi.regs = [.hi] ∧ SRef.lo.regs = [.lo] ∧
      DRef.none.regs = [] ∧ (DRef.gpr k).regs = [.x k] ∧ DRef.hilo.regs = [.hi, .lo]) ∧
    (∀ idx, readsOf (.j idx) = [] ∧ writesOf (.j idx) = []) ∧
    (∀ rs rt off, readsOf (.beq rs rt off) = [.x rs, .x rt] ∧ writesOf (.beq rs rt off) = [] ∧
      readsOf (.bne rs rt off) = [.x rs, .x rt] ∧ writesOf (.bne rs rt off) = []) ∧
    (∀ rs off, readsOf (.bgtz rs off) = [.x rs] ∧ writesOf (.bgtz rs off) = []) ∧
    (∀ base rt off, readsOf (.sw base rt off) = [.x base, .x rt] ∧ writesOf (.sw base rt off) = [] ∧
      readsOf (.lw base rt off) = [.x base] ∧ writesOf (.lw base rt off) = [.x rt]) ∧
    (readsOf .brk = [] ∧ writesOf .brk = []) ∧
    (∀ rd ra rb, ∀ i ∈ [Instr.add rd ra rb, .sub rd ra rb, .and rd ra rb, .or rd ra rb, .srl rd ra rb, .sra rd ra rb],
      readsOf i = [.x ra, .x rb] ∧ writesOf i = [.x rd]) ∧
    (∀ rd ra imm, ∀ i ∈ [Instr.addi rd ra imm, .andi rd ra imm, .ori rd ra imm],
      readsOf i = [.x ra] ∧ writesOf i = [.x rd]) ∧
    (∀ ra rb, ∀ i ∈ [Instr.mult ra rb, .div ra rb], readsOf i = [.x ra, .x rb] ∧ writesOf i = [.hi, .lo]) ∧
    (∀ rd, readsOf (.mfhi rd) = [.hi] ∧ writesOf (.mfhi rd) = [.x rd] ∧
      readsOf (.mflo rd) = [.lo] ∧ writesOf (.mflo rd) = [.x rd]) ∧
    (∀ a b : Instr, (raw a b = true ↔ ∃ r, r ∈ writesOf a ∧ r ∈ readsOf b) ∧
      (war a b = true ↔ ∃ r, r ∈ readsOf a ∧ r ∈ writesOf b) ∧
      (waw a b = true ↔ ∃ r, r ∈ writesOf a ∧ r ∈ writesOf b)) ∧
    ∀ i, queueOf i = match i with
      | .lw _ _ _ | .sw _ _ _ => some .ls
      | .div _ _ => some .div
      | .mult _ _ => some .mul
      | .j _ | .beq _ _ _ | .bne _ _ _ | .bgtz _ _ | .brk => none
      | .add _ _ _ | .sub _ _ _ | .and _ _ _ | .or _ _ _ | .srl _ _ _ | .sra _ _ _ => some .alu
      | .addi _ _ _ | .andi _ _ _ | .ori _ _ _ | .mfhi _ | .mflo _ => some .alu

/-- R200 to R203: reading a reference, writing a destination and clearing its flags in one action, asking for a flag,
and setting the flags of a destination. The absent register reads 0, is never awaiting and cannot be written or marked;
`x[0]` is like every other register. -/
def Obligations.RegisterFileOperations : Prop :=
  (∀ (g : Gen) (i : Reg), g.rfGet .none = 0#32 ∧ g.rfGet (.gpr i) = g.regs.x[i] ∧ g.rfGet .hi = g.regs.hi ∧
      g.rfGet .lo = g.regs.lo) ∧
    (∀ (s : State) (v : Word), s.rfSet .none v = .next s) ∧
    (∀ (s : State) (i : Reg) (v : Word), ∃ t, s.rfSet (.gpr i) v = .next t ∧
      t.next.regs = { s.next.regs with x := s.next.regs.x.set i v } ∧
      (∀ r, t.next.aw.flag r = if r = .x i then false else s.next.aw.flag r) ∧
      t = { s with next := { s.next with regs := t.next.regs, aw := t.next.aw } }) ∧
    (∀ (s : State) (vhi vlo : Word),
      (s.rfSetPair vhi vlo).next.regs = { s.next.regs with hi := vhi, lo := vlo } ∧
      (∀ r, (s.rfSetPair vhi vlo).next.aw.flag r = if r = .hi ∨ r = .lo then false else s.next.aw.flag r) ∧
      s.rfSetPair vhi vlo = { s with next := { s.next with
        regs := (s.rfSetPair vhi vlo).next.regs, aw := (s.rfSetPair vhi vlo).next.aw } }) ∧
    (∀ (aw : Scoreboard) (i : Reg), aw.awaitsSrc .none = false ∧ aw.awaitsSrc (.gpr i) = aw.flag (.x i) ∧
      aw.awaitsSrc .hi = aw.flag .hi ∧ aw.awaitsSrc .lo = aw.flag .lo ∧
      aw.awaitsDest .hilo = (aw.flag .hi || aw.flag .lo)) ∧
    ∀ (aw : Scoreboard) (i : Reg) (r : PReg), (aw.mark .none).flag r = aw.flag r ∧
      (aw.mark (.gpr i)).flag r = (aw.flag r || decide (r = .x i)) ∧
      (aw.mark .hilo).flag r = (aw.flag r || decide (r = .hi ∨ r = .lo))

/-- R288: a flag after a cycle is what it was unless a latch written back in the cycle clears it, and is set if a record
issued in the cycle marks it; where each set flag has its writer in flight (R208), no register is both cleared and
marked. -/
def Obligations.FlagsAfterCycle : Prop :=
  ∀ s t : State, s.cur.KindsOk → cycle s = .next t →
    (∀ r, t.cur.aw.flag r = ((s.cur.aw.flag r && decide (r ∉ Reference.cleared s.cur))
      || decide (r ∈ (Reference.issue s.setup s.cur).marks))) ∧
    (s.cur.scoreboardOk → ∀ r ∈ Reference.cleared s.cur, r ∉ (Reference.issue s.setup s.cur).marks)

/-! ### Branches, jumps and BREAK at the fetch stage -/

/-- R101: J resolves in the cycle it is fetched. The next `pc` is the four top bits of the jump's address plus 4, the
26-bit index and two zeros; `resolved` holds the jump; nothing else changes. -/
def Obligations.JumpResolvesWhenFetched : Prop :=
  ∀ (idx : BitVec 26) (s : State), s.work.station = .fetch →
    exec (.j idx) s = .next { s with next := { s.next with fetch := { s.next.fetch with
      pc := (s.next.fetch.pc + 4#32).extractLsb' 28 4 ++ idx ++ 0#2
      stalled := none
      resolved := some (s.fetched (.j idx)) } } } ∧
    opcodeBits (.j idx) = 0b000000#6 ∧ readsOf (.j idx) = [] ∧ writesOf (.j idx) = []

/-- R102, R103: BEQ and BNE read `x[rs]` and `x[rt]` and write nothing. Fetched when neither source is awaiting and no
unissued older record writes one, they resolve at once from the registers of the current generation; nothing else
changes. -/
def Obligations.EqualityBranchesResolve : Prop :=
  ∀ (rs rt : Reg) (off : Half) (s : State),
    s.work.station = .fetch → s.cur.aw.flag (.x rs) = false → s.cur.aw.flag (.x rt) = false →
    (∀ j ∈ s.cur.fw ++ s.work.newFw, PReg.x rs ∉ writesOf j.instr ∧ PReg.x rt ∉ writesOf j.instr) →
    exec (.beq rs rt off) s = .next { s with next := { s.next with fetch := { s.next.fetch with
      pc := if s.cur.regs.x[rs] = s.cur.regs.x[rt] then s.next.fetch.pc + 4#32 + (off.signExtend 32 <<< 2)
        else s.next.fetch.pc + 4#32
      stalled := none
      resolved := some (s.fetched (.beq rs rt off)) } } } ∧
    exec (.bne rs rt off) s = .next { s with next := { s.next with fetch := { s.next.fetch with
      pc := if s.cur.regs.x[rs] = s.cur.regs.x[rt] then s.next.fetch.pc + 4#32
        else s.next.fetch.pc + 4#32 + (off.signExtend 32 <<< 2)
      stalled := none
      resolved := some (s.fetched (.bne rs rt off)) } } } ∧
    opcodeBits (.beq rs rt off) = 0b000001#6 ∧ opcodeBits (.bne rs rt off) = 0b000010#6 ∧
    ∀ i ∈ [Instr.beq rs rt off, .bne rs rt off], src1Of i = .gpr rs ∧ src2Of i = .gpr rt ∧ destOf i = .none

/-- R104 (decision D31: a signed comparison, and `rs` alone is read): BGTZ, fetched when its source is ready, resolves at
once; nothing else changes. -/
def Obligations.GreaterThanZeroBranchResolves : Prop :=
  ∀ (rs : Reg) (off : Half) (s : State), s.work.station = .fetch → s.cur.aw.flag (.x rs) = false →
    (∀ j ∈ s.cur.fw ++ s.work.newFw, PReg.x rs ∉ writesOf j.instr) →
    exec (.bgtz rs off) s = .next { s with next := { s.next with fetch := { s.next.fetch with
      pc := if s.cur.regs.x[rs].msb = false ∧ s.cur.regs.x[rs] ≠ 0#32
        then s.next.fetch.pc + 4#32 + (off.signExtend 32 <<< 2) else s.next.fetch.pc + 4#32
      stalled := none
      resolved := some (s.fetched (.bgtz rs off)) } } }

/-- R222, R225, R228 (decision D13: `pc` stays at the branch): a branch that cannot resolve when it is fetched takes the
stalled slot and moves nothing else; a stalled branch that still cannot resolve leaves everything as it is; one that can
resolve does so, from its own address. -/
def Obligations.StalledBranches : Prop :=
  ∀ (i : Instr) (s : State), isBranch i = true →
    (s.work.station = .fetch → canResolve i s.cur s.work.newFw = false →
      exec i s = .next { s with next := { s.next with fetch := { s.next.fetch with stalled := some (s.fetched i) } } }) ∧
    ∀ ins, s.work.station = .retry ins →
      (canResolve i s.cur [] = false → exec i s = .next s) ∧
      (canResolve i s.cur [] = true →
        exec i s = .next { s with next := { s.next with fetch := { s.next.fetch with
          pc := Reference.outcome { ins with instr := i } s.cur
          stalled := none
          resolved := some ins } } })

/-- R227 (decision D24: the window counts whole): a branch may resolve exactly when no register it reads is awaiting and
no older unissued record writes one; a jump always may. -/
def Obligations.ResolutionCondition : Prop :=
  (∀ (b : Instr) (g : Gen) (extra : List Rec), canResolve b g extra = true ↔
    (∀ r ∈ readsOf b, g.aw.flag r = false) ∧ ∀ j ∈ g.fw ++ extra, ∀ r ∈ writesOf j.instr, r ∉ readsOf b) ∧
  ∀ (idx : BitVec 26) (g : Gen) (extra : List Rec), canResolve (.j idx) g extra = true

/-- R73, R106 (decision D7 for J): targets of aligned instructions are aligned; below `2^27` the jump's target is four
times its index. -/
def Obligations.TargetsAligned : Prop :=
  ∀ addr : Word, addr.toNat % 4 = 0 →
    (∀ off, (branchTarget addr off).toNat % 4 = 0) ∧ (∀ idx, (jumpTarget addr idx).toNat % 4 = 0) ∧
    ∀ idx, addr.toNat < 2 ^ 27 → (jumpTarget addr idx).toNat = 4 * idx.toNat

/-- R224, R120 (decisions D12, D13, D25): BREAK at the fetch stage sets `halt_req` and changes nothing else. -/
def Obligations.BreakRequestsHalt : Prop :=
  ∀ s : State, s.work.station = .fetch →
    exec .brk s = .next { s with next := { s.next with fetch := { s.next.fetch with haltReq := true } } }

/-- R226 (decision D11): any other instruction (SW, LW, ADD, SUB, AND, OR, SRL, SRA, ADDI, ANDI, ORI, MULT, DIV, MFHI,
MFLO) goes behind the records fetched earlier in the cycle, uncaptured, and the fetch pointer moves on by 4. -/
def Obligations.WindowEntry : Prop :=
  ∀ (i : Instr) (s : State) (k : QueueId), queueOf i = some k → s.work.station = .fetch →
    exec i s = .next { s with
      work := { s.work with newFw := s.work.newFw ++
        [{ addr := s.next.fetch.pc, word := s.cur.mem.get s.next.fetch.pc.toNat, instr := i, v1 := 0#32, v2 := 0#32 }] }
      next := { s.next with fetch := { s.next.fetch with pc := s.next.fetch.pc + 4#32 } } }

/-! ### A step runs the decoded instruction -/

/-- The fetch loop presents the instruction that the word at the fetch pointer decodes to, and a step of a running
machine whose fetch loop is open begins with it: the step is `exec` of that instruction, then the rest of the loop
(three more words, unless the instruction ends it), then the twelve other stages, then the swap; a fault ends it with
the status changed and nothing else (R223, R291, R306). -/
def Obligations.StepRunsDecodedInstruction : Prop :=
  (∀ (n : Nat) (s : State) (i : Instr), s.fetchOpen = true → decode s.fetchWord = some i →
    fetchLoop (n + 1) s = andThen (exec i (s.present .fetch))
      (fun t => if endsFetch i then .next t else fetchLoop n t)) ∧
  ∀ (s : State) (i : Instr), s.status = .running → s.cur.fetch.haltReq = false → s.cur.fetch.stalled = none →
    s.cur.fw.length < 8 → s.setup.inRange s.cur.fetch.pc = true →
    decode (s.cur.mem.get s.cur.fetch.pc.toNat) = some i →
    step s = match andThen (exec i s.openCycle) (fun t =>
        andThen (if endsFetch i then .next t else fetchLoop 3 t) (fun u =>
          andThen (runStages (stages.drop 1) u) (fun v => .next (v.adopt v.nextGen)))) with
      | .next t => .next t
      | .fault f => .next { s with status := .faulted f }
      | .refused r => .refused r

/-- Every other stage presents its record to `exec` too: the stalled branch, each record of the window in order, the
head of each queue, and the content of each latch that a unit or writeback reads (R222, R240, R260, R280). -/
def Obligations.StagesRunTheirRecords : Prop :=
  ∀ s : State,
    (∀ b, s.cur.fetch.haltReq = false → s.cur.fetch.stalled = some b →
      fetchStage s = exec b.instr (s.present (.retry b))) ∧
    (∀ b bs, issueScan (b :: bs) s = andThen (exec b.instr (s.present (.issue b))) (fun t =>
      issueScan bs { t with work := { t.work with older := t.work.older ++ [b] } })) ∧
    (∀ b bs, s.cur.queues.alu = b :: bs → alu1Stage s = exec b.instr (s.present (.alu1 b))) ∧
    (∀ b bs, s.cur.queues.ls = b :: bs → alu2Stage s = exec b.instr (s.present (.alu2 b))) ∧
    (∀ b bs, s.cur.queues.div = b :: bs → divStage s = exec b.instr (s.present (.div b))) ∧
    (∀ b bs, s.cur.queues.mul = b :: bs → mul1Stage s = exec b.instr (s.present (.mul1 b))) ∧
    (∀ l, s.cur.latches.lsa = some l → memStage s = exec l.ins.instr (s.present (.mem l.ins l.value))) ∧
    (∀ l, s.cur.latches.mul1o = some l → mul2Stage s = exec l.ins.instr (s.present (.mul2 l.ins l.hi l.lo))) ∧
    (∀ l, s.cur.latches.mul2o = some l → mul3Stage s = exec l.ins.instr (s.present (.mul3 l.ins l.hi l.lo))) ∧
    (∀ l, s.cur.latches.aluo = some l → wbAluStage s = exec l.ins.instr (s.present (.wbAlu l.ins l.value))) ∧
    (∀ l, s.cur.latches.memo = some l → wbMemStage s = exec l.ins.instr (s.present (.wbMem l.ins l.value))) ∧
    (∀ l, s.cur.latches.divo = some l → wbDivStage s = exec l.ins.instr (s.present (.wbDiv l.ins l.hi l.lo))) ∧
    (∀ l, s.cur.latches.mul3o = some l → wbMulStage s = exec l.ins.instr (s.present (.wbMul l.ins l.hi l.lo)))

/-! ### The fetch stage over a cycle -/

/-- R251, R223, R226 (decisions D11, D32): the next window is the survivors of this one, in their order, and then the
records fetched in the cycle, at most 4 and at most the free slots; the k-th of them is the instruction at `pc + 4*k`,
which is in range and neither a branch nor BREAK. -/
def Obligations.WindowAfterCycle : Prop :=
  ∀ s t : State, s.cur.KindsOk → cycle s = .next t →
    ∃ kept new, t.cur.fw = kept ++ new ∧ kept.Sublist s.cur.fw ∧ new.length ≤ 4 ∧ new.length ≤ 8 - s.cur.fw.length ∧
      ∀ k b, new[k]? = some b →
        b.addr = s.cur.fetch.pc + BitVec.ofNat 32 (4 * k) ∧ s.setup.inRange b.addr = true ∧
        b.word = s.cur.mem.get b.addr.toNat ∧ decode b.word = some b.instr ∧ endsFetch b.instr = false

/-- R222: with a branch stalled the fetch stage fetches nothing in the cycle; the branch resolves, from the registers of
the current generation, in the first cycle in which it can, and until then stays with `pc` where it was. -/
def Obligations.StalledBranchRetried : Prop :=
  ∀ (s t : State) (b : Rec),
    s.cur.KindsOk → s.cur.fetch.haltReq = false → s.cur.fetch.stalled = some b → cycle s = .next t →
    t.cur.fw.Sublist s.cur.fw ∧
    (canResolve b.instr s.cur [] = true → t.cur.fetch =
      { pc := Reference.outcome b s.cur, stalled := none, resolved := some b, haltReq := false }) ∧
    (canResolve b.instr s.cur [] = false → t.cur.fetch = s.cur.fetch)

/-- R221, R28 (h) (decision D12): once the halt is requested, no later state has another `pc`, stalled branch or
resolved branch, and no record enters the window. -/
def Obligations.NothingFetchedAfterBreak : Prop :=
  ∀ s : State, s.cur.fetch.haltReq = true →
    (∀ t, cycle s = .next t → t.cur.fw.Sublist s.cur.fw) ∧ ∀ t, Reaches s t → t.cur.fetch = s.cur.fetch

/-- R231: with `pc` out of range the fetch stage does nothing and raises nothing, and this is permanent: no later state
has another `pc`, and none is halted. -/
def Obligations.OutOfRangeFetchIdles : Prop :=
  ∀ s : State, s.cur.fetch.haltReq = false → s.cur.fetch.stalled = none →
    s.cur.fetch.pc.toNat < 256 ∨ s.setup.maxAddr ≤ s.cur.fetch.pc.toNat →
    fetchStage s.openCycle = .next s.openCycle ∧
    ∀ t, Reaches s t → t.cur.fetch = s.cur.fetch ∧ (s.status = .running → t.status ≠ .halted)

/-- R120, R224: only BREAK requests the halt. If a cycle sets `halt_req`, the word at the `pc` it leaves is in range and
decodes to BREAK. -/
def Obligations.OnlyBreakRequestsHalt : Prop :=
  ∀ s t : State, s.cur.KindsOk → cycle s = .next t → s.cur.fetch.haltReq = false → t.cur.fetch.haltReq = true →
    s.cur.fetch.stalled = none ∧ t.cur.fetch.stalled = none ∧ s.setup.inRange t.cur.fetch.pc = true ∧
      decode (s.cur.mem.get t.cur.fetch.pc.toNat) = some .brk

/-! ### Issue -/

/-- R241 to R245, R247 (decisions D14, D16, D17): the conditions under which the scan issues a record, written out. -/
def Obligations.IssueConditions : Prop :=
  ∀ (s : State) (i : Instr) (k : QueueId), s.canIssue i k = true ↔
    (∀ r, r ∈ readsOf i ∨ r ∈ writesOf i → s.cur.aw.flag r = false ∧ s.work.marks.flag r = false) ∧
    (∀ j ∈ s.work.older, (∀ r ∈ writesOf j.instr, r ∉ readsOf i) ∧ (∀ r ∈ readsOf j.instr, r ∉ writesOf i) ∧
      (isLoad i = true → isStore j.instr = false) ∧
      (isStore i = true → isStore j.instr = false ∧ isLoad j.instr = false) ∧
      (s.setup.wawCheck = true → ∀ r ∈ writesOf j.instr, r ∉ writesOf i)) ∧
    (s.cur.queues.get k).length + (s.work.enq.get k).length < 2

/-- R248: a record of any of the fifteen kinds that meets the conditions issues: its operands are captured from the
current generation, its destination is marked, it goes behind its queue's records; otherwise it stays in the window.
Nothing else changes. -/
def Obligations.IssueAction : Prop :=
  ∀ (i : Instr) (k : QueueId) (s : State) (ins : Rec), queueOf i = some k → s.work.station = .issue ins →
    (s.canIssue i k = true →
      exec i s = .next { s with work := { s.work with
        marks := s.work.marks.put (destOf i) true
        enq := s.work.enq.push k { ins with v1 := s.cur.rfGet (src1Of i), v2 := s.cur.rfGet (src2Of i) } } }) ∧
    (s.canIssue i k = false → exec i s = .next { s with work := { s.work with kept := s.work.kept ++ [ins] } })

/-- R250, R241 to R244 (decisions D14, D17): records that issue in the same cycle are independent of one another, a store
issues with no other load or store, and no register that any of them reads or writes is awaiting. -/
def Obligations.SameCycleIssuesIndependent : Prop :=
  ∀ s u : State, issueStage s.openCycle = .next u →
    (u.work.enq.ls ++ u.work.enq.div ++ u.work.enq.mul ++ u.work.enq.alu).Pairwise
      (fun a b => independent a.instr b.instr) ∧
    u.work.enq.ls.Pairwise (fun a b => isStore a.instr = false ∧ isStore b.instr = false) ∧
    ∀ b ∈ u.work.enq.ls ++ u.work.enq.div ++ u.work.enq.mul ++ u.work.enq.alu,
      ∀ r, r ∈ readsOf b.instr ∨ r ∈ writesOf b.instr → s.cur.aw.flag r = false

/-- R268 (with R248): each queue loses its head and gains, behind the rest, records of the window routed to it, captured
from the current generation; a queue of at most 2 stays so. -/
def Obligations.QueuesAfterCycle : Prop :=
  ∀ s t : State, s.cur.KindsOk → cycle s = .next t →
    ∃ enq : Queues, ∀ k, t.cur.queues.get k = (s.cur.queues.get k).tail ++ enq.get k ∧
      (∀ c ∈ enq.get k, ∃ b ∈ s.cur.fw, queueOf b.instr = some k ∧
        c = { b with v1 := s.cur.rfGet (src1Of b.instr), v2 := s.cur.rfGet (src2Of b.instr) }) ∧
      ((s.cur.queues.get k).length ≤ 2 → (t.cur.queues.get k).length ≤ 2)

/-! ### The units -/

/-- R131 to R136 (decisions D8: no overflow; D9: the shift amount): the results that ALU1 puts into `ALUO`, as numbers
or bit by bit. Nothing else changes. -/
def Obligations.AluRegisterResults : Prop :=
  ∀ (rd ra rb : Reg) (s : State) (ins : Rec), s.work.station = .alu1 ins →
    (∃ v : Word, exec (.add rd ra rb) s = .next (s.setLatches { s.next.latches with aluo := some ⟨ins, v⟩ }) ∧
      v.toNat = (ins.v1.toNat + ins.v2.toNat) % 2 ^ 32) ∧
    (∃ v : Word, exec (.sub rd ra rb) s = .next (s.setLatches { s.next.latches with aluo := some ⟨ins, v⟩ }) ∧
      (v.toInt : Int) = (ins.v1.toInt - ins.v2.toInt).bmod (2 ^ 32)) ∧
    (∃ v : Word, exec (.and rd ra rb) s = .next (s.setLatches { s.next.latches with aluo := some ⟨ins, v⟩ }) ∧
      ∀ n, v.getLsbD n = (ins.v1.getLsbD n && ins.v2.getLsbD n)) ∧
    (∃ v : Word, exec (.or rd ra rb) s = .next (s.setLatches { s.next.latches with aluo := some ⟨ins, v⟩ }) ∧
      ∀ n, v.getLsbD n = (ins.v1.getLsbD n || ins.v2.getLsbD n)) ∧
    (∃ v : Word, exec (.srl rd ra rb) s = .next (s.setLatches { s.next.latches with aluo := some ⟨ins, v⟩ }) ∧
      v.toNat = ins.v1.toNat / 2 ^ (ins.v2.toNat % 32)) ∧
    (∃ v : Word, exec (.sra rd ra rb) s = .next (s.setLatches { s.next.latches with aluo := some ⟨ins, v⟩ }) ∧
      v.toInt = ins.v1.toInt / 2 ^ (ins.v2.toNat % 32))

/-- R141 to R143 (decision D8: no overflow): ADDI adds the sign-extended immediate; ANDI and ORI take the zero-extended
one, so ANDI clears bits 31:16 and ORI keeps them. Nothing else changes. -/
def Obligations.AluImmediateResults : Prop :=
  ∀ (rd ra : Reg) (imm : Half) (s : State) (ins : Rec), s.work.station = .alu1 ins →
    (∃ v : Word, exec (.addi rd ra imm) s = .next (s.setLatches { s.next.latches with aluo := some ⟨ins, v⟩ }) ∧
      v.toInt = (ins.v1.toInt + imm.toInt).bmod (2 ^ 32)) ∧
    (∃ v : Word, exec (.andi rd ra imm) s = .next (s.setLatches { s.next.latches with aluo := some ⟨ins, v⟩ }) ∧
      ∀ n, v.getLsbD n = (decide (n < 16) && ins.v1.getLsbD n && imm.getLsbD n)) ∧
    (∃ v : Word, exec (.ori rd ra imm) s = .next (s.setLatches { s.next.latches with aluo := some ⟨ins, v⟩ }) ∧
      ∀ n, v.getLsbD n = if n < 16 then ins.v1.getLsbD n || imm.getLsbD n else ins.v1.getLsbD n)

/-- R161, R162: MFHI and MFLO read HI or LO alone, capture it from the current generation at issue, and have it as their
result for `x[rd]` in ALU1, unchanged (GeneralWriteback writes it). -/
def Obligations.MovesFromHiLo : Prop :=
  ∀ (rd : Reg) (s : State) (ins : Rec),
    (s.capture (.mfhi rd) ins).v1 = s.cur.regs.hi ∧ (s.capture (.mflo rd) ins).v1 = s.cur.regs.lo ∧
    (s.work.station = .alu1 ins →
      exec (.mfhi rd) s = .next (s.setLatches { s.next.latches with aluo := some ⟨ins, ins.v1⟩ }) ∧
      exec (.mflo rd) s = .next (s.setLatches { s.next.latches with aluo := some ⟨ins, ins.v1⟩ })) ∧
    opcodeBits (.mfhi rd) = 0b100000#6 ∧ opcodeBits (.mflo rd) = 0b100001#6 ∧
    readsOf (.mfhi rd) = [.hi] ∧ readsOf (.mflo rd) = [.lo] ∧
    destOf (.mfhi rd) = .gpr rd ∧ destOf (.mflo rd) = .gpr rd

/-- R262: ALU2 puts base plus sign-extended offset, modulo `2^32`, into `LSA` for SW and LW alike; it checks nothing and
faults never. -/
def Obligations.EffectiveAddress : Prop :=
  ∀ (base rt : Reg) (off : Half) (s : State) (ins : Rec), s.work.station = .alu2 ins →
    exec (.sw base rt off) s =
      .next (s.setLatches { s.next.latches with lsa := some ⟨ins, ins.v1 + off.signExtend 32⟩ }) ∧
    exec (.lw base rt off) s =
      .next (s.setLatches { s.next.latches with lsa := some ⟨ins, ins.v1 + off.signExtend 32⟩ })

/-- R42, R112 (decision D22: unsigned comparisons): LW in the MEM unit reads the word of the current generation into
`MEMO`, whatever segment it lies in, or faults on a misaligned or absent address. Memory and every other latch are
unchanged. -/
def Obligations.LoadAccess : Prop :=
  ∀ (base rt : Reg) (off : Half) (s : State) (ins : Rec) (ea : Word), s.work.station = .mem ins ea →
    (ea.toNat % 4 = 0 → 256 ≤ ea.toNat → ea.toNat < s.setup.maxAddr →
      exec (.lw base rt off) s =
        .next (s.setLatches { s.next.latches with memo := some ⟨ins, s.cur.mem.get ea.toNat⟩ })) ∧
    (ea.toNat % 4 ≠ 0 ∨ ea.toNat < 256 ∨ s.setup.maxAddr ≤ ea.toNat →
      exec (.lw base rt off) s = .fault (.memAddress ea))

/-- R43, R111 (decision D22: the code test comes first): SW in the MEM unit writes the captured value at its address in
the next generation and no other word, or faults: below `DATA_START` always, else on a misaligned or absent address. -/
def Obligations.StoreAccess : Prop :=
  ∀ (base rt : Reg) (off : Half) (s : State) (ins : Rec) (ea : Word),
    s.work.station = .mem ins ea → s.next.mem.wf = true →
    (s.setup.dataStart ≤ ea.toNat → ea.toNat % 4 = 0 → ea.toNat < s.setup.maxAddr →
      ∃ m : Memory, exec (.sw base rt off) s = .next { s with next := { s.next with mem := m } } ∧ m.wf = true ∧
        ∀ a, m.get a = if a = ea.toNat then ins.v2 else s.next.mem.get a) ∧
    (ea.toNat < s.setup.dataStart → exec (.sw base rt off) s = .fault (.storeToCode ea)) ∧
    (s.setup.dataStart ≤ ea.toNat → ea.toNat % 4 ≠ 0 ∨ s.setup.maxAddr ≤ ea.toNat →
      exec (.sw base rt off) s = .fault (.memAddress ea))

/-- R265: MUL1 puts the exact signed product of the captured operands, as one 64-bit number in two halves, into `MUL1O`;
it faults never. -/
def Obligations.ExactProduct : Prop :=
  ∀ (ra rb : Reg) (s : State) (ins : Rec), s.work.station = .mul1 ins →
    ∃ hi lo : Word, exec (.mult ra rb) s = .next (s.setLatches { s.next.latches with mul1o := some ⟨ins, hi, lo⟩ }) ∧
      (hi ++ lo).toInt = ins.v1.toInt * ins.v2.toInt

/-- R266, R267: MUL2 and MUL3 pass their input latch on, whole, full or empty, computing nothing. -/
def Obligations.MultiplierPassesOn : Prop :=
  (∀ (ra rb : Reg) (s : State) (ins : Rec) (hi lo : Word), s.work.station = .mul2 ins hi lo →
    exec (.mult ra rb) s = .next (s.setLatches { s.next.latches with mul2o := some ⟨ins, hi, lo⟩ })) ∧
  (∀ (ra rb : Reg) (s : State) (ins : Rec) (hi lo : Word), s.work.station = .mul3 ins hi lo →
    exec (.mult ra rb) s = .next (s.setLatches { s.next.latches with mul3o := some ⟨ins, hi, lo⟩ })) ∧
  ∀ s t : State, s.cur.KindsOk → cycle s = .next t →
    t.cur.latches.mul2o = s.cur.latches.mul1o ∧ t.cur.latches.mul3o = s.cur.latches.mul2o

/-- R152, R264 (decision D10 for the one overflow): the DIV unit puts quotient and remainder into `DIVO`: dividend =
quotient * divisor + remainder, the remainder smaller than the divisor and of the dividend's sign; `-2^31 / -1` gives
`0x80000000` and 0, with no fault. -/
def Obligations.QuotientAndRemainder : Prop :=
  ∀ (ra rb : Reg) (s : State) (ins : Rec), s.work.station = .div ins → ins.v2 ≠ 0#32 →
    ∃ hi lo : Word, exec (.div ra rb) s = .next (s.setLatches { s.next.latches with divo := some ⟨ins, hi, lo⟩ }) ∧
      (ins.v1 = 0x80000000#32 ∧ ins.v2 = 0xFFFFFFFF#32 → lo = 0x80000000#32 ∧ hi = 0#32) ∧
      (¬(ins.v1 = 0x80000000#32 ∧ ins.v2 = 0xFFFFFFFF#32) →
        ins.v1.toInt = lo.toInt * ins.v2.toInt + hi.toInt ∧ hi.toInt.natAbs < ins.v2.toInt.natAbs ∧
        (0 < hi.toInt → 0 < ins.v1.toInt) ∧ (hi.toInt < 0 → ins.v1.toInt < 0))

/-- R304: a DIV faults in the DIV unit exactly when its captured divisor is 0, and the fault records its address. -/
def Obligations.ZeroDivisorFaults : Prop :=
  ∀ (ra rb : Reg) (s : State) (ins : Rec), s.work.station = .div ins →
    (ins.v2 = 0#32 → exec (.div ra rb) s = .fault (.divideByZero ins.addr)) ∧
    (ins.v2 ≠ 0#32 → ∃ t, exec (.div ra rb) s = .next t)

/-- R305: a record that is not one of the eleven generic kinds in ALU1, or neither LW nor SW in MEM, raises the internal
fault; where every record stands where its kind can stand, no cycle raises it. -/
def Obligations.InternalFaultUnreachable : Prop :=
  (∀ (i : Instr) (s : State) (ins : Rec),
    s.work.station = .alu1 ins → queueOf i ≠ some .alu → exec i s = .fault .internal) ∧
  (∀ (i : Instr) (s : State) (ins : Rec) (ea : Word),
    s.work.station = .mem ins ea → queueOf i ≠ some .ls → exec i s = .fault .internal) ∧
  ∀ s : State, s.cur.KindsOk → cycle s ≠ .fault .internal

/-! ### Writeback -/

/-- R281, R282: writeback of the eleven generic kinds (ADD, SUB, AND, OR, SRL, SRA, ADDI, ANDI, ORI, MFHI, MFLO) from
`ALUO`, and of LW from `MEMO`: the destination takes the
value and its flag clears; every other register and flag is unchanged, and so is all else. -/
def Obligations.GeneralWriteback : Prop :=
  ∀ (i : Instr) (rd : Reg) (s : State) (ins : Rec) (v : Word), destOf i = .gpr rd →
    (queueOf i = some .alu ∧ s.work.station = .wbAlu ins v) ∨ (isLoad i = true ∧ s.work.station = .wbMem ins v) →
    ∃ t, exec i s = .next t ∧ t.next.regs.x[rd] = v ∧ (∀ j : Reg, j ≠ rd → t.next.regs.x[j] = s.next.regs.x[j]) ∧
      t.next.regs.hi = s.next.regs.hi ∧ t.next.regs.lo = s.next.regs.lo ∧
      t.next.aw.flag (.x rd) = false ∧ (∀ r, r ≠ .x rd → t.next.aw.flag r = s.next.aw.flag r) ∧
      t = { s with next := { s.next with regs := t.next.regs, aw := t.next.aw } }

/-- R283, R284: writeback of DIV from `DIVO` and of MULT from `MUL3O`: HI and LO take their values and both flags clear,
in the same generation; no general register and no other flag changes, and nothing else. -/
def Obligations.PairWriteback : Prop :=
  ∀ (ra rb : Reg) (s : State) (ins : Rec) (hi lo : Word) (i : Instr),
    (i = .div ra rb ∧ s.work.station = .wbDiv ins hi lo) ∨
      (i = .mult ra rb ∧ s.work.station = .wbMul ins hi lo) →
    ∃ t, exec i s = .next t ∧ t.next.regs = { s.next.regs with hi := hi, lo := lo } ∧
      t.next.aw.flag .hi = false ∧ t.next.aw.flag .lo = false ∧
      (∀ k : Reg, t.next.aw.flag (.x k) = s.next.aw.flag (.x k)) ∧
      t = { s with next := { s.next with regs := t.next.regs, aw := t.next.aw } }

/-- R280 to R285 (decision D26 for the order): the only register writes of a cycle. A general register takes the value of
the full latch `MEMO` or else `ALUO` whose record names it; HI and LO take the pair of `MUL3O` or else `DIVO`; every
other register keeps its value. -/
def Obligations.RegistersAfterCycle : Prop :=
  ∀ s t : State, s.cur.KindsOk → cycle s = .next t →
    (∀ j : Reg,
      (∀ l, s.cur.latches.memo = some l → destOf l.ins.instr = .gpr j → t.cur.regs.x[j] = l.value) ∧
      ((∀ l, s.cur.latches.memo = some l → destOf l.ins.instr ≠ .gpr j) →
        (∀ l, s.cur.latches.aluo = some l → destOf l.ins.instr = .gpr j → t.cur.regs.x[j] = l.value) ∧
        ((∀ l, s.cur.latches.aluo = some l → destOf l.ins.instr ≠ .gpr j) →
          t.cur.regs.x[j] = s.cur.regs.x[j]))) ∧
    (∀ l, s.cur.latches.mul3o = some l → t.cur.regs.hi = l.hi ∧ t.cur.regs.lo = l.lo) ∧
    (s.cur.latches.mul3o = none →
      (∀ l, s.cur.latches.divo = some l → t.cur.regs.hi = l.hi ∧ t.cur.regs.lo = l.lo) ∧
      (s.cur.latches.divo = none → t.cur.regs.hi = s.cur.regs.hi ∧ t.cur.regs.lo = s.cur.regs.lo))

/-- R263, R50 (decision D19): the only memory write of a cycle is that of an SW in `LSA`, at the address `LSA` holds,
with the value captured at issue; every other word keeps its value. -/
def Obligations.MemoryAfterCycle : Prop :=
  ∀ s t : State, s.cur.KindsOk → s.cur.mem.wf = true → cycle s = .next t →
    (∀ l a, s.cur.latches.lsa = some l → isStore l.ins.instr = true →
      t.cur.mem.get a = if a = l.value.toNat then l.ins.v2 else s.cur.mem.get a) ∧
    ((∀ l, s.cur.latches.lsa = some l → isStore l.ins.instr = false) → t.cur.mem = s.cur.mem)

/-! ### The cycle and the run -/

/-- The cycle that presents each record to its instruction's meaning computes exactly the transition function of R291,
transcribed apart (Machine/Reference.lean): the same next generation, or the same fault. It rests on the spec's
decisions D6 to D26 (window order D11, termination D12 and `pc` D13 among them) and D31 to D34 (the fetch loop D32), which
are in both; notes/assumptions/1.md says how the model's form differs. -/
def Obligations.CycleIsTransitionFunction : Prop :=
  ∀ s : State, s.cur.KindsOk →
    cycle s = match Reference.cycle s.setup s.cur with
      | .ok g => .next { s with
          cur := g
          next := g
          work := Work.fresh
          cycles := s.cycles + 1
          status := if g.fetch.haltReq && !g.inFlight then .halted else s.status }
      | .error f => .fault f

/-- From R292: a cycle that did not fault adopts the generation that its thirteen stages built, whole, and the cycle count
is one more; the run's parameters do not change. That `next` then rests as a copy of `cur`, and that nothing of the cycle
in progress is left, is the model's convention (notes/assumptions/1.md). -/
def Obligations.SwapIsWhole : Prop :=
  ∀ s t : State, cycle s = .next t →
    (∃ u, runStages stages s.openCycle = .next u ∧ t.cur = u.nextGen) ∧
      t.next = t.cur ∧ t.work = Work.fresh ∧ t.cycles = s.cycles + 1 ∧ t.setup = s.setup ∧
      (s.status = .running → step s = .next t)

/-- R294, R306 (decision D20): a cycle that faults changes the status and nothing else; from then on no cycle runs
(notes/assumptions/3.md: a step of a faulted machine answers its fault, a step of a halted one changes nothing). -/
def Obligations.FaultAbandonsCycle : Prop :=
  ∀ (s : State) (f : Fault),
    (s.status = .running → cycle s = .fault f → step s = .next { s with status := .faulted f }) ∧
    (s.status = .faulted f → step s = .fault f) ∧ (s.status = .halted → step s = .next s)

/-- R307 (decision D21): of two faults in one cycle, that of fetch is reported before that of MEM, and that of MEM before
that of the DIV unit. -/
def Obligations.FaultPriority : Prop :=
  ∀ (s : State) (f : Fault), (fetchStage s.openCycle = .fault f → cycle s = .fault f) ∧
    ((∃ u, fetchStage s.openCycle = .next u) → memStage s.openCycle = .fault f → cycle s = .fault f) ∧
    ((∃ u, fetchStage s.openCycle = .next u) → (∃ u, memStage s.openCycle = .next u) →
      divStage s.openCycle = .fault f → cycle s = .fault f)

/-- R293 (decision D12): a running machine halts after exactly the cycles that leave the halt requested and the window,
the four queues, the seven latches and the stalled slot empty. -/
def Obligations.HaltsWhenDrained : Prop :=
  ∀ s t : State, s.status = .running → cycle s = .next t →
    (t.status = .halted ∨ t.status = .running) ∧
    (t.status = .halted ↔ t.cur.fetch.haltReq = true ∧ t.cur.fw = [] ∧ t.cur.queues = Queues.empty ∧
      t.cur.latches = Latches.empty ∧ t.cur.fetch.stalled = none)

/-- R295: with `pc` out of range and the pipeline drained the machine is at a fixed point: a cycle counts and changes
nothing else. -/
def Obligations.OutOfRangeFixedPoint : Prop :=
  ∀ s : State, s.settled → s.status = .running → s.setup.inRange s.cur.fetch.pc = false → s.cur.fetch.haltReq = false →
    s.cur.inFlight = false → step s = .next { s with cycles := s.cycles + 1 }

/-! ### Reset and the image -/

/-- R27 (decision D1 for all but `pc` and the empty queues; notes/assumptions/5.md: no image is loaded yet): the state
right after reset. -/
def Obligations.ResetValues : Prop :=
  State.reset.cur.fetch.pc = 256#32 ∧ State.reset.cur.fetch.stalled = none ∧ State.reset.cur.fetch.resolved = none ∧
    State.reset.cur.fetch.haltReq = false ∧ State.reset.cur.fw = [] ∧ State.reset.cur.queues = Queues.empty ∧
    State.reset.cur.latches = Latches.empty ∧ (∀ j : Reg, State.reset.cur.regs.x[j] = 0#32) ∧
    State.reset.cur.regs.hi = 0#32 ∧ State.reset.cur.regs.lo = 0#32 ∧
    (∀ r, State.reset.cur.aw.flag r = false) ∧ State.reset.status = .running ∧ State.reset.cycles = 0

/-- R330, R41 (decisions D1, D4, D5): loading an image that meets R5 gives the reset state with word k at `256 + 4*k`,
`MAX_ADDR` after the last word, and `DATA_START` after the first word equal to `BREAK_WORD`, or at `MAX_ADDR` if there is
none; any other image is refused. -/
def Obligations.LoadedImage : Prop :=
  ∀ (image : List Word) (waw : Bool), (imageOk image = false → State.load image waw = .refused .badImage) ∧
    (imageOk image = true → ∃ s, State.load image waw = .next s ∧ s.settled ∧
      s.cur = { Gen.reset with mem := s.cur.mem } ∧ s.cur.mem.wf = true ∧ s.status = .running ∧ s.cycles = 0 ∧
      (∀ k (h : k < image.length), s.cur.mem.get (256 + 4 * k) = image[k]) ∧
      s.setup.maxAddr = 256 + 4 * image.length ∧ s.setup.wawCheck = waw ∧
      (∀ k (h : k < image.length), image[k] = 0x18000000#32 → 0x18000000#32 ∉ image.take k →
        s.setup.dataStart = 256 + 4 * (k + 1)) ∧
      (0x18000000#32 ∉ image → s.setup.dataStart = s.setup.maxAddr))

/-- R51: character j of a word's line is bit `31 - j`; an image comes back from its lines bit for bit; a malformed line
is one that is not exactly 32 characters of 0 and 1, and a text with one gives no image. -/
def Obligations.ImageText : Prop :=
  (∀ (w : Word) j, j < 32 → (lineOfWord w)[j]? = some (if w.getLsbD (31 - j) then '1' else '0')) ∧
  (∀ image : List Word, imageOfText (image.map lineOfWord) = some image) ∧
  (∀ line : List Char, (wordOfLine line).isSome = true ↔ line.length = 32 ∧ ∀ c ∈ line, c = '0' ∨ c = '1') ∧
  ∀ lines : List (List Char), (∃ line ∈ lines, wordOfLine line = none) → imageOfText lines = none

/-! ### Invariants -/

/-- R28, R208, R15, R24, R5: the state after reset meets every clause of the invariant, and so does the state after
loading any image that meets R5. -/
def Obligations.InvariantAtStart : Prop :=
  State.reset.Inv ∧ ∀ image waw s, State.load image waw = .next s → s.Inv

/-- R28 (a) to (g), R208, R15, R24: every step keeps the invariant: capacities, alignment of `pc`, every record where its
kind can stand, with an address and the instruction of its word, one writer in flight for each flag that is set and none
for each that is clear, HI and LO awaiting together, no stalled branch beside a halt request, memory in its canonical
form inside the array. -/
def Obligations.EveryStepKeepsInvariant : Prop :=
  ∀ s t : State, s.Inv → step s = .next t → t.Inv

/-- R208: the scoreboard is exact after every cycle if it was before, wherever records stand where their kinds can
stand: a flag is set exactly when one issued record writes its register. -/
def Obligations.ScoreboardStaysExact : Prop :=
  ∀ s t : State, s.cur.KindsOk → s.cur.scoreboardOk → cycle s = .next t → t.cur.scoreboardOk

/-- R43, R50: no run changes a word of the code segment. -/
def Obligations.CodeSegmentNeverWritten : Prop :=
  ∀ s t : State, s.Inv → Reaches s t → t.setup = s.setup ∧
    ∀ a, a < s.setup.dataStart → t.cur.mem.get a = s.cur.mem.get a

/-! ### Latencies and the order of memory -/

/-- R338: the head of `ALUQ` at the start of a cycle is written back in the next one. After the first cycle its
destination is still awaiting; after the second it holds the result and awaits no more. -/
def Obligations.AluLatency : Prop :=
  ∀ (s : State) (b : Rec) (bs : List Rec) (rd : Reg) (v : Word),
    s.Inv → s.cur.queues.alu = b :: bs → destOf b.instr = .gpr rd →
    aluResult b.instr b.v1 b.v2 = some v →
    (∀ u, Cycles 1 s u → u.cur.aw.flag (.x rd) = true) ∧
    ∀ t, Cycles 2 s t → t.cur.regs.x[rd] = v ∧ t.cur.aw.flag (.x rd) = false

/-- R338: the head of `LSQ`, an LW, reads memory one cycle after its address is computed and is written back in the
third. -/
def Obligations.LoadLatency : Prop :=
  ∀ (s : State) (b : Rec) (bs : List Rec) (base rt : Reg) (off : Half),
    s.Inv → s.cur.queues.ls = b :: bs → b.instr = .lw base rt off →
    (∀ u, Cycles 2 s u → u.cur.aw.flag (.x rt) = true) ∧
    ∀ u t, Cycles 1 s u → Cycles 2 u t →
      t.cur.regs.x[rt] = u.cur.mem.get (b.v1 + off.signExtend 32).toNat ∧ t.cur.aw.flag (.x rt) = false

/-- R338: the head of `LSQ`, an SW, is in memory after two cycles, and changes no other word in the second. -/
def Obligations.StoreLatency : Prop :=
  ∀ (s : State) (b : Rec) (bs : List Rec) (base rt : Reg) (off : Half),
    s.Inv → s.cur.queues.ls = b :: bs → b.instr = .sw base rt off →
    ∀ u t, Cycles 1 s u → Cycles 1 u t →
      ∀ a, t.cur.mem.get a = if a = (b.v1 + off.signExtend 32).toNat then b.v2 else u.cur.mem.get a

/-- R338, R339: the head of `MULQ` is in HI and LO after four cycles, as the exact signed product; HI and LO are awaiting
until then, so that no MFHI or MFLO can issue in the three cycles before. -/
def Obligations.MultiplyLatency : Prop :=
  ∀ (s : State) (b : Rec) (bs : List Rec), s.Inv → s.cur.queues.mul = b :: bs →
    (∀ (n : Nat) (u : State), n ≤ 3 → Cycles n s u → u.cur.aw.hi = true ∧ u.cur.aw.lo = true ∧
      ∀ (rd : Reg) (w : State) (k : QueueId), w.work = Work.fresh → w.cur = u.cur →
        w.canIssue (.mfhi rd) k = false ∧ w.canIssue (.mflo rd) k = false) ∧
    ∀ t, Cycles 4 s t → (t.cur.regs.hi ++ t.cur.regs.lo).toInt = b.v1.toInt * b.v2.toInt ∧
      t.cur.aw.hi = false ∧ t.cur.aw.lo = false

/-- R338, R152: the head of `DIVQ` is in HI and LO after two cycles; the divisor was not 0, or the first of them would
have faulted. -/
def Obligations.DivideLatency : Prop :=
  ∀ (s : State) (b : Rec) (bs : List Rec), s.Inv → s.cur.queues.div = b :: bs →
    (∀ u, Cycles 1 s u → b.v2 ≠ 0#32 ∧ u.cur.aw.hi = true ∧ u.cur.aw.lo = true) ∧
    ∀ t, Cycles 2 s t → t.cur.regs.hi = remainder b.v1 b.v2 ∧ t.cur.regs.lo = quotient b.v1 b.v2 ∧
      t.cur.aw.hi = false ∧ t.cur.aw.lo = false

/-- R48, R340: a load behind a store of the same address in `LSQ` loads what the store stores: four cycles later its
register holds the value the store captured. -/
def Obligations.LoadSeesOlderStore : Prop :=
  ∀ (s : State) (b c : Rec) (bs : List Rec) (base rt base' rt' : Reg) (off off' : Half),
    s.Inv → s.cur.queues.ls = b :: c :: bs → b.instr = .sw base rt off →
    c.instr = .lw base' rt' off' → b.v1 + off.signExtend 32 = c.v1 + off'.signExtend 32 →
    ∀ t, Cycles 4 s t → t.cur.regs.x[rt'] = b.v2

end
end

