-- ==== Sys2Proof/Laws/Encode.lean ====
section
/-! SUPPORT. Packed words read back field by field: the category, the opcode, and every field below them. -/

namespace Sys2Proof.Machine

/-- A packed word as a number. -/
theorem packWord_toNat (cat op rest : Nat) (h1 : cat < 8) (h2 : op < 8) (h3 : rest < 2 ^ 26) :
    (packWord cat op rest).toNat = (cat * 8 + op) * 2 ^ 26 + rest := by
  have e : cat * 2 ^ 29 + op * 2 ^ 26 + rest = (cat * 8 + op) * 2 ^ 26 + rest := by ring
  rw [packWord, BitVec.toNat_ofNat, e, Nat.mod_eq_of_lt]
  calc (cat * 8 + op) * 2 ^ 26 + rest < (cat * 8 + op) * 2 ^ 26 + 2 ^ 26 := by omega
    _ = (cat * 8 + op + 1) * 2 ^ 26 := by ring
    _ ≤ 64 * 2 ^ 26 := Nat.mul_le_mul_right _ (by omega)

/-- `w[31:26]` of a packed word. -/
theorem packWord_opcode (cat op rest : Nat) (h1 : cat < 8) (h2 : op < 8) (h3 : rest < 2 ^ 26) :
    (packWord cat op rest).extractLsb' 26 6 = BitVec.ofNat 6 (cat * 8 + op) := by
  apply BitVec.eq_of_toNat_eq
  rw [BitVec.extractLsb'_toNat, packWord_toNat _ _ _ h1 h2 h3, BitVec.toNat_ofNat, Nat.shiftRight_eq_div_pow,
    Nat.mul_comm, Nat.mul_add_div (by positivity), Nat.div_eq_of_lt h3, Nat.add_zero]

theorem packI_lt (a b : Reg) (h : Half) : packI a b h < 2 ^ 26 := by
  unfold packI
  have := a.isLt
  have := b.isLt
  have := h.isLt
  omega

theorem packR_lt (a b c : Reg) : packR a b c < 2 ^ 26 := by
  unfold packR
  have := a.isLt
  have := b.isLt
  have := c.isLt
  omega

/-- A field below bit 26 of a packed word. -/
theorem packWord_field (c o r lo len : Nat) (h1 : c < 8) (h2 : o < 8) (h3 : r < 2 ^ 26) (h4 : lo + len ≤ 26) :
    ((packWord c o r).extractLsb' lo len).toNat = r / 2 ^ lo % 2 ^ len := by
  rw [BitVec.extractLsb'_toNat, packWord_toNat _ _ _ h1 h2 h3, Nat.shiftRight_eq_div_pow]
  have e : (c * 8 + o) * 2 ^ 26 + r = 2 ^ lo * (2 ^ len * ((c * 8 + o) * 2 ^ (26 - lo - len))) + r := by
    rw [show (2 : Nat) ^ 26 = 2 ^ lo * (2 ^ len * 2 ^ (26 - lo - len)) by rw [← pow_add, ← pow_add]; congr 1; omega]
    ring
  rw [e, Nat.mul_add_div (by positivity), Nat.mul_add_mod]

theorem packWord_cat (c o r : Nat) (h1 : c < 8) (h2 : o < 8) (h3 : r < 2 ^ 26) : catField (packWord c o r) = c := by
  rw [catField, BitVec.extractLsb'_toNat, packWord_toNat _ _ _ h1 h2 h3, Nat.shiftRight_eq_div_pow,
    show (2 : Nat) ^ 29 = 2 ^ 26 * 8 by norm_num, ← Nat.div_div_eq_div_mul, Nat.mul_comm _ (2 ^ 26),
    Nat.mul_add_div (by positivity), Nat.div_eq_of_lt h3]
  norm_num
  omega

theorem packWord_op (c o r : Nat) (h1 : c < 8) (h2 : o < 8) (h3 : r < 2 ^ 26) : opField (packWord c o r) = o := by
  rw [opField, BitVec.extractLsb'_toNat, packWord_toNat _ _ _ h1 h2 h3, Nat.shiftRight_eq_div_pow,
    Nat.mul_comm _ (2 ^ 26), Nat.mul_add_div (by positivity), Nat.div_eq_of_lt h3]
  norm_num
  omega

end Sys2Proof.Machine
end

