-- ==== Sys2Proof/Laws/State.lean ====
section
/-! SUPPORT. One lemma per field per update of the state (Machine/Ops.lean), each true by rfl, so that no later proof
unfolds a record update. -/

namespace Sys2Proof.Machine

/-! ### `setFetch` -/

@[simp] theorem State.setFetch_cur (s : State) (r : FetchRegs) : (s.setFetch r).cur = s.cur := rfl
@[simp] theorem State.setFetch_next_fetch (s : State) (r : FetchRegs) : (s.setFetch r).next.fetch = r := rfl
@[simp] theorem State.setFetch_next_fw (s : State) (r : FetchRegs) : (s.setFetch r).next.fw = s.next.fw := rfl
@[simp] theorem State.setFetch_next_queues (s : State) (r : FetchRegs) : (s.setFetch r).next.queues = s.next.queues := rfl
@[simp] theorem State.setFetch_next_latches (s : State) (r : FetchRegs) : (s.setFetch r).next.latches = s.next.latches := rfl
@[simp] theorem State.setFetch_next_regs (s : State) (r : FetchRegs) : (s.setFetch r).next.regs = s.next.regs := rfl
@[simp] theorem State.setFetch_next_aw (s : State) (r : FetchRegs) : (s.setFetch r).next.aw = s.next.aw := rfl
@[simp] theorem State.setFetch_next_mem (s : State) (r : FetchRegs) : (s.setFetch r).next.mem = s.next.mem := rfl
@[simp] theorem State.setFetch_work (s : State) (r : FetchRegs) : (s.setFetch r).work = s.work := rfl
@[simp] theorem State.setFetch_status (s : State) (r : FetchRegs) : (s.setFetch r).status = s.status := rfl
@[simp] theorem State.setFetch_cycles (s : State) (r : FetchRegs) : (s.setFetch r).cycles = s.cycles := rfl
@[simp] theorem State.setFetch_setup (s : State) (r : FetchRegs) : (s.setFetch r).setup = s.setup := rfl

/-! ### `setLatches` -/

@[simp] theorem State.setLatches_cur (s : State) (l : Latches) : (s.setLatches l).cur = s.cur := rfl
@[simp] theorem State.setLatches_next_fetch (s : State) (l : Latches) : (s.setLatches l).next.fetch = s.next.fetch := rfl
@[simp] theorem State.setLatches_next_fw (s : State) (l : Latches) : (s.setLatches l).next.fw = s.next.fw := rfl
@[simp] theorem State.setLatches_next_queues (s : State) (l : Latches) : (s.setLatches l).next.queues = s.next.queues := rfl
@[simp] theorem State.setLatches_next_latches (s : State) (l : Latches) : (s.setLatches l).next.latches = l := rfl
@[simp] theorem State.setLatches_next_regs (s : State) (l : Latches) : (s.setLatches l).next.regs = s.next.regs := rfl
@[simp] theorem State.setLatches_next_aw (s : State) (l : Latches) : (s.setLatches l).next.aw = s.next.aw := rfl
@[simp] theorem State.setLatches_next_mem (s : State) (l : Latches) : (s.setLatches l).next.mem = s.next.mem := rfl
@[simp] theorem State.setLatches_work (s : State) (l : Latches) : (s.setLatches l).work = s.work := rfl
@[simp] theorem State.setLatches_status (s : State) (l : Latches) : (s.setLatches l).status = s.status := rfl
@[simp] theorem State.setLatches_cycles (s : State) (l : Latches) : (s.setLatches l).cycles = s.cycles := rfl
@[simp] theorem State.setLatches_setup (s : State) (l : Latches) : (s.setLatches l).setup = s.setup := rfl

/-! ### `setRegs` -/

@[simp] theorem State.setRegs_cur (s : State) (r : RegFile) : (s.setRegs r).cur = s.cur := rfl
@[simp] theorem State.setRegs_next_fetch (s : State) (r : RegFile) : (s.setRegs r).next.fetch = s.next.fetch := rfl
@[simp] theorem State.setRegs_next_fw (s : State) (r : RegFile) : (s.setRegs r).next.fw = s.next.fw := rfl
@[simp] theorem State.setRegs_next_queues (s : State) (r : RegFile) : (s.setRegs r).next.queues = s.next.queues := rfl
@[simp] theorem State.setRegs_next_latches (s : State) (r : RegFile) : (s.setRegs r).next.latches = s.next.latches := rfl
@[simp] theorem State.setRegs_next_regs (s : State) (r : RegFile) : (s.setRegs r).next.regs = r := rfl
@[simp] theorem State.setRegs_next_aw (s : State) (r : RegFile) : (s.setRegs r).next.aw = s.next.aw := rfl
@[simp] theorem State.setRegs_next_mem (s : State) (r : RegFile) : (s.setRegs r).next.mem = s.next.mem := rfl
@[simp] theorem State.setRegs_work (s : State) (r : RegFile) : (s.setRegs r).work = s.work := rfl
@[simp] theorem State.setRegs_status (s : State) (r : RegFile) : (s.setRegs r).status = s.status := rfl
@[simp] theorem State.setRegs_cycles (s : State) (r : RegFile) : (s.setRegs r).cycles = s.cycles := rfl
@[simp] theorem State.setRegs_setup (s : State) (r : RegFile) : (s.setRegs r).setup = s.setup := rfl

/-! ### `setAw` -/

@[simp] theorem State.setAw_cur (s : State) (b : Scoreboard) : (s.setAw b).cur = s.cur := rfl
@[simp] theorem State.setAw_next_fetch (s : State) (b : Scoreboard) : (s.setAw b).next.fetch = s.next.fetch := rfl
@[simp] theorem State.setAw_next_fw (s : State) (b : Scoreboard) : (s.setAw b).next.fw = s.next.fw := rfl
@[simp] theorem State.setAw_next_queues (s : State) (b : Scoreboard) : (s.setAw b).next.queues = s.next.queues := rfl
@[simp] theorem State.setAw_next_latches (s : State) (b : Scoreboard) : (s.setAw b).next.latches = s.next.latches := rfl
@[simp] theorem State.setAw_next_regs (s : State) (b : Scoreboard) : (s.setAw b).next.regs = s.next.regs := rfl
@[simp] theorem State.setAw_next_aw (s : State) (b : Scoreboard) : (s.setAw b).next.aw = b := rfl
@[simp] theorem State.setAw_next_mem (s : State) (b : Scoreboard) : (s.setAw b).next.mem = s.next.mem := rfl
@[simp] theorem State.setAw_work (s : State) (b : Scoreboard) : (s.setAw b).work = s.work := rfl
@[simp] theorem State.setAw_status (s : State) (b : Scoreboard) : (s.setAw b).status = s.status := rfl
@[simp] theorem State.setAw_cycles (s : State) (b : Scoreboard) : (s.setAw b).cycles = s.cycles := rfl
@[simp] theorem State.setAw_setup (s : State) (b : Scoreboard) : (s.setAw b).setup = s.setup := rfl

/-! ### `setMem` -/

@[simp] theorem State.setMem_cur (s : State) (m : Memory) : (s.setMem m).cur = s.cur := rfl
@[simp] theorem State.setMem_next_fetch (s : State) (m : Memory) : (s.setMem m).next.fetch = s.next.fetch := rfl
@[simp] theorem State.setMem_next_fw (s : State) (m : Memory) : (s.setMem m).next.fw = s.next.fw := rfl
@[simp] theorem State.setMem_next_queues (s : State) (m : Memory) : (s.setMem m).next.queues = s.next.queues := rfl
@[simp] theorem State.setMem_next_latches (s : State) (m : Memory) : (s.setMem m).next.latches = s.next.latches := rfl
@[simp] theorem State.setMem_next_regs (s : State) (m : Memory) : (s.setMem m).next.regs = s.next.regs := rfl
@[simp] theorem State.setMem_next_aw (s : State) (m : Memory) : (s.setMem m).next.aw = s.next.aw := rfl
@[simp] theorem State.setMem_next_mem (s : State) (m : Memory) : (s.setMem m).next.mem = m := rfl
@[simp] theorem State.setMem_work (s : State) (m : Memory) : (s.setMem m).work = s.work := rfl
@[simp] theorem State.setMem_status (s : State) (m : Memory) : (s.setMem m).status = s.status := rfl
@[simp] theorem State.setMem_cycles (s : State) (m : Memory) : (s.setMem m).cycles = s.cycles := rfl
@[simp] theorem State.setMem_setup (s : State) (m : Memory) : (s.setMem m).setup = s.setup := rfl

/-! ### `setWork` -/

@[simp] theorem State.setWork_cur (s : State) (w : Work) : (s.setWork w).cur = s.cur := rfl
@[simp] theorem State.setWork_next_fetch (s : State) (w : Work) : (s.setWork w).next.fetch = s.next.fetch := rfl
@[simp] theorem State.setWork_next_fw (s : State) (w : Work) : (s.setWork w).next.fw = s.next.fw := rfl
@[simp] theorem State.setWork_next_queues (s : State) (w : Work) : (s.setWork w).next.queues = s.next.queues := rfl
@[simp] theorem State.setWork_next_latches (s : State) (w : Work) : (s.setWork w).next.latches = s.next.latches := rfl
@[simp] theorem State.setWork_next_regs (s : State) (w : Work) : (s.setWork w).next.regs = s.next.regs := rfl
@[simp] theorem State.setWork_next_aw (s : State) (w : Work) : (s.setWork w).next.aw = s.next.aw := rfl
@[simp] theorem State.setWork_next_mem (s : State) (w : Work) : (s.setWork w).next.mem = s.next.mem := rfl
@[simp] theorem State.setWork_work (s : State) (w : Work) : (s.setWork w).work = w := rfl
@[simp] theorem State.setWork_status (s : State) (w : Work) : (s.setWork w).status = s.status := rfl
@[simp] theorem State.setWork_cycles (s : State) (w : Work) : (s.setWork w).cycles = s.cycles := rfl
@[simp] theorem State.setWork_setup (s : State) (w : Work) : (s.setWork w).setup = s.setup := rfl
@[simp] theorem State.setWork_next (s : State) (w : Work) : (s.setWork w).next = s.next := rfl
@[simp] theorem State.setWork_setWork (s : State) (w v : Work) : (s.setWork w).setWork v = s.setWork v := rfl

/-! ### `present` -/

@[simp] theorem State.present_cur (s : State) (st : Station) : (s.present st).cur = s.cur := rfl
@[simp] theorem State.present_next (s : State) (st : Station) : (s.present st).next = s.next := rfl
@[simp] theorem State.present_status (s : State) (st : Station) : (s.present st).status = s.status := rfl
@[simp] theorem State.present_cycles (s : State) (st : Station) : (s.present st).cycles = s.cycles := rfl
@[simp] theorem State.present_setup (s : State) (st : Station) : (s.present st).setup = s.setup := rfl
@[simp] theorem State.present_work_newFw (s : State) (st : Station) : (s.present st).work.newFw = s.work.newFw := rfl
@[simp] theorem State.present_work_older (s : State) (st : Station) : (s.present st).work.older = s.work.older := rfl
@[simp] theorem State.present_work_kept (s : State) (st : Station) : (s.present st).work.kept = s.work.kept := rfl
@[simp] theorem State.present_work_marks (s : State) (st : Station) : (s.present st).work.marks = s.work.marks := rfl
@[simp] theorem State.present_work_enq (s : State) (st : Station) : (s.present st).work.enq = s.work.enq := rfl
@[simp] theorem State.present_work_station (s : State) (st : Station) : (s.present st).work.station = st := rfl

/-! ### `takeFault` -/

@[simp] theorem State.takeFault_cur (s : State) (f : Fault) : (s.takeFault f).cur = s.cur := rfl
@[simp] theorem State.takeFault_next (s : State) (f : Fault) : (s.takeFault f).next = s.next := rfl
@[simp] theorem State.takeFault_work (s : State) (f : Fault) : (s.takeFault f).work = s.work := rfl
@[simp] theorem State.takeFault_cycles (s : State) (f : Fault) : (s.takeFault f).cycles = s.cycles := rfl
@[simp] theorem State.takeFault_setup (s : State) (f : Fault) : (s.takeFault f).setup = s.setup := rfl
@[simp] theorem State.takeFault_status (s : State) (f : Fault) : (s.takeFault f).status = .faulted f := rfl

/-! ### `adopt` -/

@[simp] theorem State.adopt_cur (s : State) (g : Gen) : (s.adopt g).cur = g := rfl
@[simp] theorem State.adopt_next (s : State) (g : Gen) : (s.adopt g).next = g := rfl
@[simp] theorem State.adopt_work (s : State) (g : Gen) : (s.adopt g).work = Work.fresh := rfl
@[simp] theorem State.adopt_cycles (s : State) (g : Gen) : (s.adopt g).cycles = s.cycles + 1 := rfl
@[simp] theorem State.adopt_setup (s : State) (g : Gen) : (s.adopt g).setup = s.setup := rfl
@[simp] theorem State.adopt_status (s : State) (g : Gen) : (s.adopt g).status = if g.finished then .halted else s.status := rfl

/-! ### `openCycle` -/

@[simp] theorem State.openCycle_cur (s : State) : s.openCycle.cur = s.cur := rfl
@[simp] theorem State.openCycle_next_fetch (s : State) : s.openCycle.next.fetch = s.cur.fetch := rfl
@[simp] theorem State.openCycle_next_fw (s : State) : s.openCycle.next.fw = s.cur.fw := rfl
@[simp] theorem State.openCycle_next_queues (s : State) : s.openCycle.next.queues = s.cur.queues := rfl
@[simp] theorem State.openCycle_next_latches (s : State) : s.openCycle.next.latches = Latches.empty := rfl
@[simp] theorem State.openCycle_next_regs (s : State) : s.openCycle.next.regs = s.cur.regs := rfl
@[simp] theorem State.openCycle_next_aw (s : State) : s.openCycle.next.aw = s.cur.aw := rfl
@[simp] theorem State.openCycle_next_mem (s : State) : s.openCycle.next.mem = s.cur.mem := rfl
@[simp] theorem State.openCycle_work (s : State) : s.openCycle.work = Work.fresh := rfl
@[simp] theorem State.openCycle_status (s : State) : s.openCycle.status = s.status := rfl
@[simp] theorem State.openCycle_cycles (s : State) : s.openCycle.cycles = s.cycles := rfl
@[simp] theorem State.openCycle_setup (s : State) : s.openCycle.setup = s.setup := rfl

end Sys2Proof.Machine
end

