-- ==== Sys2Proof/Laws/Exec.lean ====
section
/-! SUPPORT. What `exec` does at each station, said once for all twenty kinds: one equation per station. Later proofs
cite these and never unfold a meaning. -/

namespace Sys2Proof.Machine

/-- The condition under which a branch is taken, on the two captured register values (R228). -/
def takenOf : Instr → Word → Word → Bool
  | .j _ => fun _ _ => true
  | .beq _ _ _ => takenEq
  | .bne _ _ _ => takenNe
  | .bgtz _ _ => fun a _ => takenGtz a
  | _ => fun _ _ => false

/-- The station `exec` looks at, for an instruction of any kind: its meaning at the fetch stage. -/
theorem exec_fetch (i : Instr) (s : State) (h : s.work.station = .fetch) :
    exec i s = .next
      (if i = .brk then s.requestHalt
       else if isBranch i then s.branchFetched i (takenOf i) (targetOf i)
       else s.enterWindow i) := by
  cases i <;>
    simp [exec, execJ, execBeq, execBne, execBgtz, execSw, execLw, execBreak, execAdd, execSub, execAnd, execOr, execSrl,
      execSra, execAddi, execAndi, execOri, execMult, execDiv, execMfhi, execMflo, branchLife, aluLife, h, isBranch,
      takenOf, targetOf]

/-- A stalled branch retried. -/
theorem exec_retry (i : Instr) (s : State) (ins : Rec) (h : s.work.station = .retry ins) :
    exec i s = if isBranch i then .next (s.branchRetried i (takenOf i) (targetOf i) ins) else .fault .internal := by
  cases i <;>
    simp [exec, execJ, execBeq, execBne, execBgtz, execSw, execLw, execBreak, execAdd, execSub, execAnd, execOr, execSrl,
      execSra, execAddi, execAndi, execOri, execMult, execDiv, execMfhi, execMflo, branchLife, aluLife, offPath, raise, h,
      isBranch, takenOf, targetOf]

/-- The issue scan's effect at a record (R240), by the kind's queue. -/
def scannedAt (i : Instr) (ins : Rec) (s : State) : State :=
  match queueOf i with
  | some k => s.tryIssue i k ins
  | none => s.keepInWindow ins

/-- The issue scan at a record. -/
theorem exec_issue (i : Instr) (s : State) (ins : Rec) (h : s.work.station = .issue ins) :
    exec i s = .next (scannedAt i ins s) := by
  cases i <;>
    simp [exec, execJ, execBeq, execBne, execBgtz, execSw, execLw, execBreak, execAdd, execSub, execAnd, execOr, execSrl,
      execSra, execAddi, execAndi, execOri, execMult, execDiv, execMfhi, execMflo, branchLife, aluLife, offPath, h, queueOf, scannedAt]

/-- ALU1: the result of R261's table, or the internal fault. -/
theorem exec_alu1 (i : Instr) (s : State) (ins : Rec) (h : s.work.station = .alu1 ins) :
    exec i s = match aluResult i ins.v1 ins.v2 with
      | some v => .next (s.putAluo ins v)
      | none => .fault .internal := by
  cases i <;>
    simp [exec, execJ, execBeq, execBne, execBgtz, execSw, execLw, execBreak, execAdd, execSub, execAnd, execOr, execSrl,
      execSra, execAddi, execAndi, execOri, execMult, execDiv, execMfhi, execMflo, branchLife, aluLife, offPath, raise, h,
      aluResult, shiftRightLogical, shiftRightArith, shiftAmount, sext16, zext16]

/-- ALU2: the address of any record. -/
theorem exec_alu2 (i : Instr) (s : State) (ins : Rec) (h : s.work.station = .alu2 ins) :
    exec i s = .next (s.putLsa ins (ins.v1 + immOf i)) := by
  cases i <;>
    simp [exec, execJ, execBeq, execBne, execBgtz, execSw, execLw, execBreak, execAdd, execSub, execAnd, execOr, execSrl,
      execSra, execAddi, execAndi, execOri, execMult, execDiv, execMfhi, execMflo, branchLife, aluLife, offPath, h, immOf]

/-- MEM: a load, a store, or the internal fault. -/
theorem exec_mem (i : Instr) (s : State) (ins : Rec) (ea : Word) (h : s.work.station = .mem ins ea) :
    exec i s = if isLoad i then s.loadFrom ins ea else if isStore i then s.storeTo ins ea else .fault .internal := by
  cases i <;>
    simp [exec, execJ, execBeq, execBne, execBgtz, execSw, execLw, execBreak, execAdd, execSub, execAnd, execOr, execSrl,
      execSra, execAddi, execAndi, execOri, execMult, execDiv, execMfhi, execMflo, branchLife, aluLife, offPath, raise, h,
      isLoad, isStore]

/-- The DIV unit. -/
theorem exec_div (i : Instr) (s : State) (ins : Rec) (h : s.work.station = .div ins) : exec i s = s.divide ins := by
  cases i <;>
    simp [exec, execJ, execBeq, execBne, execBgtz, execSw, execLw, execBreak, execAdd, execSub, execAnd, execOr, execSrl,
      execSra, execAddi, execAndi, execOri, execMult, execDiv, execMfhi, execMflo, branchLife, aluLife, offPath, h]

/-- MUL1. -/
theorem exec_mul1 (i : Instr) (s : State) (ins : Rec) (h : s.work.station = .mul1 ins) :
    exec i s = .next (s.multiply ins) := by
  cases i <;>
    simp [exec, execJ, execBeq, execBne, execBgtz, execSw, execLw, execBreak, execAdd, execSub, execAnd, execOr, execSrl,
      execSra, execAddi, execAndi, execOri, execMult, execDiv, execMfhi, execMflo, branchLife, aluLife, offPath, h]

/-- MUL2. -/
theorem exec_mul2 (i : Instr) (s : State) (ins : Rec) (hi lo : Word) (h : s.work.station = .mul2 ins hi lo) :
    exec i s = .next (s.passMul2 ins hi lo) := by
  cases i <;>
    simp [exec, execJ, execBeq, execBne, execBgtz, execSw, execLw, execBreak, execAdd, execSub, execAnd, execOr, execSrl,
      execSra, execAddi, execAndi, execOri, execMult, execDiv, execMfhi, execMflo, branchLife, aluLife, offPath, h]

/-- MUL3. -/
theorem exec_mul3 (i : Instr) (s : State) (ins : Rec) (hi lo : Word) (h : s.work.station = .mul3 ins hi lo) :
    exec i s = .next (s.passMul3 ins hi lo) := by
  cases i <;>
    simp [exec, execJ, execBeq, execBne, execBgtz, execSw, execLw, execBreak, execAdd, execSub, execAnd, execOr, execSrl,
      execSra, execAddi, execAndi, execOri, execMult, execDiv, execMfhi, execMflo, branchLife, aluLife, offPath, h]

/-- Writeback from `ALUO`. -/
theorem exec_wbAlu (i : Instr) (s : State) (ins : Rec) (v : Word) (h : s.work.station = .wbAlu ins v) :
    exec i s = s.rfSet (destOf i) v := by
  cases i <;>
    simp [exec, execJ, execBeq, execBne, execBgtz, execSw, execLw, execBreak, execAdd, execSub, execAnd, execOr, execSrl,
      execSra, execAddi, execAndi, execOri, execMult, execDiv, execMfhi, execMflo, branchLife, aluLife, offPath, h]

/-- Writeback from `MEMO`. -/
theorem exec_wbMem (i : Instr) (s : State) (ins : Rec) (v : Word) (h : s.work.station = .wbMem ins v) :
    exec i s = s.rfSet (destOf i) v := by
  cases i <;>
    simp [exec, execJ, execBeq, execBne, execBgtz, execSw, execLw, execBreak, execAdd, execSub, execAnd, execOr, execSrl,
      execSra, execAddi, execAndi, execOri, execMult, execDiv, execMfhi, execMflo, branchLife, aluLife, offPath, h, destOf]

/-- Writeback from `DIVO`. -/
theorem exec_wbDiv (i : Instr) (s : State) (ins : Rec) (hi lo : Word) (h : s.work.station = .wbDiv ins hi lo) :
    exec i s = .next (s.rfSetPair hi lo) := by
  cases i <;>
    simp [exec, execJ, execBeq, execBne, execBgtz, execSw, execLw, execBreak, execAdd, execSub, execAnd, execOr, execSrl,
      execSra, execAddi, execAndi, execOri, execMult, execDiv, execMfhi, execMflo, branchLife, aluLife, offPath, h]

/-- Writeback from `MUL3O`. -/
theorem exec_wbMul (i : Instr) (s : State) (ins : Rec) (hi lo : Word) (h : s.work.station = .wbMul ins hi lo) :
    exec i s = .next (s.rfSetPair hi lo) := by
  cases i <;>
    simp [exec, execJ, execBeq, execBne, execBgtz, execSw, execLw, execBreak, execAdd, execSub, execAnd, execOr, execSrl,
      execSra, execAddi, execAndi, execOri, execMult, execDiv, execMfhi, execMflo, branchLife, aluLife, offPath, h]

end Sys2Proof.Machine
end

