-- ==== Sys2Proof/Laws/Flags.lean ====
section
/-! SUPPORT. The awaiting flags read through `Scoreboard.flag` after each operation on them. -/

namespace Sys2Proof.Machine

@[simp] theorem Scoreboard.flag_clear (r : PReg) : Scoreboard.clear.flag r = false := by
  cases r <;> simp [Scoreboard.clear, Scoreboard.flag]

@[simp] theorem DRef.mem_regs_none (r : PReg) : r ∈ DRef.none.regs ↔ False := by simp [DRef.regs]
@[simp] theorem DRef.mem_regs_gpr (r : PReg) (i : Reg) : r ∈ (DRef.gpr i).regs ↔ r = .x i := by simp [DRef.regs]
@[simp] theorem DRef.mem_regs_hilo (r : PReg) : r ∈ DRef.hilo.regs ↔ r = .hi ∨ r = .lo := by simp [DRef.regs]

/-- Setting the flags of a destination changes those flags and no other (R201, R203, R204). -/
theorem Scoreboard.flag_put (aw : Scoreboard) (d : DRef) (b : Bool) (r : PReg) :
    (aw.put d b).flag r = if r ∈ d.regs then b else aw.flag r := by
  cases d with
  | none => simp [Scoreboard.put]
  | hilo => cases r <;> simp [Scoreboard.put, Scoreboard.flag]
  | gpr i =>
    cases r with
    | hi => simp [Scoreboard.put, Scoreboard.flag]
    | lo => simp [Scoreboard.put, Scoreboard.flag]
    | x j =>
      simp only [Scoreboard.put, Scoreboard.flag, DRef.mem_regs_gpr, PReg.x.injEq, Fin.getElem_fin,
        Vector.getElem_set, Fin.ext_iff]
      by_cases h : (i : Nat) = j
      · simp [h]
      · simp [h, Ne.symm h]

/-- A flag of the union is a flag of either (R288). -/
@[simp] theorem Scoreboard.flag_union (aw marks : Scoreboard) (r : PReg) :
    (aw.union marks).flag r = (aw.flag r || marks.flag r) := by
  cases r <;> simp [Scoreboard.union, Scoreboard.flag]

/-- Two sets of flags are equal when every flag is. -/
theorem Scoreboard.ext_flag {a b : Scoreboard} (h : ∀ r, a.flag r = b.flag r) : a = b := by
  obtain ⟨ax, ahi, alo⟩ := a
  obtain ⟨bx, bhi, blo⟩ := b
  have hx : ax = bx := by
    apply Vector.ext
    intro i hi
    exact h (.x ⟨i, hi⟩)
  have h1 : ahi = bhi := h .hi
  have h2 : alo = blo := h .lo
  rw [hx, h1, h2]

/-- A source reference awaits exactly when one of its registers does (R202). -/
theorem Scoreboard.awaitsSrc_eq (aw : Scoreboard) (ref : SRef) :
    aw.awaitsSrc ref = ref.regs.any aw.flag := by
  cases ref <;> simp [Scoreboard.awaitsSrc, SRef.regs, Scoreboard.flag]

/-- A destination reference awaits exactly when one of its registers does (R202). -/
theorem Scoreboard.awaitsDest_eq (aw : Scoreboard) (ref : DRef) :
    aw.awaitsDest ref = ref.regs.any aw.flag := by
  cases ref <;> simp [Scoreboard.awaitsDest, DRef.regs, Scoreboard.flag]

end Sys2Proof.Machine
end

