-- ==== Sys2Proof/Laws/Memory.lean ====
section
/-! SUPPORT. Memory: a read after a write, the canonical form kept by every operation, and when an access faults. -/

namespace Sys2Proof.Machine

/-- Everything `MemRead` can do (R42): the fault of a bad address. -/
theorem memRead_bad {c : Setup} {m : Memory} {ea : Word}
    (h : ea.toNat % 4 ≠ 0 ∨ ea.toNat < 256 ∨ 256 + 4 * c.words ≤ ea.toNat) :
    memRead c m ea = .error (.memAddress ea) := if_pos h

/-- Everything `MemRead` can do (R42): the word. -/
theorem memRead_good {c : Setup} {m : Memory} {ea : Word}
    (h : ¬(ea.toNat % 4 ≠ 0 ∨ ea.toNat < 256 ∨ 256 + 4 * c.words ≤ ea.toNat)) :
    memRead c m ea = .ok (m.get ea.toNat) := if_neg h

/-- Everything `MemWrite` can do (R43): the code segment is tested first. -/
theorem memWrite_code {c : Setup} {m : Memory} {ea v : Word} (h : ea.toNat < c.dataStart) :
    memWrite c m ea v = .error (.storeToCode ea) := if_pos h

/-- Everything `MemWrite` can do (R43): the fault of a bad address. -/
theorem memWrite_bad {c : Setup} {m : Memory} {ea v : Word} (h : ¬ea.toNat < c.dataStart)
    (hb : ea.toNat % 4 ≠ 0 ∨ 256 + 4 * c.words ≤ ea.toNat) :
    memWrite c m ea v = .error (.memAddress ea) := (if_neg h).trans (if_pos hb)

/-- Everything `MemWrite` can do (R43): the store. -/
theorem memWrite_good {c : Setup} {m : Memory} {ea v : Word} (h : ¬ea.toNat < c.dataStart)
    (hb : ¬(ea.toNat % 4 ≠ 0 ∨ 256 + 4 * c.words ≤ ea.toNat)) :
    memWrite c m ea v = .ok (m.set ea.toNat v) := (if_neg h).trans (if_neg hb)

/-- A memory in canonical form, read as two facts. -/
theorem Memory.wf_iff (m : Memory) :
    m.wf = true ↔ m.Pairwise (fun a b => a.1 < b.1) ∧ ∀ c ∈ m, c.2 ≠ 0#32 := by
  simp [Memory.wf]

/-- An address below every listed one holds 0. -/
theorem Memory.get_of_lt (m : Memory) (a : Nat) (h : ∀ c ∈ m, a < c.1) : m.get a = 0#32 := by
  induction m with
  | nil => rfl
  | cons c m ih =>
    have hc := h c (by simp)
    rw [Memory.get, if_neg (by omega)]
    exact ih (fun d hd => h d (by simp [hd]))

/-- A read after a write: the written word at its address, every other address as before (R50). -/
theorem Memory.get_set (m : Memory) (hm : m.Pairwise (fun a b => a.1 < b.1)) (a b : Nat) (v : Word) :
    (m.set a v).get b = if a = b then v else m.get b := by
  induction m with
  | nil =>
    by_cases hv : v = 0#32 <;> by_cases hab : a = b <;> simp [Memory.set, Memory.get, hv, hab]
  | cons c m ih =>
    obtain ⟨k, w⟩ := c
    have hlt : ∀ d ∈ m, k < d.1 := (List.pairwise_cons.mp hm).1
    have ih := ih (List.pairwise_cons.mp hm).2
    simp only [Memory.set]
    by_cases h1 : a < k
    · have hz : Memory.get ((k, w) :: m) a = 0#32 :=
        Memory.get_of_lt _ a (by
          intro d hd
          rcases List.mem_cons.mp hd with rfl | hd
          · exact h1
          · exact Nat.lt_trans h1 (hlt d hd))
      by_cases hv : v = 0#32
      · by_cases hab : a = b
        · subst hab; simp [h1, hv, hz]
        · simp [h1, hv, hab]
      · simp [h1, hv, Memory.get]
    · by_cases h2 : a = k
      · subst h2
        by_cases hv : v = 0#32
        · by_cases hab : a = b
          · subst hab; simp [hv, Memory.get_of_lt m a hlt]
          · simp [hv, Memory.get, hab]
        · by_cases hab : a = b <;> simp [hv, Memory.get, hab]
      · by_cases hkb : k = b
        · subst hkb; simp [h1, h2, Memory.get]
        · simp [h1, h2, Memory.get, hkb, ih]

/-- The addresses listed after a write were listed before, or are the one written. -/
theorem Memory.mem_set {m : Memory} {a : Nat} {v : Word} {c : Nat × Word} (h : c ∈ m.set a v) :
    c ∈ m ∨ (c = (a, v) ∧ v ≠ 0#32) := by
  induction m with
  | nil =>
    by_cases hv : v = 0#32 <;> simp_all [Memory.set]
  | cons d m ih =>
    obtain ⟨k, w⟩ := d
    simp only [Memory.set] at h
    split at h
    · split at h <;> simp_all
      rcases h with rfl | h
      · simp_all
      · tauto
    · split at h
      · split at h <;> simp_all
        rcases h with rfl | h
        · simp_all
        · tauto
      · rcases List.mem_cons.mp h with rfl | h
        · simp
        · rcases ih h with h | h
          · simp [h]
          · exact .inr h

/-- A write keeps the canonical form. -/
theorem Memory.set_wf (m : Memory) (a : Nat) (v : Word) (h : m.wf = true) : (m.set a v).wf = true := by
  rw [Memory.wf_iff] at h ⊢
  obtain ⟨hp, hz⟩ := h
  refine ⟨?_, ?_⟩
  · clear hz
    induction m with
    | nil => by_cases hv : v = 0#32 <;> simp [Memory.set, hv]
    | cons c m ih =>
      obtain ⟨k, w⟩ := c
      have hlt : ∀ d ∈ m, k < d.1 := (List.pairwise_cons.mp hp).1
      have hp' := (List.pairwise_cons.mp hp).2
      simp only [Memory.set]
      split
      case isTrue h1 =>
        split
        · exact hp
        · refine List.pairwise_cons.mpr ⟨?_, hp⟩
          intro d hd
          rcases List.mem_cons.mp hd with rfl | hd
          · exact h1
          · exact Nat.lt_trans h1 (hlt d hd)
      case isFalse h1 =>
        split
        case isTrue h2 =>
          subst h2
          split
          · exact hp'
          · exact List.pairwise_cons.mpr ⟨hlt, hp'⟩
        case isFalse h2 =>
          refine List.pairwise_cons.mpr ⟨?_, ih hp'⟩
          intro d hd
          rcases Memory.mem_set hd with hd | ⟨rfl, _⟩
          · exact hlt d hd
          · simp only; omega
  · intro c hc
    rcases Memory.mem_set hc with hc | ⟨rfl, hv⟩
    · exact hz c hc
    · exact hv

/-- Loading an image gives memory in canonical form, with every word at its place or above the first address. -/
theorem imageMemory_wf (a : Nat) (ws : List Word) :
    (imageMemory a ws).wf = true ∧
      ∀ c ∈ imageMemory a ws, a ≤ c.1 ∧ c.1 < a + 4 * ws.length ∧ c.1 % 4 = a % 4 := by
  induction ws generalizing a with
  | nil => simp [imageMemory, Memory.wf]
  | cons w ws ih =>
    obtain ⟨h1, h2⟩ := ih (a + 4)
    by_cases hw : w = 0#32
    · simp only [imageMemory, hw, if_true]
      refine ⟨h1, fun c hc => ?_⟩
      have := h2 c hc
      simp only [List.length_cons]
      omega
    · simp only [imageMemory, hw, if_false]
      refine ⟨?_, fun c hc => ?_⟩
      · rw [Memory.wf_iff] at h1 ⊢
        refine ⟨List.pairwise_cons.mpr ⟨fun c hc => ?_, h1.1⟩, fun c hc => ?_⟩
        · have := h2 c hc
          simp only; omega
        · rcases List.mem_cons.mp hc with rfl | hc
          · exact hw
          · exact h1.2 c hc
      · rcases List.mem_cons.mp hc with rfl | hc
        · simp
        · have := h2 c hc
          simp only [List.length_cons]
          omega

end Sys2Proof.Machine
end

