-- ==== Sys2Proof/Laws/Stages.lean ====
section
/-! SUPPORT. Each stage of the cycle computes what its rule says, as a function of the current generation: one lemma
per stage, stating everything the stage can do, its fault included. A stage changes its own part of the next
generation and of the cycle in progress, and nothing else; `st` is the station it leaves behind. -/

namespace Sys2Proof.Machine

open Reference (disjoint)

@[simp] theorem andThen_next (s : State) (f : State → Out) : andThen (.next s) f = f s := rfl
@[simp] theorem andThen_fault (r : Fault) (f : State → Out) : andThen (.fault r) f = .fault r := rfl
@[simp] theorem andThen_refused (r : Refusal) (f : State → Out) : andThen (.refused r) f = .refused r := rfl

/-- A computation that went on did so through a next state. -/
theorem andThen_eq_next {o : Out} {f : State → Out} {t : State} (h : andThen o f = .next t) :
    ∃ s, o = .next s ∧ f s = .next t := by
  cases o with
  | next s => exact ⟨s, rfl, h⟩
  | fault r => cases h
  | refused r => cases h

/-- An outcome agrees with a stage computed apart: the same fault, or a next state that stands in relation `P` to the
result. -/
def Agrees {α : Type} (o : Out) (r : Except Fault α) (P : α → State → Prop) : Prop :=
  match r with
  | .error f => o = .fault f
  | .ok a => ∃ t, o = .next t ∧ P a t

@[simp] theorem agrees_error {α : Type} (o : Out) (f : Fault) (P : α → State → Prop) :
    Agrees o (.error f) P ↔ o = .fault f := Iff.rfl

@[simp] theorem agrees_ok {α : Type} (o : Out) (a : α) (P : α → State → Prop) :
    Agrees o (.ok a) P ↔ ∃ t, o = .next t ∧ P a t := Iff.rfl

theorem Agrees.imp {α : Type} {o : Out} {r : Except Fault α} {P Q : α → State → Prop} (h : Agrees o r P)
    (hPQ : ∀ a t, P a t → Q a t) : Agrees o r Q := by
  cases r with
  | error f => exact h
  | ok a =>
    obtain ⟨t, ht, hp⟩ := h
    exact ⟨t, ht, hPQ a t hp⟩

theorem meets_eq_not_disjoint (as bs : List PReg) : (!meets as bs) = disjoint as bs := by
  rw [Bool.eq_iff_iff]
  simp [meets, disjoint]

theorem canResolve_eq (ins : Rec) (g : Gen) (extra : List Rec) :
    canResolve ins.instr g extra = Reference.mayResolve ins g extra := by
  simp only [canResolve, Reference.mayResolve, raw, meets_eq_not_disjoint]

/-- BGTZ's condition (R104). -/
theorem takenGtz_iff (a : Word) : takenGtz a = true ↔ 0 < a.toInt := by
  unfold takenGtz
  exact decide_eq_true_iff

theorem outcome_eq (ins : Rec) (g : Gen) (h : isBranch ins.instr = true) :
    outcome ins.instr (takenOf ins.instr) (targetOf ins.instr ins.addr) ins.addr g = Reference.outcome ins g := by
  obtain ⟨addr, word, instr, v1, v2⟩ := ins
  cases instr <;> simp_all [isBranch, outcome, Reference.outcome, takenOf, targetOf, takenEq, takenNe, takenGtz_iff,
    Gen.rfGet, src1Of, src2Of, branchTarget, jumpTarget, sext16]

theorem inRange_iff (c : Setup) (p : Word) :
    c.inRange p = true ↔ 256 ≤ p.toNat ∧ p.toNat < 256 + 4 * c.words := by
  unfold Setup.inRange
  rw [Bool.and_eq_true, decide_eq_true_iff, decide_eq_true_iff]
  rfl

theorem endsFetch_iff (i : Instr) : endsFetch i = true ↔ i = .brk ∨ isBranch i = true := by
  cases i <;> simp [endsFetch, isBranch]

/-- The fetch stage has run from `s` to `t`: its registers and the records it fetched are `a`, and nothing else changed
but the station of the cycle in progress. -/
structure Fetched (s : State) (a : FetchRegs × List Rec) (t : State) : Prop where
  next : t.next = { s.next with fetch := a.1 }
  cur : t.cur = s.cur
  status : t.status = s.status
  cycles : t.cycles = s.cycles
  setup : t.setup = s.setup
  newFw : t.work.newFw = a.2
  older : t.work.older = s.work.older
  kept : t.work.kept = s.work.kept
  marks : t.work.marks = s.work.marks
  enq : t.work.enq = s.work.enq

theorem fetched_self (s : State) (r : FetchRegs) (nf : List Rec) (hf : s.next.fetch = r) (hn : s.work.newFw = nf) :
    Fetched s (r, nf) s := by
  subst hf hn; exact ⟨rfl, rfl, rfl, rfl, rfl, rfl, rfl, rfl, rfl, rfl⟩

theorem Fetched.after {s u t : State} {a : FetchRegs × List Rec} (h : Fetched u a t)
    (hn : { u.next with fetch := a.1 } = { s.next with fetch := a.1 }) (hc : u.cur = s.cur) (hs : u.status = s.status)
    (hy : u.cycles = s.cycles) (hp : u.setup = s.setup) (ho : u.work.older = s.work.older)
    (hk : u.work.kept = s.work.kept) (hm : u.work.marks = s.work.marks) (hq : u.work.enq = s.work.enq) : Fetched s a t :=
  ⟨h.next.trans hn, h.cur.trans hc, h.status.trans hs, h.cycles.trans hy, h.setup.trans hp, h.newFw, h.older.trans ho,
    h.kept.trans hk, h.marks.trans hm, h.enq.trans hq⟩

/-- The fetch loop (R223) from fetch pointer `p` with the records `nf` already fetched. -/
theorem fetchLoop_agrees (n : Nat) (p : Word) (nf : List Rec) (s : State)
    (hf : s.next.fetch = { s.cur.fetch with pc := p }) (hn : s.work.newFw = nf) :
    Agrees (fetchLoop n s) (Reference.fetchLoop s.setup s.cur n p nf) (Fetched s) := by
  induction n generalizing p nf s with
  | zero => exact ⟨s, rfl, fetched_self s _ _ hf hn⟩
  | succ n ih =>
    have hpc : s.next.fetch.pc = p := by rw [hf]
    simp only [Reference.fetchLoop, fetchLoop, State.fetchOpen, State.fetchWord, Config.fwCap, hpc, hn, Bool.and_eq_true,
      decide_eq_true_eq, inRange_iff]
    by_cases hopen : nf.length < 8 - s.cur.fw.length ∧ 256 ≤ p.toNat ∧ p.toNat < 256 + 4 * s.setup.words
    case neg =>
      rw [if_neg hopen, if_neg hopen]
      exact ⟨s, rfl, fetched_self s _ _ hf hn⟩
    case pos =>
      rw [if_pos hopen, if_pos hopen]
      cases hd : decode (s.cur.mem.get p.toNat) with
      | none => simp [raise]
      | some i =>
        simp only [exec_fetch i (s.present .fetch) rfl, andThen_next, endsFetch_iff]
        by_cases hb : i = .brk
        · simp only [hb, if_true, true_or]
          exact ⟨_, rfl, by simp [State.requestHalt, State.setFetch, hf], rfl, rfl, rfl, rfl, hn, rfl, rfl, rfl, rfl⟩
        by_cases hbr : isBranch i = true
        · simp only [hb, hbr, if_true, if_false, or_true, State.branchFetched, State.fetched, State.present_cur,
            State.present_next, State.present_work_newFw, hpc, hn]
          have hres := canResolve_eq { addr := p, word := s.cur.mem.get p.toNat, instr := i, v1 := 0, v2 := 0 } s.cur nf
          have hout := outcome_eq { addr := p, word := s.cur.mem.get p.toNat, instr := i, v1 := 0, v2 := 0 } s.cur hbr
          simp only at hres hout
          rw [hres, hout]
          subst hn
          cases Reference.mayResolve
            { addr := p, word := s.cur.mem.get p.toNat, instr := i, v1 := 0#32, v2 := 0#32 } s.cur s.work.newFw
          · exact ⟨_, rfl, by simp [State.stall, State.setFetch, hf], rfl, rfl, rfl, rfl, rfl, rfl, rfl, rfl, rfl⟩
          · exact ⟨_, rfl, by simp [State.resolve, State.setFetch, hf], rfl, rfl, rfl, rfl, rfl, rfl, rfl, rfl, rfl⟩
        · simp only [hb, hbr, if_false, Bool.false_eq_true, or_self]
          have := ih (p + 4#32) (nf ++ [{ addr := p, word := s.cur.mem.get p.toNat, instr := i, v1 := 0, v2 := 0 }])
            ((s.present .fetch).enterWindow i) (by simp [State.enterWindow, hf])
            (by simp [State.enterWindow, State.fetched, hn, hpc])
          exact this.imp fun a t hd => hd.after rfl rfl rfl rfl rfl rfl rfl rfl rfl

/-- The fetch stage (R220 to R231), of a state whose stalled slot holds a branch if anything. -/
theorem fetchStage_agrees (s : State) (hf : s.next.fetch = s.cur.fetch) (hn : s.work.newFw = [])
    (hk : ∀ b ∈ s.cur.fetch.stalled, isBranch b.instr = true) :
    Agrees (fetchStage s) (Reference.fetch s.setup s.cur) (Fetched s) := by
  simp only [Reference.fetch, fetchStage]
  by_cases hh : s.cur.fetch.haltReq = true
  · rw [if_pos hh, if_pos hh]
    exact ⟨s, rfl, fetched_self s _ _ hf hn⟩
  rw [if_neg hh, if_neg hh]
  cases hs : s.cur.fetch.stalled with
  | none => exact fetchLoop_agrees 4 s.cur.fetch.pc [] s hf hn
  | some b =>
    have hb := hk b (by simp [hs])
    simp only [runAt, exec_retry b.instr (s.present (.retry b)) b rfl, hb, if_true, State.branchRetried,
      State.present_cur, canResolve_eq, outcome_eq b s.cur hb]
    cases Reference.mayResolve b s.cur []
    · exact ⟨_, rfl, by simp [← hf], rfl, rfl, rfl, rfl, hn, rfl, rfl, rfl, rfl⟩
    · exact ⟨_, rfl, by simp [State.resolve, State.setFetch, hf], rfl, rfl, rfl, rfl, hn, rfl, rfl, rfl, rfl⟩

/-! ### Issue -/

/-- The cycle in progress holds what the reference scan has accumulated; the marks are the same set. -/
structure ScanMatches (w : Work) (older : List Rec) (a : Reference.Issue) : Prop where
  older : w.older = older
  kept : w.kept = a.kept
  enq : w.enq = a.enq
  marks : ∀ r, w.marks.flag r = decide (r ∈ a.marks)

theorem canIssue_eq (s : State) (older : List Rec) (a : Reference.Issue) (i : Instr) (k : QueueId)
    (h : ScanMatches s.work older a) :
    s.canIssue i k = Reference.issues s.setup s.cur older a i k := by
  have hd : condD i older = ((!isLoad i || older.all (fun j => !isStore j.instr))
      && (!isStore i || older.all (fun j => !isStore j.instr && !isLoad j.instr))) := by
    cases i <;> simp [condD, isLoad, isStore]
  have he : condE s.setup.wawCheck i older
      = (!s.setup.wawCheck || older.all (fun j => disjoint (writesOf j.instr) (writesOf i))) := by
    cases s.setup.wawCheck <;> simp [condE, waw, meets_eq_not_disjoint]
  simp only [State.canIssue, Reference.issues, condA, condB, condC, State.slotFree, h.older, h.enq, h.marks, hd, he, raw,
    war, meets_eq_not_disjoint, decide_not, Bool.and_assoc, Config.qCap]

theorem mark_flag (m : Scoreboard) (i : Instr) (ms : List PReg) (h : ∀ r, m.flag r = decide (r ∈ ms)) (r : PReg) :
    (m.mark (destOf i)).flag r = decide (r ∈ ms ++ writesOf i) := by
  rw [Scoreboard.mark, Scoreboard.flag_put, h]
  by_cases hr : r ∈ (destOf i).regs <;> simp [writesOf, hr]

/-- The issue scan (R240) goes on to its end and never faults. -/
theorem issueScan_eq (fw : List Rec) (s : State) (older : List Rec) (a : Reference.Issue)
    (h : ScanMatches s.work older a) :
    ∃ w, issueScan fw s = .next (s.setWork w) ∧ w.newFw = s.work.newFw ∧
      ScanMatches w (older ++ fw) (Reference.issueScan s.setup s.cur older fw a) := by
  induction fw generalizing s older a with
  | nil => exact ⟨s.work, rfl, rfl, by simpa [Reference.issueScan] using h⟩
  | cons b fw ih =>
    simp only [issueScan, runAt, exec_issue b.instr (s.present (.issue b)) b rfl, andThen_next, Reference.issueScan]
    have key : ∃ w, (scannedAt b.instr b (s.present (.issue b))).scanned b = s.setWork w ∧ w.newFw = s.work.newFw ∧
        ScanMatches w (older ++ [b]) (Reference.issueOne s.setup s.cur older a b) := by
      have hp : ScanMatches (s.present (.issue b)).work older a := ⟨h.older, h.kept, h.enq, h.marks⟩
      have hkeep : ScanMatches ((s.present (.issue b)).keepInWindow b |>.scanned b).work (older ++ [b])
          { a with kept := a.kept ++ [b] } :=
        ⟨by simp [State.scanned, State.keepInWindow, h.older], by simp [State.scanned, State.keepInWindow, h.kept],
          by simp [State.scanned, State.keepInWindow, h.enq], by simpa [State.scanned, State.keepInWindow] using h.marks⟩
      unfold scannedAt
      cases hq : queueOf b.instr with
      | none =>
        refine ⟨((s.present (.issue b)).keepInWindow b |>.scanned b).work, rfl, rfl, ?_⟩
        simpa only [Reference.issueOne, hq] using hkeep
      | some k =>
        simp only [State.tryIssue, canIssue_eq _ older a b.instr k hp, Reference.issueOne, hq, State.present_setup,
          State.present_cur]
        cases Reference.issues s.setup s.cur older a b.instr k
        · exact ⟨((s.present (.issue b)).keepInWindow b |>.scanned b).work, rfl, rfl, hkeep⟩
        · refine ⟨_, rfl, rfl, ?_⟩
          exact ⟨by simp [State.issueTo, h.older], by simp [State.issueTo, h.kept],
            by simp [State.issueTo, State.capture, h.enq],
            fun r => by simpa [State.issueTo] using mark_flag s.work.marks b.instr a.marks h.marks r⟩
    obtain ⟨w, hw, hn, hm⟩ := key
    rw [hw]
    obtain ⟨w', hw', hn', hm'⟩ := ih (s.setWork w) (older ++ [b]) _ hm
    exact ⟨w', by simpa using hw', by simpa [hn] using hn', by simpa using hm'⟩

/-- The issue stage (R240 to R252). -/
theorem issueStage_eq (s : State) (h : ScanMatches s.work [] { marks := [], kept := [], enq := Queues.empty }) :
    ∃ w, issueStage s = .next (s.setWork w) ∧ w.newFw = s.work.newFw ∧
      ScanMatches w s.cur.fw (Reference.issue s.setup s.cur) :=
  issueScan_eq s.cur.fw s [] _ h

/-! ### The units -/

/-- A unit or writeback has run from `s` to `t`: the next generation became `n`, and nothing else changed but the
station of the cycle in progress. -/
structure Did (s t : State) (n : Gen) : Prop where
  next : t.next = n
  cur : t.cur = s.cur
  status : t.status = s.status
  cycles : t.cycles = s.cycles
  setup : t.setup = s.setup
  newFw : t.work.newFw = s.work.newFw
  kept : t.work.kept = s.work.kept
  marks : t.work.marks = s.work.marks
  enq : t.work.enq = s.work.enq

theorem did_nothing (s : State) (n : Gen) (h : s.next = n) : Did s s n := ⟨h, rfl, rfl, rfl, rfl, rfl, rfl, rfl, rfl⟩

/-- A unit agrees with its rule computed apart: the same fault, or the next generation that `build` makes. -/
abbrev UnitAgrees {α : Type} (s : State) (o : Out) (r : Except Fault α) (build : α → Gen) : Prop :=
  Agrees o r (fun a t => Did s t (build a))

/-- The MEM unit (R263). -/
theorem memStage_agrees (s : State) (hm : s.next.mem = s.cur.mem) (ho : s.next.latches.memo = none) :
    UnitAgrees s (memStage s) (Reference.mem s.setup s.cur) (fun a =>
      { s.next with latches := { s.next.latches with memo := a.1 }, mem := a.2 }) := by
  simp only [memStage, Reference.mem]
  cases s.cur.latches.lsa with
  | none => exact ⟨s, rfl, did_nothing s _ (by simp only [← hm, ← ho])⟩
  | some l =>
    simp only [runAt, exec_mem l.ins.instr (s.present (.mem l.ins l.value)) l.ins l.value rfl, State.loadFrom,
      State.storeTo, State.present_setup, State.present_cur, State.present_next, hm]
    by_cases h1 : isLoad l.ins.instr = true
    · rw [if_pos h1, if_pos h1]
      by_cases h2 : l.value.toNat % 4 ≠ 0 ∨ l.value.toNat < 256 ∨ 256 + 4 * s.setup.words ≤ l.value.toNat
      · rw [if_pos h2, memRead_bad h2]; rfl
      · rw [if_neg h2, memRead_good h2]
        exact ⟨_, rfl, by simp only [← hm]; rfl, rfl, rfl, rfl, rfl, rfl, rfl, rfl, rfl⟩
    rw [if_neg h1, if_neg h1]
    by_cases h2 : isStore l.ins.instr = true
    · rw [if_pos h2, if_pos h2]
      by_cases h3 : l.value.toNat < s.setup.dataStart
      · rw [if_pos h3, memWrite_code h3]; rfl
      rw [if_neg h3]
      by_cases h4 : l.value.toNat % 4 ≠ 0 ∨ 256 + 4 * s.setup.words ≤ l.value.toNat
      · rw [if_pos h4, memWrite_bad h3 h4]; rfl
      · rw [if_neg h4, memWrite_good h3 h4]
        exact ⟨_, rfl, by simp only [← ho]; rfl, rfl, rfl, rfl, rfl, rfl, rfl, rfl, rfl⟩
    · rw [if_neg h2, if_neg h2]; rfl

/-- The DIV unit (R264). -/
theorem divStage_agrees (s : State) (ho : s.next.latches.divo = none) :
    UnitAgrees s (divStage s) (Reference.div s.cur) (fun a =>
      { s.next with latches := { s.next.latches with divo := a } }) := by
  simp only [divStage, Reference.div]
  cases s.cur.queues.div with
  | nil => exact ⟨s, rfl, did_nothing s _ (by simp only [← ho])⟩
  | cons b bs =>
    simp only [runAt, exec_div b.instr (s.present (.div b)) b rfl, State.divide]
    split
    · rfl
    · exact ⟨_, rfl, rfl, rfl, rfl, rfl, rfl, rfl, rfl, rfl, rfl⟩

/-- ALU1 (R261). -/
theorem alu1Stage_agrees (s : State) (ho : s.next.latches.aluo = none) :
    UnitAgrees s (alu1Stage s) (Reference.alu1 s.cur) (fun a =>
      { s.next with latches := { s.next.latches with aluo := a } }) := by
  simp only [alu1Stage, Reference.alu1]
  cases s.cur.queues.alu with
  | nil => exact ⟨s, rfl, did_nothing s _ (by simp only [← ho])⟩
  | cons b bs =>
    simp only [runAt, exec_alu1 b.instr (s.present (.alu1 b)) b rfl]
    cases aluResult b.instr b.v1 b.v2 with
    | none => rfl
    | some v => exact ⟨_, rfl, rfl, rfl, rfl, rfl, rfl, rfl, rfl, rfl, rfl⟩

/-- ALU2 (R262) never faults. -/
theorem alu2Stage_did (s : State) (ho : s.next.latches.lsa = none) :
    ∃ t, alu2Stage s = .next t ∧ Did s t { s.next with latches := { s.next.latches with
      lsa := s.cur.queues.ls.head?.map (fun b => { ins := b, value := b.v1 + immOf b.instr }) } } := by
  simp only [alu2Stage]
  cases s.cur.queues.ls with
  | nil => exact ⟨s, rfl, did_nothing s _ (by simp only [List.head?_nil, Option.map_none, ← ho])⟩
  | cons b bs =>
    simp only [runAt, exec_alu2 b.instr (s.present (.alu2 b)) b rfl]
    exact ⟨_, rfl, rfl, rfl, rfl, rfl, rfl, rfl, rfl, rfl, rfl⟩

/-- MUL1 (R265) never faults. -/
theorem mul1Stage_did (s : State) (ho : s.next.latches.mul1o = none) :
    ∃ t, mul1Stage s = .next t ∧ Did s t { s.next with latches := { s.next.latches with
      mul1o := s.cur.queues.mul.head?.map
        (fun b => { ins := b, hi := productHi b.v1 b.v2, lo := productLo b.v1 b.v2 }) } } := by
  simp only [mul1Stage]
  cases s.cur.queues.mul with
  | nil => exact ⟨s, rfl, did_nothing s _ (by simp only [List.head?_nil, Option.map_none, ← ho])⟩
  | cons b bs =>
    simp only [runAt, exec_mul1 b.instr (s.present (.mul1 b)) b rfl]
    exact ⟨_, rfl, rfl, rfl, rfl, rfl, rfl, rfl, rfl, rfl, rfl⟩

/-- MUL2 (R266) never faults. -/
theorem mul2Stage_did (s : State) (ho : s.next.latches.mul2o = none) :
    ∃ t, mul2Stage s = .next t ∧
      Did s t { s.next with latches := { s.next.latches with mul2o := s.cur.latches.mul1o } } := by
  simp only [mul2Stage]
  cases s.cur.latches.mul1o with
  | none => exact ⟨s, rfl, did_nothing s _ (by simp only [← ho])⟩
  | some l =>
    simp only [runAt, exec_mul2 l.ins.instr (s.present (.mul2 l.ins l.hi l.lo)) l.ins l.hi l.lo rfl]
    exact ⟨_, rfl, rfl, rfl, rfl, rfl, rfl, rfl, rfl, rfl, rfl⟩

/-- MUL3 (R267) never faults. -/
theorem mul3Stage_did (s : State) (ho : s.next.latches.mul3o = none) :
    ∃ t, mul3Stage s = .next t ∧
      Did s t { s.next with latches := { s.next.latches with mul3o := s.cur.latches.mul2o } } := by
  simp only [mul3Stage]
  cases s.cur.latches.mul2o with
  | none => exact ⟨s, rfl, did_nothing s _ (by simp only [← ho])⟩
  | some l =>
    simp only [runAt, exec_mul3 l.ins.instr (s.present (.mul3 l.ins l.hi l.lo)) l.ins l.hi l.lo rfl]
    exact ⟨_, rfl, rfl, rfl, rfl, rfl, rfl, rfl, rfl, rfl, rfl⟩

/-! ### Writeback -/

/-- A general register written, if the latch is full and its record names one (R281, R282). -/
def putLatch (x : Vector Word 32) (l : Option Latch) : Vector Word 32 :=
  match l with
  | some l => match destOf l.ins.instr with
    | .gpr i => x.set i l.value
    | _ => x
  | none => x

/-- The flags with those of the latch's record cleared (R286). -/
def clearLatch (aw : Scoreboard) (l : Option Latch) : Scoreboard :=
  match l with
  | some l => aw.put (destOf l.ins.instr) false
  | none => aw

/-- The registers with HI and LO written from a full latch (R283, R284). -/
def putPair (r : RegFile) (l : Option PairLatch) : RegFile :=
  match l with
  | some l => { r with hi := l.hi, lo := l.lo }
  | none => r

/-- The flags with those of the pair cleared if the latch is full (R286). -/
def clearPair (aw : Scoreboard) (l : Option PairLatch) : Scoreboard :=
  match l with
  | some _ => aw.put .hilo false
  | none => aw

theorem dest_of_alu (i : Instr) (h : queueOf i = some .alu) : ∃ rd, destOf i = .gpr rd := by
  cases i <;> simp_all [queueOf, destOf]

theorem dest_of_load (i : Instr) (h : isLoad i = true) : ∃ rd, destOf i = .gpr rd := by
  cases i <;> simp_all [isLoad, destOf]

theorem dest_of_div (i : Instr) (h : queueOf i = some .div) : destOf i = .hilo := by
  cases i <;> simp_all [queueOf, destOf]

theorem dest_of_mul (i : Instr) (h : queueOf i = some .mul) : destOf i = .hilo := by
  cases i <;> simp_all [queueOf, destOf]

/-- The flags after a general latch was written back (R288): those of its record's write set are cleared. -/
theorem clearLatch_flag (aw : Scoreboard) (l : Option Latch) (r : PReg) :
    (clearLatch aw l).flag r
      = (aw.flag r && decide (r ∉ (l.toList.map Latch.ins).flatMap (fun b => writesOf b.instr))) := by
  cases l with
  | none => simp [clearLatch]
  | some l => simp [clearLatch, Scoreboard.flag_put, writesOf, Bool.and_comm]

/-- The flags after a pair was written back (R288), for a record whose destination is the pair. -/
theorem clearPair_flag (aw : Scoreboard) (l : Option PairLatch) (r : PReg)
    (h : ∀ l' ∈ l, destOf l'.ins.instr = .hilo) :
    (clearPair aw l).flag r
      = (aw.flag r && decide (r ∉ (l.toList.map PairLatch.ins).flatMap (fun b => writesOf b.instr))) := by
  cases l with
  | none => simp [clearPair]
  | some l =>
    have := h l (by simp)
    simp [clearPair, Scoreboard.flag_put, writesOf, this, Bool.and_comm]

/-- Writeback from `ALUO` (R281), of a record that has a general destination, never faults. -/
theorem wbAluStage_did (s : State) (hk : ∀ l ∈ s.cur.latches.aluo, ∃ rd, destOf l.ins.instr = .gpr rd) :
    ∃ t, wbAluStage s = .next t ∧ Did s t { s.next with
      regs := { s.next.regs with x := putLatch s.next.regs.x s.cur.latches.aluo }
      aw := clearLatch s.next.aw s.cur.latches.aluo } := by
  simp only [wbAluStage]
  cases hl : s.cur.latches.aluo with
  | none => exact ⟨s, rfl, did_nothing s _ rfl⟩
  | some l =>
    obtain ⟨rd, hd⟩ := hk l (by simp [hl])
    simp only [runAt, exec_wbAlu l.ins.instr (s.present (.wbAlu l.ins l.value)) l.ins l.value rfl, hd, State.rfSet,
      putLatch, clearLatch]
    exact ⟨_, rfl, rfl, rfl, rfl, rfl, rfl, rfl, rfl, rfl, rfl⟩

/-- Writeback from `MEMO` (R282), of a record that has a general destination, never faults. -/
theorem wbMemStage_did (s : State) (hk : ∀ l ∈ s.cur.latches.memo, ∃ rd, destOf l.ins.instr = .gpr rd) :
    ∃ t, wbMemStage s = .next t ∧ Did s t { s.next with
      regs := { s.next.regs with x := putLatch s.next.regs.x s.cur.latches.memo }
      aw := clearLatch s.next.aw s.cur.latches.memo } := by
  simp only [wbMemStage]
  cases hl : s.cur.latches.memo with
  | none => exact ⟨s, rfl, did_nothing s _ rfl⟩
  | some l =>
    obtain ⟨rd, hd⟩ := hk l (by simp [hl])
    simp only [runAt, exec_wbMem l.ins.instr (s.present (.wbMem l.ins l.value)) l.ins l.value rfl, hd, State.rfSet,
      putLatch, clearLatch]
    exact ⟨_, rfl, rfl, rfl, rfl, rfl, rfl, rfl, rfl, rfl, rfl⟩

/-- Writeback from `DIVO` (R283) never faults. -/
theorem wbDivStage_did (s : State) :
    ∃ t, wbDivStage s = .next t ∧ Did s t { s.next with
      regs := putPair s.next.regs s.cur.latches.divo
      aw := clearPair s.next.aw s.cur.latches.divo } := by
  simp only [wbDivStage]
  cases s.cur.latches.divo with
  | none => exact ⟨s, rfl, did_nothing s _ rfl⟩
  | some l =>
    simp only [runAt, exec_wbDiv l.ins.instr (s.present (.wbDiv l.ins l.hi l.lo)) l.ins l.hi l.lo rfl]
    exact ⟨_, rfl, rfl, rfl, rfl, rfl, rfl, rfl, rfl, rfl, rfl⟩

/-- Writeback from `MUL3O` (R284) never faults. -/
theorem wbMulStage_did (s : State) :
    ∃ t, wbMulStage s = .next t ∧ Did s t { s.next with
      regs := putPair s.next.regs s.cur.latches.mul3o
      aw := clearPair s.next.aw s.cur.latches.mul3o } := by
  simp only [wbMulStage]
  cases s.cur.latches.mul3o with
  | none => exact ⟨s, rfl, did_nothing s _ rfl⟩
  | some l =>
    simp only [runAt, exec_wbMul l.ins.instr (s.present (.wbMul l.ins l.hi l.lo)) l.ins l.hi l.lo rfl]
    exact ⟨_, rfl, rfl, rfl, rfl, rfl, rfl, rfl, rfl, rfl, rfl⟩

end Sys2Proof.Machine
end

