-- ==== Sys2Proof/Laws/Frame.lean ====
section
/-! SUPPORT. The frame of every meaning and every stage: the current generation, the status, the cycle count and the
parameters are the same after it (R290: a stage writes only the next generation). -/

namespace Sys2Proof.Machine

/-- What no meaning and no stage changes: the current generation, the status, the cycle count and the parameters. -/
structure Keeps (s t : State) : Prop where
  cur : t.cur = s.cur
  status : t.status = s.status
  cycles : t.cycles = s.cycles
  setup : t.setup = s.setup

theorem Keeps.refl (s : State) : Keeps s s := ⟨rfl, rfl, rfl, rfl⟩

theorem Keeps.trans {s t u : State} (h : Keeps s t) (k : Keeps t u) : Keeps s u :=
  ⟨k.cur.trans h.cur, k.status.trans h.status, k.cycles.trans h.cycles, k.setup.trans h.setup⟩

/-- Whatever an instruction does at a station, it keeps these four. -/
theorem exec_keeps (i : Instr) (s t : State) (h : exec i s = .next t) : Keeps s t := by
  cases hst : s.work.station with
  | fetch =>
    rw [exec_fetch i s hst] at h
    injection h with h
    subst h
    split
    · exact ⟨rfl, rfl, rfl, rfl⟩
    · split
      · unfold State.branchFetched
        split <;> exact ⟨rfl, rfl, rfl, rfl⟩
      · exact ⟨rfl, rfl, rfl, rfl⟩
  | retry ins =>
    rw [exec_retry i s ins hst] at h
    split at h
    · injection h with h
      subst h
      unfold State.branchRetried
      split <;> exact ⟨rfl, rfl, rfl, rfl⟩
    · cases h
  | issue ins =>
    rw [exec_issue i s ins hst] at h
    injection h with h
    subst h
    unfold scannedAt
    split
    · unfold State.tryIssue
      split <;> exact ⟨rfl, rfl, rfl, rfl⟩
    · exact ⟨rfl, rfl, rfl, rfl⟩
  | alu1 ins =>
    rw [exec_alu1 i s ins hst] at h
    split at h
    · injection h with h; subst h; exact ⟨rfl, rfl, rfl, rfl⟩
    · cases h
  | alu2 ins => rw [exec_alu2 i s ins hst] at h; injection h with h; subst h; exact ⟨rfl, rfl, rfl, rfl⟩
  | mem ins ea =>
    rw [exec_mem i s ins ea hst] at h
    split at h
    · unfold State.loadFrom at h
      split at h
      · injection h with h; subst h; exact ⟨rfl, rfl, rfl, rfl⟩
      · cases h
    · split at h
      · unfold State.storeTo at h
        split at h
        · injection h with h; subst h; exact ⟨rfl, rfl, rfl, rfl⟩
        · cases h
      · cases h
  | div ins =>
    rw [exec_div i s ins hst] at h
    unfold State.divide at h
    split at h
    · cases h
    · injection h with h; subst h; exact ⟨rfl, rfl, rfl, rfl⟩
  | mul1 ins => rw [exec_mul1 i s ins hst] at h; injection h with h; subst h; exact ⟨rfl, rfl, rfl, rfl⟩
  | mul2 ins a b => rw [exec_mul2 i s ins a b hst] at h; injection h with h; subst h; exact ⟨rfl, rfl, rfl, rfl⟩
  | mul3 ins a b => rw [exec_mul3 i s ins a b hst] at h; injection h with h; subst h; exact ⟨rfl, rfl, rfl, rfl⟩
  | wbAlu ins v =>
    rw [exec_wbAlu i s ins v hst] at h
    unfold State.rfSet at h
    split at h
    · injection h with h; subst h; exact ⟨rfl, rfl, rfl, rfl⟩
    · injection h with h; subst h; exact ⟨rfl, rfl, rfl, rfl⟩
    · cases h
  | wbMem ins v =>
    rw [exec_wbMem i s ins v hst] at h
    unfold State.rfSet at h
    split at h
    · injection h with h; subst h; exact ⟨rfl, rfl, rfl, rfl⟩
    · injection h with h; subst h; exact ⟨rfl, rfl, rfl, rfl⟩
    · cases h
  | wbDiv ins a b => rw [exec_wbDiv i s ins a b hst] at h; injection h with h; subst h; exact ⟨rfl, rfl, rfl, rfl⟩
  | wbMul ins a b => rw [exec_wbMul i s ins a b hst] at h; injection h with h; subst h; exact ⟨rfl, rfl, rfl, rfl⟩

/-- Presenting a record at a station and running it. -/
theorem runAt_keeps {st : Station} {ins : Rec} {s t : State} (h : runAt st ins s = .next t) : Keeps s t :=
  (show Keeps s (s.present st) from ⟨rfl, rfl, rfl, rfl⟩).trans (exec_keeps ins.instr (s.present st) t h)

/-- The fetch loop. -/
theorem fetchLoop_keeps (n : Nat) (s t : State) (h : fetchLoop n s = .next t) : Keeps s t := by
  induction n generalizing s with
  | zero => injection h with h; subst h; exact Keeps.refl s
  | succ n ih =>
    unfold fetchLoop at h
    split at h
    · split at h
      · cases h
      · obtain ⟨u, hu, h⟩ := andThen_eq_next h
        have hk : Keeps s u := (show Keeps s (s.present .fetch) from ⟨rfl, rfl, rfl, rfl⟩).trans (exec_keeps _ _ _ hu)
        split at h
        · injection h with h; subst h; exact hk
        · exact hk.trans (ih u h)
    · injection h with h; subst h; exact Keeps.refl s

/-- The issue scan. -/
theorem issueScan_keeps (fw : List Rec) (s t : State) (h : issueScan fw s = .next t) : Keeps s t := by
  induction fw generalizing s with
  | nil => injection h with h; subst h; exact Keeps.refl s
  | cons b fw ih =>
    obtain ⟨u, hu, h⟩ := andThen_eq_next h
    exact ((runAt_keeps hu).trans (show Keeps u (u.scanned b) from ⟨rfl, rfl, rfl, rfl⟩)).trans (ih _ h)

/-- Every stage of the cycle. -/
theorem stage_keeps (f : State → Out) (hf : f ∈ stages) (s t : State) (h : f s = .next t) : Keeps s t := by
  simp only [stages, List.mem_cons, List.not_mem_nil, or_false] at hf
  rcases hf with rfl | rfl | rfl | rfl | rfl | rfl | rfl | rfl | rfl | rfl | rfl | rfl | rfl
  · unfold fetchStage at h
    split at h
    · injection h with h; subst h; exact Keeps.refl s
    · split at h
      · exact runAt_keeps h
      · exact fetchLoop_keeps _ s t h
  · exact issueScan_keeps _ s t h
  all_goals
    first
      | unfold memStage at h
      | unfold divStage at h
      | unfold mul1Stage at h
      | unfold alu1Stage at h
      | unfold alu2Stage at h
      | unfold mul2Stage at h
      | unfold mul3Stage at h
      | unfold wbAluStage at h
      | unfold wbMemStage at h
      | unfold wbDivStage at h
      | unfold wbMulStage at h
    split at h
    · injection h with h; subst h; exact Keeps.refl s
    · exact runAt_keeps h

/-- Any run of stages. -/
theorem runStages_keeps (fs : List (State → Out)) (hfs : ∀ f ∈ fs, f ∈ stages) (s t : State)
    (h : runStages fs s = .next t) : Keeps s t := by
  induction fs generalizing s with
  | nil => injection h with h; subst h; exact Keeps.refl s
  | cons f fs ih =>
    obtain ⟨u, hu, h⟩ := andThen_eq_next h
    exact (stage_keeps f (hfs f (by simp)) s u hu).trans (ih (fun g hg => hfs g (by simp [hg])) u h)

end Sys2Proof.Machine
end

