-- ==== Sys2Proof/Laws/PerInstr.lean ====
section
/-! SUPPORT. Statements made for every instruction, one lemma per constructor. -/

namespace Sys2Proof.Laws.OpcodeBits

open Sys2Proof.Machine

/-- The six-bit value of the opcode map for each kind (30_encoding.md R70), written out from its table. -/
def tableBits : Instr → BitVec 6
  | .j _ => 0b000000#6
  | .beq _ _ _ => 0b000001#6
  | .bne _ _ _ => 0b000010#6
  | .bgtz _ _ => 0b000011#6
  | .sw _ _ _ => 0b000100#6
  | .lw _ _ _ => 0b000101#6
  | .brk => 0b000110#6
  | .add _ _ _ => 0b001000#6
  | .sub _ _ _ => 0b001001#6
  | .and _ _ _ => 0b001010#6
  | .or _ _ _ => 0b001011#6
  | .srl _ _ _ => 0b001100#6
  | .sra _ _ _ => 0b001101#6
  | .addi _ _ _ => 0b010000#6
  | .andi _ _ _ => 0b010001#6
  | .ori _ _ _ => 0b010010#6
  | .mult _ _ => 0b011000#6
  | .div _ _ => 0b011001#6
  | .mfhi _ => 0b100000#6
  | .mflo _ => 0b100001#6

/-- The encoding of an instruction has the table's value in its top six bits, and its kind is legal (R70, R71). -/
def Statement (i : Instr) : Prop :=
  opcodeBits i = tableBits i ∧ illegalPair (catField (encode i)) (opField (encode i)) = false

theorem of_pack (i : Instr) (c o r : Nat) (he : encode i = packWord c o r) (h1 : c < 8) (h2 : o < 8) (h3 : r < 2 ^ 26)
    (ht : tableBits i = BitVec.ofNat 6 (c * 8 + o)) (hl : illegalPair c o = false) : Statement i := by
  refine ⟨?_, ?_⟩
  · rw [opcodeBits, he, packWord_opcode c o r h1 h2 h3, ht]
  · rw [he, packWord_cat c o r h1 h2 h3, packWord_op c o r h1 h2 h3, hl]

theorem j (idx : BitVec 26) : Statement (.j idx) :=
  of_pack _ 0 0 _ rfl (by decide) (by decide) idx.isLt rfl (by decide)

theorem beq (rs : Reg) (rt : Reg) (off : Half) : Statement (.beq rs rt off) :=
  of_pack _ 0 1 _ rfl (by decide) (by decide) (packI_lt _ _ _) rfl (by decide)

theorem bne (rs : Reg) (rt : Reg) (off : Half) : Statement (.bne rs rt off) :=
  of_pack _ 0 2 _ rfl (by decide) (by decide) (packI_lt _ _ _) rfl (by decide)

theorem bgtz (rs : Reg) (off : Half) : Statement (.bgtz rs off) :=
  of_pack _ 0 3 _ rfl (by decide) (by decide) (packI_lt _ _ _) rfl (by decide)

theorem sw (base : Reg) (rt : Reg) (off : Half) : Statement (.sw base rt off) :=
  of_pack _ 0 4 _ rfl (by decide) (by decide) (packI_lt _ _ _) rfl (by decide)

theorem lw (base : Reg) (rt : Reg) (off : Half) : Statement (.lw base rt off) :=
  of_pack _ 0 5 _ rfl (by decide) (by decide) (packI_lt _ _ _) rfl (by decide)

theorem brk : Statement (.brk) :=
  of_pack _ 0 6 _ rfl (by decide) (by decide) (by decide) rfl (by decide)

theorem add (rd : Reg) (ra : Reg) (rb : Reg) : Statement (.add rd ra rb) :=
  of_pack _ 1 0 _ rfl (by decide) (by decide) (packR_lt _ _ _) rfl (by decide)

theorem sub (rd : Reg) (ra : Reg) (rb : Reg) : Statement (.sub rd ra rb) :=
  of_pack _ 1 1 _ rfl (by decide) (by decide) (packR_lt _ _ _) rfl (by decide)

theorem and (rd : Reg) (ra : Reg) (rb : Reg) : Statement (.and rd ra rb) :=
  of_pack _ 1 2 _ rfl (by decide) (by decide) (packR_lt _ _ _) rfl (by decide)

theorem or (rd : Reg) (ra : Reg) (rb : Reg) : Statement (.or rd ra rb) :=
  of_pack _ 1 3 _ rfl (by decide) (by decide) (packR_lt _ _ _) rfl (by decide)

theorem srl (rd : Reg) (ra : Reg) (rb : Reg) : Statement (.srl rd ra rb) :=
  of_pack _ 1 4 _ rfl (by decide) (by decide) (packR_lt _ _ _) rfl (by decide)

theorem sra (rd : Reg) (ra : Reg) (rb : Reg) : Statement (.sra rd ra rb) :=
  of_pack _ 1 5 _ rfl (by decide) (by decide) (packR_lt _ _ _) rfl (by decide)

theorem addi (rd : Reg) (ra : Reg) (imm : Half) : Statement (.addi rd ra imm) :=
  of_pack _ 2 0 _ rfl (by decide) (by decide) (packI_lt _ _ _) rfl (by decide)

theorem andi (rd : Reg) (ra : Reg) (imm : Half) : Statement (.andi rd ra imm) :=
  of_pack _ 2 1 _ rfl (by decide) (by decide) (packI_lt _ _ _) rfl (by decide)

theorem ori (rd : Reg) (ra : Reg) (imm : Half) : Statement (.ori rd ra imm) :=
  of_pack _ 2 2 _ rfl (by decide) (by decide) (packI_lt _ _ _) rfl (by decide)

theorem mult (ra : Reg) (rb : Reg) : Statement (.mult ra rb) :=
  of_pack _ 3 0 _ rfl (by decide) (by decide) (packI_lt _ _ _) rfl (by decide)

theorem div (ra : Reg) (rb : Reg) : Statement (.div ra rb) :=
  of_pack _ 3 1 _ rfl (by decide) (by decide) (packI_lt _ _ _) rfl (by decide)

theorem mfhi (rd : Reg) : Statement (.mfhi rd) :=
  of_pack _ 4 0 _ rfl (by decide) (by decide) (packI_lt _ _ _) rfl (by decide)

theorem mflo (rd : Reg) : Statement (.mflo rd) :=
  of_pack _ 4 1 _ rfl (by decide) (by decide) (packI_lt _ _ _) rfl (by decide)

end Sys2Proof.Laws.OpcodeBits
end

