-- ==== Sys2Proof/Laws/Window.lean ====
section
/-! SUPPORT. What the issue scan and the fetch loop leave behind, as written apart in Machine/Reference.lean: facts that
hold of every generation, for citing where a claim follows records from one cycle to the next. -/

namespace Sys2Proof.Machine

/-! ### The issue scan -/

/-- After the scan of the window `fw` of generation `g` (R240 to R248): which records stay, what each queue gains, which
registers are marked, and that every marked register has exactly one new writer. -/
structure IssueFacts (c : Setup) (g : Gen) (fw : List Rec) (a : Reference.Issue) : Prop where
  kept : a.kept.Sublist fw
  enq : ∀ k, ∀ r ∈ a.enq.get k, ∃ b ∈ fw, queueOf b.instr = some k ∧
    r = { b with v1 := g.rfGet (src1Of b.instr), v2 := g.rfGet (src2Of b.instr) }
  marksFree : ∀ r ∈ a.marks, g.aw.flag r = false
  cap : ∀ k, (a.enq.get k).length = 0 ∨ (g.queues.get k).length + (a.enq.get k).length ≤ 2
  awFree : ∀ k, ∀ b ∈ a.enq.get k, ∀ r, r ∈ readsOf b.instr ∨ r ∈ writesOf b.instr → g.aw.flag r = false
  count : ∀ r, writersIn a.enq.ls r + writersIn a.enq.div r + writersIn a.enq.mul r + writersIn a.enq.alu r
    = if r ∈ a.marks then 1 else 0

theorem Queues.get_push (q : Queues) (k k' : QueueId) (r : Rec) :
    (q.push k r).get k' = if k' = k then q.get k ++ [r] else q.get k' := by
  cases k <;> cases k' <;> simp [Queues.push, Queues.get]

@[simp] theorem Queues.get_empty (k : QueueId) : Queues.empty.get k = [] := by
  cases k <;> rfl

theorem writersIn_append (a b : List Rec) (r : PReg) : writersIn (a ++ b) r = writersIn a r + writersIn b r := by
  simp [writersIn]

theorem writersIn_singleton (b : Rec) (r : PReg) : writersIn [b] r = if r ∈ writesOf b.instr then 1 else 0 := by
  simp [writersIn]

/-- Pushing a record adds its writes to the writers of the four queues. -/
theorem writersIn_push (q : Queues) (k : QueueId) (b : Rec) (r : PReg) :
    writersIn (q.push k b).ls r + writersIn (q.push k b).div r + writersIn (q.push k b).mul r
        + writersIn (q.push k b).alu r
      = writersIn q.ls r + writersIn q.div r + writersIn q.mul r + writersIn q.alu r
        + if r ∈ writesOf b.instr then 1 else 0 := by
  have hw := writersIn_singleton b r
  cases k <;> simp only [Queues.push, writersIn_append, hw] <;> omega

theorem issueOne_facts {c : Setup} {g : Gen} {pre : List Rec} {a : Reference.Issue} (older : List Rec) (b : Rec)
    (h : IssueFacts c g pre a) : IssueFacts c g (pre ++ [b]) (Reference.issueOne c g older a b) := by
  have hkeep : IssueFacts c g (pre ++ [b]) { a with kept := a.kept ++ [b] } :=
    ⟨h.kept.append (List.Sublist.refl _), fun k r hr => let ⟨x, hx, e⟩ := h.enq k r hr; ⟨x, by simp [hx], e⟩,
      h.marksFree, h.cap, h.awFree, h.count⟩
  unfold Reference.issueOne
  split
  · exact hkeep
  · rename_i k hq
    split
    case isFalse => exact hkeep
    case isTrue hi =>
      simp only [Reference.issues, Bool.and_eq_true, List.all_eq_true, decide_eq_true_eq, Bool.not_eq_true',
        List.mem_append] at hi
      have ha := hi.1.1.1.1.1.1
      have hcap := hi.2
      refine ⟨h.kept.trans (List.sublist_append_left _ _), ?_, ?_, ?_, ?_, ?_⟩
      · intro k' r hr
        rw [Queues.get_push] at hr
        by_cases e : k' = k
        · simp only [e, if_true, List.mem_append, List.mem_singleton] at hr
          rcases hr with hr | hr
          · obtain ⟨x, hx, e'⟩ := h.enq k r hr
            exact ⟨x, by simp [hx], by rw [e]; exact e'⟩
          · exact ⟨b, by simp, by rw [e]; exact ⟨hq, hr⟩⟩
        · rw [if_neg e] at hr
          obtain ⟨x, hx, e'⟩ := h.enq k' r hr
          exact ⟨x, by simp [hx], e'⟩
      · intro r hr
        rcases List.mem_append.1 hr with hr | hr
        · exact h.marksFree r hr
        · exact (ha r (.inr hr)).1
      · intro k'
        simp only [Queues.get_push]
        by_cases e : k' = k
        · subst e
          right
          simp only [if_true, List.length_append, List.length_singleton]
          omega
        · rw [if_neg e]
          exact h.cap k'
      · intro k' x hx
        rw [Queues.get_push] at hx
        by_cases e : k' = k
        · simp only [e, if_true, List.mem_append, List.mem_singleton] at hx
          rcases hx with hx | hx
          · exact h.awFree k x hx
          · subst hx
            intro r hr
            exact (ha r hr).1
        · rw [if_neg e] at hx
          exact h.awFree k' x hx
      · intro r
        have hc := h.count r
        have hdis : r ∈ writesOf b.instr → r ∉ a.marks := fun hr => by simpa using (ha r (.inr hr)).2
        have hp := writersIn_push a.enq k { b with v1 := g.rfGet (src1Of b.instr), v2 := g.rfGet (src2Of b.instr) } r
        simp only [hp, hc]
        by_cases h1 : r ∈ writesOf b.instr
        · simp [h1, hdis h1]
        · simp [h1]

theorem issueScan_facts {c : Setup} {g : Gen} (fw older pre : List Rec) (a : Reference.Issue) (h : IssueFacts c g pre a) :
    IssueFacts c g (pre ++ fw) (Reference.issueScan c g older fw a) := by
  induction fw generalizing older pre a with
  | nil => simpa [Reference.issueScan] using h
  | cons b fw ih => simpa [Reference.issueScan] using ih (older ++ [b]) (pre ++ [b]) _ (issueOne_facts older b h)

/-- The facts of the scan of the whole window. -/
theorem issue_facts (c : Setup) (g : Gen) : IssueFacts c g g.fw (Reference.issue c g) := by
  have := issueScan_facts (c := c) (g := g) g.fw [] [] { marks := [], kept := [], enq := Queues.empty }
    ⟨by simp, by simp, by simp, by simp, by simp, by simp [Queues.empty, writersIn]⟩
  simpa [Reference.issue] using this

/-! ### The fetch loop -/

/-- The record is at an address in range, holds the memory word there, and is what that word decodes to. -/
def FetchedFrom (c : Setup) (g : Gen) (b : Rec) : Prop :=
  c.inRange b.addr = true ∧ b.word = g.mem.get b.addr.toNat ∧ decode b.word = some b.instr

/-- After a fetch stage that ran the loop of R223 on generation `g`: the fetch registers `r` and the new records. -/
structure FetchFacts (c : Setup) (g : Gen) (r : FetchRegs) (new : List Rec) : Prop where
  atMostFour : new.length ≤ 4
  atMostFree : new.length ≤ 8 - g.fw.length
  recs : ∀ k b, new[k]? = some b →
    b.addr = g.fetch.pc + BitVec.ofNat 32 (4 * k) ∧ FetchedFrom c g b ∧ endsFetch b.instr = false
  halt : r.haltReq = true → r.stalled = none ∧ r.resolved = g.fetch.resolved ∧ c.inRange r.pc = true ∧
    decode (g.mem.get r.pc.toNat) = some .brk
  stalled : ∀ b ∈ r.stalled, isBranch b.instr = true ∧ FetchedFrom c g b ∧ b.addr = r.pc ∧ r.haltReq = false
  resolved : ∀ b ∈ r.resolved, g.fetch.resolved = some b ∨ FetchedFrom c g b

theorem pc_advance (a : Word) (k : Nat) :
    (a + BitVec.ofNat 32 (4 * k)) + 4#32 = a + BitVec.ofNat 32 (4 * (k + 1)) := by
  rw [BitVec.add_assoc]
  congr 1
  apply BitVec.eq_of_toNat_eq
  simp
  omega

theorem fetchLoop_facts {c : Setup} {g : Gen} (hs : g.fetch.stalled = none) (hh : g.fetch.haltReq = false) (n : Nat)
    (p : Word) (old : List Rec) (r : FetchRegs) (new : List Rec)
    (hp : p = g.fetch.pc + BitVec.ofNat 32 (4 * old.length)) (h4 : old.length + n ≤ 4)
    (h8 : old.length ≤ 8 - g.fw.length)
    (hr : ∀ k b, old[k]? = some b →
      b.addr = g.fetch.pc + BitVec.ofNat 32 (4 * k) ∧ FetchedFrom c g b ∧ endsFetch b.instr = false)
    (h : Reference.fetchLoop c g n p old = .ok (r, new)) : FetchFacts c g r new := by
  induction n generalizing p old with
  | zero =>
    simp only [Reference.fetchLoop] at h
    injection h with h
    injection h with h1 h2
    subst h1 h2
    exact ⟨by omega, h8, hr, by simp [hh], by simp [hs], fun b hb => .inl hb⟩
  | succ n ih =>
    simp only [Reference.fetchLoop] at h
    split at h
    case isFalse =>
      injection h with h
      injection h with h1 h2
      subst h1 h2
      exact ⟨by omega, h8, hr, by simp [hh], by simp [hs], fun b hb => .inl hb⟩
    case isTrue hc =>
      split at h
      · cases h
      · rename_i i hd
        have hin : c.inRange p = true := by rw [inRange_iff]; exact hc.2
        have hrec : FetchedFrom c g { addr := p, word := g.mem.get p.toNat, instr := i, v1 := 0#32, v2 := 0#32 } :=
          ⟨hin, rfl, hd⟩
        split at h
        · rename_i hb
          injection h with h
          injection h with h1 h2
          subst h1 h2
          exact ⟨by omega, h8, hr, fun _ => ⟨hs, rfl, hin, by rw [hd, hb]⟩, by simp [hs], fun b hb => .inl hb⟩
        · rename_i hnb
          split at h
          · rename_i hb
            split at h
            · injection h with h
              injection h with h1 h2
              subst h1 h2
              refine ⟨by omega, h8, hr, by simp [hh], by simp, fun b hb' => ?_⟩
              obtain rfl := Option.mem_some_iff.1 hb'
              exact .inr hrec
            · injection h with h
              injection h with h1 h2
              subst h1 h2
              refine ⟨by omega, h8, hr, by simp [hh], fun b hb' => ?_, fun b hb => .inl hb⟩
              obtain rfl := Option.mem_some_iff.1 hb'
              exact ⟨hb, hrec, rfl, hh⟩
          · rename_i hb
            refine ih (p + 4#32) _ (by rw [hp, pc_advance]; simp) (by simp; omega) (by simp; omega) ?_ h
            intro k b hk
            by_cases hlt : k < old.length
            · rw [List.getElem?_append_left hlt] at hk
              exact hr k b hk
            · rw [List.getElem?_append_right (by omega)] at hk
              have hk0 : k = old.length := by
                by_contra hne
                rw [List.getElem?_eq_none (by simp; omega)] at hk
                cases hk
              subst hk0
              simp only [Nat.sub_self, List.getElem?_cons_zero, Option.some.injEq] at hk
              subst hk
              refine ⟨hp, hrec, ?_⟩
              rw [Bool.eq_false_iff, Ne, endsFetch_iff]
              simp [hnb, hb]

/-- The facts of a fetch stage that was free to fetch: no halt requested and no branch stalled. -/
theorem fetch_facts {c : Setup} {g : Gen} {r : FetchRegs} {new : List Rec} (h : Reference.fetch c g = .ok (r, new))
    (h1 : g.fetch.haltReq = false) (h2 : g.fetch.stalled = none) : FetchFacts c g r new := by
  simp only [Reference.fetch, h1, h2] at h
  exact fetchLoop_facts h2 h1 4 g.fetch.pc [] r new (by simp) (by simp) (by simp) (by simp) h

/-! ### The next generation put together -/

/-- A set of flags is given by its flags. -/
theorem Scoreboard.eq_ofFlags (aw : Scoreboard) (f : PReg → Bool) (h : ∀ r, aw.flag r = f r) :
    aw = { x := Vector.ofFn (fun i => f (.x i)), hi := f .hi, lo := f .lo } := by
  apply Scoreboard.ext_flag
  intro r
  rw [h]
  cases r <;> simp [Scoreboard.flag]

/-- The four writebacks, one after another, as the registers written apart (R280 to R285). -/
theorem writeback_regs (g : Gen) :
    putPair (putPair
        { x := putLatch (putLatch g.regs.x g.latches.aluo) g.latches.memo, hi := g.regs.hi, lo := g.regs.lo }
        g.latches.divo) g.latches.mul3o
      = { x := Reference.regsX g, hi := (Reference.hiLo g).1, lo := (Reference.hiLo g).2 } := by
  simp only [Reference.regsX, Reference.hiLo]
  cases g.latches.divo <;> cases g.latches.mul3o <;> rfl

/-- A register read after a writeback from a general latch. -/
theorem putLatch_get (x : Vector Word 32) (o : Option Latch) (j : Reg) :
    (putLatch x o)[j] = match o with
      | some l => if destOf l.ins.instr = .gpr j then l.value else x[j]
      | none => x[j] := by
  cases o with
  | none => rfl
  | some l =>
    unfold putLatch
    cases hd : destOf l.ins.instr with
    | none => simp [hd]
    | hilo => simp [hd]
    | gpr i =>
      by_cases e : i = j
      · subst e; simp [hd]
      · have hn : (i : Nat) ≠ j := fun h => e (Fin.ext h)
        simp [hd, e, hn]

end Sys2Proof.Machine
end

