-- ==== Sys2Proof/Tests/Slice0.lean ====
section
/-! SUPPORT. The model's own tests. Expected values come from the spec: words and results from 95_test_vectors.md (its
row ids are named) or written out field by field from 30_encoding.md. The last part shows, for every obligation with
hypotheses, a state and operands that meet them. -/

namespace Sys2Proof.Tests

open Sys2Proof.Machine

/-! ### Helpers -/

/-- The outcome is a next state with the property. -/
def nextIs (o : Out) (p : State → Bool) : Bool :=
  match o with
  | .next s => p s
  | _ => false

/-- The outcome is this fault. -/
def faultIs (o : Out) (f : Fault) : Bool :=
  match o with
  | .fault g => g == f
  | _ => false

theorem exists_next {o : Out} {p : State → Bool} (h : nextIs o p = true) : ∃ t, o = .next t ∧ p t = true := by
  cases o with
  | next s => exact ⟨s, rfl, h⟩
  | fault f => cases h
  | refused r => cases h

theorem is_next {o : Out} (h : nextIs o (fun _ => true) = true) : ∃ t, o = .next t :=
  let ⟨t, ht, _⟩ := exists_next h
  ⟨t, ht⟩

theorem is_fault {o : Out} {f : Fault} (h : faultIs o f = true) : o = .fault f := by
  cases o with
  | next s => cases h
  | fault g => rw [eq_of_beq (h : (g == f) = true)]
  | refused r => cases h

/-- The state after `n` completed cycles. -/
def after : Nat → State → Option State
  | 0, s => some s
  | n + 1, s =>
    match s.status, cycle s with
    | .running, .next t => after n t
    | _, _ => none

theorem cycles_of_after {n : Nat} {s t : State} (h : after n s = some t) : Cycles n s t := by
  induction n generalizing s with
  | zero => exact (Option.some.inj h).symm
  | succ n ih =>
    unfold after at h
    split at h
    · rename_i u hs hc
      exact ⟨u, hs, hc, ih h⟩
    · cases h

theorem exists_cycles {n : Nat} {s : State} (h : (after n s).isSome = true) : ∃ t, Cycles n s t :=
  let ⟨t, ht⟩ := Option.isSome_iff_exists.1 h
  ⟨t, cycles_of_after ht⟩

/-- A record of the word `w` at `addr` with captured operands. -/
def recOf (addr w v1 v2 : Word) : Rec := { addr := addr, word := w, instr := (decode w).getD .brk, v1 := v1, v2 := v2 }

/-- ALU1's result for a word on two captured operands, through `exec`. -/
def aluTest (w v1 v2 result : Word) : Bool :=
  let b := recOf 256#32 w v1 v2
  nextIs (exec b.instr (State.reset.present (.alu1 b))) (fun t => t.next.latches.aluo == some ⟨b, result⟩)

/-- A state between cycles with a memory of eight words, 256 to 288, and the data segment from 272. -/
def settledAt (g : Gen) : State :=
  { cur := g, next := g, work := Work.fresh, status := .running, cycles := 0
    setup := { words := 8, dataStart := 272, wawCheck := false } }

/-- The flags of these registers set. -/
def awaiting (ds : List DRef) : Scoreboard := ds.foldl Scoreboard.mark Scoreboard.clear

/-- Nothing in flight, and the fetch pointer just out of range, so that nothing is fetched. -/
def idle : Gen := { Gen.reset with fetch := { Gen.reset.fetch with pc := 288#32 }, mem := [(276, 7#32)] }

/-! ### WellFormed -/

theorem test_image_empty_refused : imageOk [] = false := by decide
theorem test_image_one_word : imageOk [0#32] = true := by decide
theorem test_image_load_empty : State.load [] false = .refused .badImage := rfl
theorem test_address_misaligned_refused : instrAddrOk 258#32 = false := by decide
theorem test_address_below_memory_refused : instrAddrOk 252#32 = false := by decide
theorem test_address_lowest : instrAddrOk 256#32 = true := by decide

/-- R5's bound: the longest image ends at `2^27`, and one word more is refused. -/
theorem test_image_too_long_refused (image : List Word) (h : image.length = 33554369) : imageOk image = false := by
  simp [imageOk, h, Config.addrBound, Config.minAddr]

/-! ### Decoding: words of 95_test_vectors.md section 2.1 (E1 to E34), every constructor -/

theorem test_decode_j : decode 0x00000044#32 = some (.j 68) ∧ decode 0x03FFFFFF#32 = some (.j 0x3FFFFFF) := by decide
theorem test_decode_beq : decode 0x0422FFFF#32 = some (.beq 1 2 0xFFFF) ∧
    decode 0x07FF7FFF#32 = some (.beq 31 31 0x7FFF) := by decide
theorem test_decode_bne : decode 0x08648000#32 = some (.bne 3 4 0x8000) := by decide
theorem test_decode_bgtz : decode 0x0CA00003#32 = some (.bgtz 5 3) ∧ decode 0x0C3F0001#32 = some (.bgtz 1 1) := by decide
theorem test_decode_sw : decode 0x1107FFFC#32 = some (.sw 8 7 0xFFFC) := by decide
theorem test_decode_lw : decode 0x15497FFF#32 = some (.lw 10 9 0x7FFF) ∧ decode 0x15498000#32 = some (.lw 10 9 0x8000) := by
  decide
theorem test_decode_break : decode 0x18000000#32 = some .brk ∧ decode 0x1BFFFFFF#32 = some .brk := by decide
theorem test_decode_add : decode 0x20200000#32 = some (.add 1 0 0) ∧ decode 0x200007FF#32 = some (.add 0 0 0) := by decide
theorem test_decode_sub : decode 0x27FEE800#32 = some (.sub 31 30 29) := by decide
theorem test_decode_and : decode 0x28221800#32 = some (.and 1 2 3) := by decide
theorem test_decode_or : decode 0x2C853000#32 = some (.or 4 5 6) := by decide
theorem test_decode_srl : decode 0x30E84800#32 = some (.srl 7 8 9) := by decide
theorem test_decode_sra : decode 0x354B6000#32 = some (.sra 10 11 12) := by decide
theorem test_decode_addi : decode 0x40200005#32 = some (.addi 1 0 5) ∧ decode 0x40228000#32 = some (.addi 1 2 0x8000) := by
  decide
theorem test_decode_andi : decode 0x4464FFFF#32 = some (.andi 3 4 0xFFFF) := by decide
theorem test_decode_ori : decode 0x48A68000#32 = some (.ori 5 6 0x8000) := by decide
theorem test_decode_mult : decode 0x60220000#32 = some (.mult 1 2) := by decide
theorem test_decode_div : decode 0x64640000#32 = some (.div 3 4) := by decide
theorem test_decode_mfhi : decode 0x80A00000#32 = some (.mfhi 5) ∧ decode 0x83FFFFFF#32 = some (.mfhi 31) := by decide
theorem test_decode_mflo : decode 0x87E00000#32 = some (.mflo 31) := by decide

/-- The illegal words of section 2.1. -/
theorem test_decode_illegal :
    [0x1C000000#32, 0x38000000#32, 0x3C000000#32, 0x4C000000#32, 0x5C000000#32, 0x68000000#32, 0x7C000000#32,
      0x88000000#32, 0x9C000000#32, 0xA0000000#32, 0xE0000000#32, 0xFFFFFFFF#32].all (fun w => decode w == none) = true := by
  decide

/-- The formats J, B, M, R, I, D and F, field by field (30_encoding.md R62 to R69). -/
theorem test_decode_fields :
    decode (0b000000#6 ++ 0b00000000000000000001000100#26) = some (.j 68) ∧
    decode (0b000010#6 ++ 0b00011#5 ++ 0b00100#5 ++ 0b1000000000000001#16) = some (.bne 3 4 0x8001) ∧
    decode (0b000101#6 ++ 0b01010#5 ++ 0b01001#5 ++ 0b0000000000000100#16) = some (.lw 10 9 4) ∧
    decode (0b001001#6 ++ 0b00001#5 ++ 0b00010#5 ++ 0b00100#5 ++ 0b00000000000#11) = some (.sub 1 2 4) ∧
    decode (0b010001#6 ++ 0b00011#5 ++ 0b00101#5 ++ 0b1111000011110000#16) = some (.andi 3 5 0xF0F0) ∧
    decode (0b011001#6 ++ 0b00011#5 ++ 0b00100#5 ++ 0b0000000000000000#16) = some (.div 3 4) ∧
    decode (0b100001#6 ++ 0b11111#5 ++ 0b000000000000000000000#21) = some (.mflo 31) := by decide

/-- The ignored bits come back as zeros (section 2.1, "Round trip"). -/
theorem test_encode_ignored_bits_zero :
    encode (.bgtz 1 1) = 0x0C200001#32 ∧ encode .brk = 0x18000000#32 ∧ encode (.add 0 0 0) = 0x20000000#32 ∧
    encode (.mfhi 31) = 0x83E00000#32 ∧ encode (.sw 8 7 0xFFFC) = 0x1107FFFC#32 := by decide

/-- The immediates and targets of E2, E3, E5, E7, E9, E12, E25, E27 and E28. -/
theorem test_immediates_and_targets :
    targetOf (.j 68) 264#32 = 0x110#32 ∧ targetOf (.j 0x3FFFFFF) 256#32 = 0x0FFFFFFC#32 ∧
    targetOf (.beq 1 2 0xFFFF) 256#32 = 0x100#32 ∧ targetOf (.bne 3 4 0x8000) 256#32 = 0xFFFE0104#32 ∧
    targetOf (.bgtz 1 1) 256#32 = 0x108#32 ∧ immOf (.lw 10 9 0x7FFF) = 0x7FFF#32 ∧
    immOf (.addi 1 2 0x8000) = 0xFFFF8000#32 ∧ immOf (.andi 3 4 0xFFFF) = 0xFFFF#32 ∧
    immOf (.ori 5 6 0x8000) = 0x8000#32 := by decide

/-! ### Units (95_test_vectors.md sections 2.5 to 2.9) -/

theorem test_add : aluTest 0x20200000#32 0x7FFFFFFF#32 1#32 0x80000000#32 = true := by decide           -- A1
theorem test_sub : aluTest 0x27FEE800#32 1#32 4#32 0xFFFFFFFD#32 = true := by decide                    -- A8
theorem test_and : aluTest 0x28221800#32 0xFFFFFF00#32 0x0000FFFF#32 0x0000FF00#32 = true := by decide  -- A10
theorem test_or : aluTest 0x2C853000#32 0x00000F0F#32 1#32 0x00000F0F#32 = true := by decide            -- A12
theorem test_srl : aluTest 0x30E84800#32 0x80000000#32 33#32 0x40000000#32 = true := by decide          -- A17
theorem test_srl_31 : aluTest 0x30E84800#32 0x80000000#32 0xFFFFFFFF#32 1#32 = true := by decide        -- A18
theorem test_sra : aluTest 0x354B6000#32 0x80000000#32 33#32 0xC0000000#32 = true := by decide          -- A24
theorem test_sra_positive : aluTest 0x354B6000#32 0x7FFFFFFF#32 4#32 0x07FFFFFF#32 = true := by decide  -- A25
theorem test_addi : aluTest 0x40208000#32 0#32 0#32 0xFFFF8000#32 = true := by decide                   -- I2
theorem test_andi : aluTest 0x44648000#32 0xFFFFFFFF#32 0#32 0x00008000#32 = true := by decide          -- I7
theorem test_ori : aluTest 0x48A68000#32 0#32 0#32 0x00008000#32 = true := by decide                    -- I9
theorem test_mfhi : aluTest 0x80A00000#32 0xFFFFFFFF#32 0#32 0xFFFFFFFF#32 = true := by decide          -- MF2

/-- MU3 and MU8. -/
theorem test_mult :
    productHi 0xFFFFFFF9#32 3#32 = 0xFFFFFFFF#32 ∧ productLo 0xFFFFFFF9#32 3#32 = 0xFFFFFFEB#32 ∧
    productHi 0x7FFFFFFF#32 0x80000000#32 = 0xC0000000#32 ∧ productLo 0x7FFFFFFF#32 0x80000000#32 = 0x80000000#32 := by
  decide

/-- DV2, DV3, DV9 and DV13. -/
theorem test_div :
    quotient 0xFFFFFFF9#32 3#32 = 0xFFFFFFFE#32 ∧ remainder 0xFFFFFFF9#32 3#32 = 0xFFFFFFFF#32 ∧
    quotient 7#32 0xFFFFFFFD#32 = 0xFFFFFFFE#32 ∧ remainder 7#32 0xFFFFFFFD#32 = 1#32 ∧
    quotient 0x80000000#32 0xFFFFFFFF#32 = 0x80000000#32 ∧ remainder 0x80000000#32 0xFFFFFFFF#32 = 0#32 ∧
    quotient 1#32 0x80000000#32 = 0#32 ∧ remainder 1#32 0x80000000#32 = 1#32 := by decide

/-- DV15: the fault names the address of the DIV. -/
theorem test_div_by_zero :
    faultIs (exec (.div 1 0) (State.reset.present (.div (recOf 260#32 0x64200000#32 9#32 0#32))))
      (.divideByZero 260#32) = true := by decide

/-- MF4: a flag on LO keeps MFLO in the window. -/
theorem test_mflo_waits :
    (settledAt { idle with aw := awaiting [.hilo] }).canIssue (.mflo 3) .alu = false ∧
      (settledAt idle).canIssue (.mflo 3) .alu = true := by decide

/-! ### Branches (section 2.2) through one step -/

/-- A step of a machine whose registers R1 and R2 hold the values, with the word at `addr`: the `pc` it leaves. -/
def branchTest (addr w r1 r2 pc : Word) : Bool :=
  let g := { Gen.reset with
    fetch := { Gen.reset.fetch with pc := addr }
    regs := { Gen.reset.regs with x := (Gen.reset.regs.x.set 1 r1).set 2 r2 } }
  nextIs (step ((settledAt g).withNextWord w)) (fun t => t.cur.fetch.pc == pc && t.cur.fetch.stalled == none)

theorem test_j : branchTest 264#32 0x00000044#32 0#32 0#32 272#32 = true := by decide                      -- BR1
theorem test_beq_taken : branchTest 260#32 0x04220002#32 5#32 5#32 272#32 = true := by decide              -- BR2
theorem test_beq_not_taken : branchTest 260#32 0x04220002#32 5#32 6#32 264#32 = true := by decide          -- BR3
theorem test_bne_taken : branchTest 272#32 0x08200001#32 1#32 0#32 280#32 = true := by decide              -- BR5
theorem test_bgtz_taken : branchTest 280#32 0x0C20FFFB#32 2#32 0#32 264#32 = true := by decide             -- BR7
theorem test_bgtz_negative : branchTest 280#32 0x0C20FFFB#32 0x80000000#32 0#32 284#32 = true := by decide -- BR9

/-! ### Load, store and BREAK (sections 2.3, 2.4), in a memory from 256 to 288 with data from 272 -/

theorem test_lw_top_faults :
    faultIs (exec (.lw 2 4 0) ((settledAt idle).present (.mem (recOf 256#32 0x14440000#32 288#32 0#32) 288#32)))
      (.memAddress 288#32) = true := by decide
theorem test_lw_last_word :
    nextIs (exec (.lw 2 4 0) ((settledAt idle).present (.mem (recOf 256#32 0x14440000#32 276#32 0#32) 276#32)))
      (fun t => t.next.latches.memo.map Latch.value == some 7#32) = true := by decide

/-- LS12: below `DATA_START` wins over misalignment. -/
theorem test_sw_code_first :
    faultIs (exec (.sw 2 3 0) ((settledAt idle).present (.mem (recOf 256#32 0x10430000#32 257#32 25#32) 257#32)))
      (.storeToCode 257#32) = true := by decide
theorem test_sw_stores :
    nextIs (exec (.sw 2 3 0) ((settledAt idle).present (.mem (recOf 256#32 0x10430000#32 272#32 25#32) 272#32)))
      (fun t => t.next.mem == [(272, 25#32), (276, 7#32)] && t.next.latches.memo == none) = true := by decide

/-- T1: an image that is one BREAK halts after its first cycle, with `pc` at the BREAK. -/
theorem test_break_halts :
    nextIs (step (State.reset.withFetchWord 32 0x18000000))
      (fun t => t.status == .halted && t.cycles == 1 && t.cur.fetch.pc == 256#32) = true := by decide

/-! ### A step runs the table's word -/

theorem test_step_addi :
    nextIs (step (State.reset.withFetchWord 32 0x40200005))
      (fun t => t.cur.fw.map Rec.instr == [.addi 1 0 5] && t.cur.fetch.pc == 260#32) = true := by decide

/-- F3b: an illegal word faults in the cycle that fetches it; nothing else changes (R306). -/
theorem test_step_illegal :
    nextIs (step (State.reset.withFetchWord 32 0xA0000000))
      (fun t => t.status == .faulted (.decode 256#32 0xA0000000#32) && t.cur.fetch.pc == 256#32 && t.cycles == 0)
      = true := by decide

/-- IS5 and IS13: write after read holds the younger record back; so does a register marked in the same scan. -/
theorem test_issue_order :
    nextIs (issueStage (settledAt { idle with
        fw := [recOf 256#32 0x20610000#32 0#32 0#32, recOf 260#32 0x40200009#32 0#32 0#32] }).openCycle)
      (fun t => t.work.enq.alu.map Rec.addr == [256#32] && t.work.kept.map Rec.addr == [260#32]) = true ∧
    nextIs (issueStage (settledAt { idle with
        fw := [recOf 256#32 0x40200001#32 0#32 0#32, recOf 260#32 0x40200002#32 0#32 0#32] }).openCycle)
      (fun t => t.work.enq.alu.map Rec.addr == [256#32] && t.work.kept.map Rec.addr == [260#32]) = true := by decide

/-- IS12: with HI and LO awaiting, ADDI R1 passes the MFLO R1 in front of it, unless `WAW_WINDOW_CHECK` is on. -/
theorem test_issue_waw_check :
    let g := { idle with
      fw := [recOf 256#32 0x84200000#32 0#32 0#32, recOf 260#32 0x40200007#32 0#32 0#32], aw := awaiting [.hilo] }
    let s := settledAt g
    nextIs (issueStage s.openCycle) (fun t => t.work.kept.map Rec.addr == [256#32]) = true ∧
    nextIs (issueStage { s with setup := { s.setup with wawCheck := true } }.openCycle)
      (fun t => t.work.kept.map Rec.addr == [256#32, 260#32]) = true := by decide

/-- IS8: a load waits for an older store. -/
theorem test_issue_memory_order :
    nextIs (issueStage (settledAt { idle with
        fw := [recOf 256#32 0x1001011C#32 0#32 0#32, recOf 260#32 0x1402011C#32 0#32 0#32] }).openCycle)
      (fun t => t.work.enq.ls.map Rec.addr == [256#32] && t.work.kept.map Rec.addr == [260#32]) = true := by decide

/-! ### States that meet the obligations' hypotheses -/

/-- ADD in `ALUQ`, SW and LW of one address in `LSQ`, MULT in `MULQ`. -/
def busyA : Gen := { idle with
  queues :=
    { ls := [recOf 256#32 0x10A40000#32 272#32 9#32, recOf 260#32 0x14E60000#32 272#32 0#32]
      div := []
      mul := [recOf 264#32 0x60220000#32 0xFFFFFFF9#32 3#32]
      alu := [recOf 268#32 0x20611000#32 5#32 3#32] }
  aw := awaiting [.gpr 3, .gpr 6, .hilo] }

/-- DIV in `DIVQ`, LW in `LSQ`, SW in `LSA`, LW in `MEMO`, ADDI in `ALUO`; two ADDIs and an ADD that needs them in the
window. -/
def busyB : Gen := { idle with
  fw := [recOf 256#32 0x41400001#32 0#32 0#32, recOf 260#32 0x41600002#32 0#32 0#32, recOf 264#32 0x218A5800#32 0#32 0#32]
  queues :=
    { ls := [recOf 268#32 0x14E60000#32 276#32 0#32]
      div := [recOf 272#32 0x64220000#32 7#32 3#32]
      mul := []
      alu := [] }
  latches := { Latches.empty with
    aluo := some ⟨recOf 256#32 0x41000005#32 0#32 0#32, 5#32⟩
    lsa := some ⟨recOf 260#32 0x10A40000#32 272#32 9#32, 272#32⟩
    memo := some ⟨recOf 264#32 0x14E90004#32 272#32 0#32, 7#32⟩ }
  aw := awaiting [.gpr 6, .gpr 8, .gpr 9, .hilo] }

/-- Every queue, every latch and the stalled slot full. -/
def full : Gen := { busyB with
  fetch := { busyB.fetch with stalled := some (recOf 284#32 0x04220002#32 0#32 0#32) }
  queues := { busyB.queues with mul := busyA.queues.mul, alu := busyA.queues.alu }
  latches := { busyB.latches with
    divo := some ⟨recOf 256#32 0x64220000#32 7#32 3#32, 1#32, 2#32⟩
    mul1o := some ⟨recOf 256#32 0x60220000#32 7#32 3#32, 0#32, 21#32⟩
    mul2o := some ⟨recOf 256#32 0x60220000#32 7#32 3#32, 0#32, 21#32⟩
    mul3o := some ⟨recOf 256#32 0x60220000#32 7#32 3#32, 0#32, 21#32⟩ } }

theorem idle_kinds : idle.KindsOk := by constructor <;> decide
theorem busyA_kinds : busyA.KindsOk := by constructor <;> decide
theorem busyB_kinds : busyB.KindsOk := by constructor <;> decide
theorem full_kinds : full.KindsOk := by constructor <;> decide

/-- A flag is exact at all 34 registers if it is at the 32 general ones, HI and LO. -/
theorem exact_of {g : Gen} (h : ∀ i : Reg, writersIn g.issued (.x i) = if g.aw.flag (.x i) then 1 else 0)
    (h1 : writersIn g.issued .hi = if g.aw.flag .hi then 1 else 0)
    (h2 : writersIn g.issued .lo = if g.aw.flag .lo then 1 else 0) : g.scoreboardOk := by
  intro r
  cases r with
  | x i => exact h i
  | hi => exact h1
  | lo => exact h2

theorem busyA_scoreboard : busyA.scoreboardOk := exact_of (by decide) (by decide) (by decide)
theorem busyB_scoreboard : busyB.scoreboardOk := exact_of (by decide) (by decide) (by decide)

theorem busyA_inv : (settledAt busyA).Inv where
  capacity := by unfold Gen.capacityOk; decide
  kinds := busyA_kinds
  pc := by unfold Gen.pcOk; decide
  records := by unfold Rec.ok; decide
  scoreboard := busyA_scoreboard
  pair := by unfold Gen.pairOk; decide
  halt := by unfold Gen.haltOk; decide
  mem := by unfold memOk; decide
  setup := by unfold Setup.ok; decide

theorem busyB_inv : (settledAt busyB).Inv where
  capacity := by unfold Gen.capacityOk; decide
  kinds := busyB_kinds
  pc := by unfold Gen.pcOk; decide
  records := by unfold Rec.ok; decide
  scoreboard := busyB_scoreboard
  pair := by unfold Gen.pairOk; decide
  halt := by unfold Gen.haltOk; decide
  mem := by unfold memOk; decide
  setup := by unfold Setup.ok; decide

/-! ### Witnesses: encodings and decoding -/

/-- DecodeOfEncode, BitsOutsideFieldsIgnored: a word with its ignored bits zero, and one with some set. -/
theorem witness_decode : decode 0x20200000#32 = some (.add 1 0 0) ∧ decode 0x200007FF#32 = some (.add 0 0 0) := by decide

theorem witness_IllegalWordsFault :
    ((State.reset.withNextWord 0x1C000000#32).fetchOpen = true ∧
      decode (State.reset.withNextWord 0x1C000000#32).fetchWord = none) := by decide

theorem witness_TargetsAligned :
    (0x7FFFFFC#32).toNat % 4 = 0 ∧ (0x7FFFFFC#32).toNat < 2 ^ 27 := by decide

theorem witness_ImageText : wordOfLine ['0', '2'] = none ∧ (31 : Nat) < 32 := by decide

/-! ### Witnesses: the fetch stage -/

/-- JumpResolvesWhenFetched, BreakRequestsHalt, WindowEntry (for ADDI), EqualityBranchesResolve and
GreaterThanZeroBranchResolves (two sources ready, an unissued ADD that writes neither). -/
theorem witness_fetched :
    State.reset.work.station = .fetch ∧ queueOf (.addi 1 0 5) = some .alu ∧
    (settledAt { idle with fw := [recOf 256#32 0x20611000#32 0#32 0#32] }).work.station = .fetch ∧
    idle.aw.flag (.x 1) = false ∧ idle.aw.flag (.x 2) = false ∧
    ∀ j ∈ [recOf 256#32 0x20611000#32 0#32 0#32] ++ Work.fresh.newFw,
      PReg.x 1 ∉ writesOf j.instr ∧ PReg.x 2 ∉ writesOf j.instr := by decide

/-- StalledBranches, StalledBranchRetried: a branch whose source awaits, and one that is free to resolve. -/
theorem witness_stalled :
    isBranch (.beq 1 2 2) = true ∧ (settledAt { idle with aw := awaiting [.gpr 1] }).work.station = .fetch ∧
    canResolve (.beq 1 2 2) { idle with aw := awaiting [.gpr 1] } [] = false ∧
    ((settledAt idle).present (.retry (recOf 284#32 0x04220002#32 0#32 0#32))).work.station
      = .retry (recOf 284#32 0x04220002#32 0#32 0#32) ∧
    canResolve (.beq 1 2 2) idle [] = true := by decide

theorem witness_StalledBranchRetried_resolves :
    full.KindsOk ∧ full.fetch.haltReq = false ∧ full.fetch.stalled = some (recOf 284#32 0x04220002#32 0#32 0#32) ∧
      canResolve (recOf 284#32 0x04220002#32 0#32 0#32).instr full [] = true ∧ ∃ t, cycle (settledAt full) = .next t :=
  ⟨full_kinds, by decide, by decide, by decide, is_next (by decide)⟩

theorem witness_StalledBranchRetried_waits :
    canResolve (recOf 284#32 0x04220002#32 0#32 0#32).instr { full with aw := awaiting [.gpr 1] } [] = false ∧
      ∃ t, cycle (settledAt { full with aw := awaiting [.gpr 1] }) = .next t :=
  ⟨by decide, is_next (by decide)⟩

/-- StepRunsDecodedInstruction, WindowAfterCycle: a running machine that fetches an ADDI. -/
theorem witness_step :
    let s := State.reset.withNextWord 0x40200005#32
    s.fetchOpen = true ∧ decode s.fetchWord = some (.addi 1 0 5) ∧ s.status = .running ∧ s.cur.fetch.haltReq = false ∧
      s.cur.fetch.stalled = none ∧ s.cur.fw.length < 8 ∧ s.setup.inRange s.cur.fetch.pc = true := by decide

theorem witness_WindowAfterCycle :
    (State.reset.withNextWord 0x40200005#32).cur.KindsOk ∧
      ∃ t, cycle (State.reset.withNextWord 0x40200005#32) = .next t ∧ (t.cur.fw[0]?.isSome) = true :=
  ⟨by constructor <;> decide, exists_next (by decide)⟩

theorem witness_NothingFetchedAfterBreak :
    let s := settledAt { busyA with fetch := { busyA.fetch with pc := 284#32, haltReq := true } }
    s.cur.fetch.haltReq = true ∧ ∃ t, cycle s = .next t ∧ (t.status == .running) = true :=
  ⟨by decide, exists_next (by decide)⟩

/-- OutOfRangeFetchIdles, OutOfRangeFixedPoint: `MAX_ADDR` itself is out of range, and so is the word below 256. -/
theorem witness_out_of_range :
    (settledAt idle).settled ∧ (settledAt idle).status = .running ∧ idle.fetch.haltReq = false ∧
      idle.fetch.stalled = none ∧ idle.inFlight = false ∧ (settledAt idle).setup.inRange idle.fetch.pc = false ∧
      (settledAt idle).setup.maxAddr ≤ idle.fetch.pc.toNat ∧ (252#32).toNat < 256 :=
  ⟨⟨rfl, rfl⟩, by decide⟩

theorem witness_OnlyBreakRequestsHalt :
    (State.reset.withNextWord 0x18000000#32).cur.KindsOk ∧
      (State.reset.withNextWord 0x18000000#32).cur.fetch.haltReq = false ∧
      ∃ t, cycle (State.reset.withNextWord 0x18000000#32) = .next t ∧ t.cur.fetch.haltReq = true :=
  ⟨by constructor <;> decide, by decide, exists_next (by decide)⟩

/-- StagesRunTheirRecords: every slot of `full` is full. -/
theorem witness_StagesRunTheirRecords :
    full.fetch.haltReq = false ∧ full.fetch.stalled.isSome = true ∧ full.queues.alu ≠ [] ∧ full.queues.ls ≠ [] ∧
      full.queues.div ≠ [] ∧ full.queues.mul ≠ [] ∧ full.latches.lsa.isSome = true ∧ full.latches.mul1o.isSome = true ∧
      full.latches.mul2o.isSome = true ∧ full.latches.aluo.isSome = true ∧ full.latches.memo.isSome = true ∧
      full.latches.divo.isSome = true ∧ full.latches.mul3o.isSome = true := by decide

/-! ### Witnesses: issue -/

/-- IssueAction: a record that meets the conditions, and one whose queue is full. -/
theorem witness_IssueAction :
    let b := recOf 256#32 0x41400001#32 0#32 0#32
    let s := (settledAt busyB).present (.issue b)
    let t := (settledAt { busyB with queues := { busyB.queues with alu := [b, b] } }).present (.issue b)
    queueOf b.instr = some .alu ∧ s.work.station = .issue b ∧ s.canIssue b.instr .alu = true ∧
      t.work.station = .issue b ∧ t.canIssue b.instr .alu = false := by decide

theorem witness_SameCycleIssuesIndependent :
    ∃ u, issueStage (settledAt busyB).openCycle = .next u ∧ (u.work.enq.alu.length == 2) = true :=
  exists_next (by decide)

/-- QueuesAfterCycle, FlagsAfterCycle, ScoreboardStaysExact, EveryStepKeepsInvariant, CodeSegmentNeverWritten: a cycle
that issues two records, writes two back and stores. -/
theorem witness_busyB_cycle :
    busyB.KindsOk ∧ busyB.scoreboardOk ∧ (settledAt busyB).Inv ∧ (∃ r, r ∈ Reference.cleared busyB) ∧
      ∃ t, cycle (settledAt busyB) = .next t ∧
        (t.cur.queues.alu.length == 2 && (Reference.issue (settledAt busyB).setup busyB).marks.length == 2) = true :=
  ⟨busyB_kinds, busyB_scoreboard, busyB_inv, ⟨.x 8, by decide⟩, exists_next (by decide)⟩

theorem witness_EveryStepKeepsInvariant : (settledAt busyA).Inv ∧ ∃ t, step (settledAt busyA) = .next t :=
  ⟨busyA_inv, is_next (by decide)⟩

theorem witness_CodeSegmentNeverWritten :
    (settledAt busyB).Inv ∧ (0 : Nat) < (settledAt busyB).setup.dataStart ∧
      ∃ t, Reaches (settledAt busyB) t ∧ (t.cur.mem.get 272 == 9#32) = true :=
  let ⟨t, ht, hp⟩ := exists_next (o := step (settledAt busyB)) (p := fun t => t.cur.mem.get 272 == 9#32) (by decide)
  ⟨busyB_inv, by decide, t, Reaches.step Reaches.refl ht, hp⟩

/-! ### Witnesses: units and writeback -/

/-- AluRegisterResults, AluImmediateResults, MovesFromHiLo, EffectiveAddress, ExactProduct, MultiplierPassesOn: a state
at the station, for any record. -/
theorem witness_unit (b : Rec) (s : State) (hi lo : Word) :
    (s.present (.alu1 b)).work.station = .alu1 b ∧ (s.present (.alu2 b)).work.station = .alu2 b ∧
      (s.present (.mul1 b)).work.station = .mul1 b ∧ (s.present (.mul2 b hi lo)).work.station = .mul2 b hi lo ∧
      (s.present (.mul3 b hi lo)).work.station = .mul3 b hi lo := ⟨rfl, rfl, rfl, rfl, rfl⟩

/-- LoadAccess and StoreAccess at the ends of their ranges: 256 and 284 for a load, 272 and 284 for a store. -/
theorem witness_access :
    let b := recOf 256#32 0x14440000#32 256#32 25#32
    let s := (settledAt idle).present (.mem b 256#32)
    s.work.station = .mem b 256#32 ∧ s.next.mem.wf = true ∧ s.setup.dataStart = 272 ∧ s.setup.maxAddr = 288 ∧
      (∀ e ∈ [256#32, 284#32], e.toNat % 4 = 0 ∧ 256 ≤ e.toNat ∧ e.toNat < 288) ∧
      (∀ e ∈ [254#32, 252#32, 288#32], e.toNat % 4 ≠ 0 ∨ e.toNat < 256 ∨ 288 ≤ e.toNat) ∧
      (∀ e ∈ [272#32, 284#32], 272 ≤ e.toNat ∧ e.toNat % 4 = 0 ∧ e.toNat < 288) ∧ (268#32).toNat < 272 ∧
      (∀ e ∈ [274#32, 288#32], 272 ≤ e.toNat ∧ (e.toNat % 4 ≠ 0 ∨ 288 ≤ e.toNat)) :=
  ⟨rfl, by decide, rfl, rfl, by simp, by simp, by simp, by simp, by simp⟩

/-- QuotientAndRemainder and ZeroDivisorFaults: the one overflow, an ordinary division, a zero divisor. -/
theorem witness_division (b : Rec) :
    ((settledAt idle).present (.div b)).work.station = .div b ∧
      (recOf 256#32 0x64220000#32 0x80000000#32 0xFFFFFFFF#32).v2 ≠ 0#32 ∧
      (recOf 256#32 0x64220000#32 7#32 3#32).v2 ≠ 0#32 ∧ (recOf 256#32 0x64220000#32 9#32 0#32).v2 = 0#32 :=
  ⟨rfl, by decide⟩

/-- InternalFaultUnreachable: a kind off its path in ALU1 and in MEM. -/
theorem witness_InternalFaultUnreachable :
    queueOf (.lw 1 2 0) ≠ some .alu ∧ queueOf (.add 1 2 3) ≠ some .ls ∧ full.KindsOk :=
  ⟨by decide, by decide, full_kinds⟩

/-- GeneralWriteback and PairWriteback: a generic kind, a load, DIV and MULT. -/
theorem witness_writeback (b : Rec) (v hi lo : Word) :
    destOf (.addi 8 0 5) = .gpr 8 ∧ queueOf (.addi 8 0 5) = some .alu ∧
      ((settledAt full).present (.wbAlu b v)).work.station = .wbAlu b v ∧ destOf (.lw 7 9 4) = .gpr 9 ∧
      isLoad (.lw 7 9 4) = true ∧ ((settledAt full).present (.wbMem b v)).work.station = .wbMem b v ∧
      ((settledAt full).present (.wbDiv b hi lo)).work.station = .wbDiv b hi lo ∧
      ((settledAt full).present (.wbMul b hi lo)).work.station = .wbMul b hi lo :=
  ⟨rfl, rfl, rfl, rfl, rfl, rfl, rfl, rfl⟩

/-- RegistersAfterCycle, MultiplierPassesOn, CycleIsTransitionFunction: a cycle in which all four sources write back,
and one in which DIV writes HI and LO. -/
theorem witness_full_cycle :
    full.KindsOk ∧ (∃ t, cycle (settledAt full) = .next t) ∧
      ∃ t, cycle (settledAt { full with latches := { full.latches with mul3o := none } }) = .next t :=
  ⟨full_kinds, is_next (by decide), is_next (by decide)⟩

/-- MemoryAfterCycle: a cycle that stores, and one that does not. -/
theorem witness_MemoryAfterCycle :
    busyB.mem.wf = true ∧ (busyB.latches.lsa.any (fun l => isStore l.ins.instr)) = true ∧
      (∃ t, cycle (settledAt busyB) = .next t) ∧ idle.latches.lsa = none ∧ ∃ t, cycle (settledAt idle) = .next t :=
  ⟨by decide, by decide, is_next (by decide), rfl, is_next (by decide)⟩

/-! ### Witnesses: the run -/

/-- The state of fault case F8 before its last cycle: MEM and the DIV unit both fault. -/
def twoFaults : Gen := { idle with
  queues := { Queues.empty with div := [recOf 268#32 0x64400000#32 5#32 0#32] }
  latches := { Latches.empty with lsa := some ⟨recOf 264#32 0x10010000#32 0#32 9#32, 0#32⟩ } }

/-- FaultPriority: F8 itself; the DIV unit alone; and an illegal word fetched while both others would fault. -/
theorem witness_FaultPriority :
    (∃ u, fetchStage (settledAt twoFaults).openCycle = .next u) ∧
      memStage (settledAt twoFaults).openCycle = .fault (.storeToCode 0#32) ∧
      (∃ u, memStage (settledAt { twoFaults with latches := Latches.empty }).openCycle = .next u) ∧
      divStage (settledAt { twoFaults with latches := Latches.empty }).openCycle = .fault (.divideByZero 268#32) ∧
      fetchStage ((settledAt twoFaults).withNextWord 0x1C000000#32).openCycle = .fault (.decode 288#32 0x1C000000#32) :=
  ⟨is_next (by decide), is_fault (by decide), is_next (by decide), is_fault (by decide), is_fault (by decide)⟩

/-- FaultAbandonsCycle: a running machine whose cycle faults, a faulted one, a halted one. -/
theorem witness_FaultAbandonsCycle :
    (settledAt twoFaults).status = .running ∧ cycle (settledAt twoFaults) = .fault (.storeToCode 0#32) ∧
      ((settledAt idle).takeFault .internal).status = .faulted .internal ∧
      ({ settledAt idle with status := .halted } : State).status = .halted :=
  ⟨by decide, is_fault (by decide), by decide, by decide⟩

/-- SwapIsWhole, HaltsWhenDrained: a cycle after which the machine halts, and one after which it runs on. -/
theorem witness_HaltsWhenDrained :
    (∃ t, cycle (State.reset.withNextWord 0x18000000#32) = .next t ∧ (t.status == .halted) = true) ∧
      ∃ t, cycle (settledAt busyA) = .next t ∧ (t.status == .running) = true :=
  ⟨exists_next (by decide), exists_next (by decide)⟩

/-- LoadedImage, InvariantAtStart: a refused image; one whose data starts behind its BREAK; one without BREAK. -/
theorem witness_LoadedImage :
    imageOk [] = false ∧ imageOk [5#32, 0x18000000#32, 7#32, 0x18000000#32] = true ∧
      (0x18000000#32 ∉ [5#32, 0x18000000#32, 7#32, 0x18000000#32].take 1) ∧ imageOk [0x180000FF#32] = true ∧
      0x18000000#32 ∉ [0x180000FF#32] ∧
      ∃ s, State.load [5#32, 0x18000000#32, 7#32, 0x18000000#32] false = .next s ∧ (s.setup.dataStart == 264) = true :=
  ⟨by decide, by decide, by decide, by decide, by decide, exists_next (by decide)⟩

/-! ### Witnesses: latencies -/

/-- AluLatency, LoadSeesOlderStore, StoreLatency, MultiplyLatency: four cycles from `busyA`. -/
theorem witness_busyA_latencies :
    (settledAt busyA).Inv ∧
      busyA.queues.alu = [recOf 268#32 0x20611000#32 5#32 3#32] ∧
      destOf (recOf 268#32 0x20611000#32 5#32 3#32).instr = .gpr 3 ∧
      aluResult (recOf 268#32 0x20611000#32 5#32 3#32).instr 5#32 3#32 = some 8#32 ∧
      busyA.queues.ls = [recOf 256#32 0x10A40000#32 272#32 9#32, recOf 260#32 0x14E60000#32 272#32 0#32] ∧
      (recOf 256#32 0x10A40000#32 272#32 9#32).instr = .sw 5 4 0 ∧
      (recOf 260#32 0x14E60000#32 272#32 0#32).instr = .lw 7 6 0 ∧ busyA.queues.mul ≠ [] ∧
      ∃ t, Cycles 4 (settledAt busyA) t :=
  ⟨busyA_inv, rfl, by decide, by decide, rfl, by decide, by decide, by decide, exists_cycles (by decide)⟩

/-- LoadLatency, DivideLatency: three cycles from `busyB`. -/
theorem witness_busyB_latencies :
    (settledAt busyB).Inv ∧ busyB.queues.ls = [recOf 268#32 0x14E60000#32 276#32 0#32] ∧
      (recOf 268#32 0x14E60000#32 276#32 0#32).instr = .lw 7 6 0 ∧ busyB.queues.div ≠ [] ∧
      ∃ t, Cycles 3 (settledAt busyB) t :=
  ⟨busyB_inv, rfl, by decide, by decide, exists_cycles (by decide)⟩

end Sys2Proof.Tests
end

section

/-! The binary text of an image (R51): what a line shows, which lines are well formed, and the round trip. -/

namespace Sys2Proof.Proofs.ImageText

open Sys2Proof.Machine

/-! ### One line -/

/-- R51's bit order: character `j` of a word's line is bit `31 - j`. -/
theorem lineOfWord_getElem? (w : Word) {j : Nat} (hj : j < 32) :
    (lineOfWord w)[j]? = some (if w.getLsbD (31 - j) then '1' else '0') := by
  simp [lineOfWord, hj]

@[simp] theorem lineOfWord_length (w : Word) : (lineOfWord w).length = 32 := by
  simp [lineOfWord]

/-- A leading digit doubles the value read so far and adds the bit it stands for. -/
theorem binaryValue_digit_cons (n : Nat) (b : Bool) (cs : List Char) :
    binaryValue n ((if b then '1' else '0') :: cs) = binaryValue (2 * n + b.toNat) cs := by
  cases b <;> simp [binaryValue]

/-- Reading the low `k` bits of `w`, highest first, appends them to the value read so far. -/
theorem binaryValue_lowBits (w : Word) (k n : Nat) :
    binaryValue n ((List.range k).map fun j => if w.getLsbD (k - 1 - j) then '1' else '0') =
      some (2 ^ k * n + w.toNat % 2 ^ k) := by
  induction k generalizing n with
  | zero => simp [binaryValue, Nat.mod_one]
  | succ k ih =>
    have htail : (fun j => if w.getLsbD (k + 1 - 1 - j) then '1' else '0') ∘ Nat.succ =
        fun j => if w.getLsbD (k - 1 - j) then '1' else '0' := by
      funext j
      simp [Nat.sub_sub, Nat.add_comm]
    have hmod : w.toNat % 2 ^ (k + 1) = w.toNat % 2 ^ k + 2 ^ k * (w.getLsbD k).toNat := by
      rw [BitVec.getLsbD, Nat.toNat_testBit, Nat.mod_pow_succ]
    rw [List.range_succ_eq_map, List.map_cons, List.map_map, binaryValue_digit_cons, htail, ih, hmod]
    simp only [Nat.add_sub_cancel, Nat.sub_zero, Option.some.injEq]
    ring

@[simp] theorem wordOfLine_lineOfWord (w : Word) : wordOfLine (lineOfWord w) = some w := by
  have hvalue : binaryValue 0 (lineOfWord w) = some w.toNat := by
    have h := binaryValue_lowBits w 32 0
    rwa [Nat.mul_zero, Nat.zero_add, Nat.mod_eq_of_lt w.isLt] at h
  simp [wordOfLine, hvalue]

/-- A string has a binary value exactly when each of its characters is a digit. -/
theorem binaryValue_isSome_iff (cs : List Char) (n : Nat) :
    (binaryValue n cs).isSome = true ↔ ∀ c ∈ cs, c = '0' ∨ c = '1' := by
  induction cs generalizing n with
  | nil => simp [binaryValue]
  | cons c cs ih =>
    rw [binaryValue, List.forall_mem_cons]
    split_ifs with h0 h1
    · simp [h0, ih]
    · simp [h1, ih]
    · simp [h0, h1]

/-- R315: a line is well formed exactly when it is 32 characters, each `0` or `1`. -/
theorem wordOfLine_isSome_iff (line : List Char) :
    (wordOfLine line).isSome = true ↔ line.length = 32 ∧ ∀ c ∈ line, c = '0' ∨ c = '1' := by
  rw [wordOfLine]
  split_ifs with hlen
  · simp [hlen, binaryValue_isSome_iff]
  · simp [hlen]

/-! ### The lines of an image -/

theorem imageOfText_map_lineOfWord (image : List Word) :
    imageOfText (image.map lineOfWord) = some image := by
  induction image with
  | nil => rfl
  | cons w ws ih => simp [imageOfText, ih]

theorem imageOfText_eq_none_of_malformed {lines : List (List Char)} {line : List Char}
    (hmem : line ∈ lines) (hbad : wordOfLine line = none) : imageOfText lines = none := by
  induction lines with
  | nil => cases hmem
  | cons l ls ih =>
    rcases List.mem_cons.mp hmem with rfl | htail
    · simp [imageOfText, hbad]
    · simp [imageOfText, ih htail]

/-- Settles O50: R51's bit order, round trip and refusal, each from the lemma that names it. -/
theorem imageText : Obligations.ImageText :=
  ⟨fun w _ hj => lineOfWord_getElem? w hj, imageOfText_map_lineOfWord, wordOfLine_isSome_iff,
    fun _ ⟨_, hmem, hbad⟩ => imageOfText_eq_none_of_malformed hmem hbad⟩

end Sys2Proof.Proofs.ImageText
end

section

/-! Encoding and decoding (R60 to R76): the fields of an encoded instruction, the round trip, what an encoding keeps of
the word it came from, and the words that do not decode. -/

namespace Sys2Proof.Proofs.Encoding

open Sys2Proof.Machine

/-! ### The fields of a packed word -/

section PackedFields

variable {c o : Nat} (a b d : Reg) (h : Half) (idx : BitVec 26) (hc : c < 8) (ho : o < 8)
include hc ho

theorem regField_packWord {r lo : Nat} (hr : r < 2 ^ 26) (hlo : lo + 5 ≤ 26) :
    regField (packWord c o r) lo = Fin.ofNat 32 (r / 2 ^ lo) := by
  rw [regField, packWord_field c o r lo 5 hc ho hr hlo]
  exact Fin.ext (Nat.mod_mod _ _)

@[simp] theorem catField_packJ : catField (packWord c o idx.toNat) = c := packWord_cat _ _ _ hc ho idx.isLt

@[simp] theorem opField_packJ : opField (packWord c o idx.toNat) = o := packWord_op _ _ _ hc ho idx.isLt

@[simp] theorem indexField_packJ : (packWord c o idx.toNat).extractLsb' 0 26 = idx := by
  apply BitVec.eq_of_toNat_eq
  rw [packWord_field c o _ 0 26 hc ho idx.isLt (by decide), pow_zero, Nat.div_one, Nat.mod_eq_of_lt idx.isLt]

@[simp] theorem catField_packI : catField (packWord c o (packI a b h)) = c := packWord_cat _ _ _ hc ho (packI_lt a b h)

@[simp] theorem opField_packI : opField (packWord c o (packI a b h)) = o := packWord_op _ _ _ hc ho (packI_lt a b h)

@[simp] theorem regField_21_packI : regField (packWord c o (packI a b h)) 21 = a := by
  rw [regField_packWord hc ho (packI_lt a b h) (by decide)]
  apply Fin.ext
  simp only [Fin.ofNat, packI]
  omega

@[simp] theorem regField_16_packI : regField (packWord c o (packI a b h)) 16 = b := by
  rw [regField_packWord hc ho (packI_lt a b h) (by decide)]
  apply Fin.ext
  simp only [Fin.ofNat, packI]
  omega

@[simp] theorem halfField_packI : halfField (packWord c o (packI a b h)) = h := by
  apply BitVec.eq_of_toNat_eq
  rw [halfField, packWord_field c o _ 0 16 hc ho (packI_lt a b h) (by decide), packI]
  omega

omit hc ho in
/-- Format R is format I whose half is the third register over eleven zeros. -/
theorem packR_eq_packI : packR a b d = packI a b (BitVec.ofNat 16 (d.val * 2 ^ 11)) := by
  rw [packR, packI, BitVec.toNat_ofNat, Nat.mod_eq_of_lt]
  omega

@[simp] theorem catField_packR : catField (packWord c o (packR a b d)) = c := packWord_cat _ _ _ hc ho (packR_lt a b d)

@[simp] theorem opField_packR : opField (packWord c o (packR a b d)) = o := packWord_op _ _ _ hc ho (packR_lt a b d)

@[simp] theorem regField_21_packR : regField (packWord c o (packR a b d)) 21 = a := by
  rw [packR_eq_packI, regField_21_packI _ _ _ hc ho]

@[simp] theorem regField_16_packR : regField (packWord c o (packR a b d)) 16 = b := by
  rw [packR_eq_packI, regField_16_packI _ _ _ hc ho]

@[simp] theorem regField_11_packR : regField (packWord c o (packR a b d)) 11 = d := by
  rw [regField_packWord hc ho (packR_lt a b d) (by decide)]
  apply Fin.ext
  simp only [Fin.ofNat, packR]
  omega

end PackedFields

/-- R76, format by format: every field is read back, so the row of `decode` that answers is the instruction's own. -/
theorem decode_encode (i : Instr) : decode (encode i) = some i := by
  cases i with
  | brk => decide
  | j idx => simp [encode, decode]
  | add rd ra rb | sub rd ra rb | and rd ra rb | or rd ra rb | srl rd ra rb | sra rd ra rb => simp [encode, decode]
  | beq a b h | bne a b h | sw a b h | lw a b h | addi a b h | andi a b h | ori a b h => simp [encode, decode]
  | bgtz rs off => simp [encode, decode]
  | mult ra rb | div ra rb => simp [encode, decode]
  | mfhi rd | mflo rd => simp [encode, decode]

/-! ### The bits of a word that its encoding keeps -/

section Mask

variable {lo len : Nat} {w m : Word}

theorem extractLsb'_and_of_ones (hm : m.extractLsb' lo len = BitVec.allOnes len) :
    (w &&& m).extractLsb' lo len = w.extractLsb' lo len := by
  rw [BitVec.extractLsb'_and, hm, BitVec.and_allOnes]

theorem extractLsb'_and_of_zeros (hm : m.extractLsb' lo len = 0#len) : (w &&& m).extractLsb' lo len = 0#len := by
  rw [BitVec.extractLsb'_and, hm, BitVec.and_zero]

theorem catField_and {c : Nat} (hc : catField w = c) (hm : m.extractLsb' 29 3 = BitVec.allOnes 3) :
    catField (w &&& m) = c := by
  rw [catField, extractLsb'_and_of_ones hm, ← hc, catField]

theorem opField_and {o : Nat} (ho : opField w = o) (hm : m.extractLsb' 26 3 = BitVec.allOnes 3) :
    opField (w &&& m) = o := by
  rw [opField, extractLsb'_and_of_ones hm, ← ho, opField]

theorem regField_and_of_ones (hm : m.extractLsb' lo 5 = BitVec.allOnes 5) : regField (w &&& m) lo = regField w lo := by
  rw [regField, extractLsb'_and_of_ones hm, regField]

theorem regField_and_of_zeros (hm : m.extractLsb' lo 5 = 0#5) : regField (w &&& m) lo = 0 := by
  rw [regField, extractLsb'_and_of_zeros hm]
  rfl

theorem halfField_and_of_ones (hm : m.extractLsb' 0 16 = BitVec.allOnes 16) : halfField (w &&& m) = halfField w :=
  extractLsb'_and_of_ones hm

theorem halfField_and_of_zeros (hm : m.extractLsb' 0 16 = 0#16) : halfField (w &&& m) = 0 :=
  extractLsb'_and_of_zeros hm

end Mask

section Repack

variable {w : Word} {c o : Nat} (hc : catField w = c) (ho : opField w = o)
include hc ho

/-- A word is the packing of its category, its opcode and the value of its 26 low bits. -/
theorem packWord_indexField : packWord c o (w.extractLsb' 0 26).toNat = w := by
  subst hc ho
  apply BitVec.eq_of_toNat_eq
  simp only [packWord, catField, opField, BitVec.toNat_ofNat, BitVec.extractLsb'_toNat, Nat.shiftRight_eq_div_pow]
  omega

theorem packWord_packI_fields : packWord c o (packI (regField w 21) (regField w 16) (halfField w)) = w := by
  have hlow : packI (regField w 21) (regField w 16) (halfField w) = (w.extractLsb' 0 26).toNat := by
    simp only [packI, regField, halfField, Fin.ofNat, BitVec.extractLsb'_toNat, Nat.shiftRight_eq_div_pow]
    omega
  rw [hlow, packWord_indexField hc ho]

theorem packWord_packR_fields (hz : w.extractLsb' 0 11 = 0#11) :
    packWord c o (packR (regField w 21) (regField w 16) (regField w 11)) = w := by
  have hhalf : BitVec.ofNat 16 ((regField w 11).val * 2 ^ 11) = halfField w := by
    have hz' : w.toNat % 2 ^ 11 = 0 := by simpa [Nat.shiftRight_eq_div_pow] using congrArg BitVec.toNat hz
    apply BitVec.eq_of_toNat_eq
    simp only [regField, halfField, Fin.ofNat, BitVec.toNat_ofNat, BitVec.extractLsb'_toNat, Nat.shiftRight_eq_div_pow]
    omega
  rw [packR_eq_packI, hhalf, packWord_packI_fields hc ho]

/-! One lemma per format with ignored bits: packing the format's fields clears the bits that it ignores (R63 to R69). -/

theorem packWord_eq_and_bgtz : packWord c o (packI (regField w 21) 0 (halfField w)) = w &&& 0xFFE0FFFF#32 := by
  rw [← packWord_packI_fields (catField_and hc (by decide)) (opField_and ho (by decide)),
    regField_and_of_ones (by decide), regField_and_of_zeros (by decide), halfField_and_of_ones (by decide)]

theorem packWord_eq_and_formatK : packWord c o 0 = w &&& 0xFC000000#32 := by
  rw [← packWord_indexField (catField_and hc (by decide)) (opField_and ho (by decide)),
    extractLsb'_and_of_zeros (by decide), BitVec.toNat_zero]

theorem packWord_eq_and_formatR :
    packWord c o (packR (regField w 21) (regField w 16) (regField w 11)) = w &&& 0xFFFFF800#32 := by
  rw [← packWord_packR_fields (catField_and hc (by decide)) (opField_and ho (by decide))
      (extractLsb'_and_of_zeros (by decide)),
    regField_and_of_ones (by decide), regField_and_of_ones (by decide), regField_and_of_ones (by decide)]

theorem packWord_eq_and_formatD : packWord c o (packI (regField w 21) (regField w 16) 0) = w &&& 0xFFFF0000#32 := by
  rw [← packWord_packI_fields (catField_and hc (by decide)) (opField_and ho (by decide)),
    regField_and_of_ones (by decide), regField_and_of_ones (by decide), halfField_and_of_zeros (by decide)]

theorem packWord_eq_and_formatF : packWord c o (packI (regField w 21) 0 0) = w &&& 0xFFE00000#32 := by
  rw [← packWord_packI_fields (catField_and hc (by decide)) (opField_and ho (by decide)),
    regField_and_of_ones (by decide), regField_and_of_zeros (by decide), halfField_and_of_zeros (by decide)]

end Repack

/-- An encoding keeps the word it came from in the bits that `fieldBits` names, and is zero in the others (R72, R76).
Case `h_n` is row `n` of `decode`. -/
theorem encode_eq_and_fieldBits {w : Word} {i : Instr} (h : decode w = some i) : encode i = w &&& fieldBits i := by
  unfold decode at h
  split at h <;> cases h
  case h_1 hc ho => exact (packWord_indexField hc ho).trans BitVec.and_allOnes.symm
  case h_2 hc ho | h_3 hc ho | h_5 hc ho | h_6 hc ho | h_14 hc ho | h_15 hc ho | h_16 hc ho =>
    exact (packWord_packI_fields hc ho).trans BitVec.and_allOnes.symm
  case h_4 hc ho => exact packWord_eq_and_bgtz hc ho
  case h_7 hc ho => exact packWord_eq_and_formatK hc ho
  case h_8 hc ho | h_9 hc ho | h_10 hc ho | h_11 hc ho | h_12 hc ho | h_13 hc ho =>
    exact packWord_eq_and_formatR hc ho
  case h_17 hc ho | h_18 hc ho => exact packWord_eq_and_formatD hc ho
  case h_19 hc ho | h_20 hc ho => exact packWord_eq_and_formatF hc ho

theorem and_eq_self_iff (w m : Word) : w &&& m = w ↔ w &&& ~~~m = 0#32 := by
  constructor
  · intro hself
    calc w &&& ~~~m = (w &&& m) &&& ~~~m := by rw [hself]
      _ = 0#32 := by simp [BitVec.and_assoc]
  · intro hzero
    calc w &&& m = (w &&& m) ||| (w &&& ~~~m) := by rw [hzero, BitVec.or_zero]
      _ = w := by rw [← BitVec.and_or_distrib_left, BitVec.or_not_self, BitVec.and_allOnes]

/-- Settles O1: the round trip by format, and the words that encode back to themselves by the bits an encoding keeps. -/
theorem decodeOfEncode : Obligations.DecodeOfEncode := by
  refine ⟨decode_encode, by decide, fun w i h => ?_⟩
  rw [encode_eq_and_fieldBits h, and_eq_self_iff]

/-! ### Illegal words -/

/-- R71: each row of `decode` is at a legal pair, and a legal pair (both fields are below 8) is at one of the rows. -/
theorem decode_eq_none_iff (w : Word) : decode w = none ↔ illegalPair (catField w) (opField w) = true := by
  have hcat : catField w < 8 := (w.extractLsb' 29 3).isLt
  have hop : opField w < 8 := (w.extractLsb' 26 3).isLt
  unfold decode illegalPair
  split
  case h_21 => grind
  all_goals simp [*]

/-- R230: an open fetch loop that stands at an illegal word raises `DecodeFault`. -/
theorem fetchLoop_of_decode_eq_none {s : State} (n : Nat) (hopen : s.fetchOpen = true)
    (hnone : decode s.fetchWord = none) :
    fetchLoop (n + 1) s = .fault (.decode s.next.fetch.pc s.fetchWord) := by
  rw [fetchLoop, if_pos hopen, hnone, raise]

/-- Settles O2: the rows of `decode` against R71's list, its count, and the fault of the fetch loop. -/
theorem illegalWordsFault : Obligations.IllegalWordsFault :=
  ⟨decode_eq_none_iff, by decide, fun n _ hopen hnone => fetchLoop_of_decode_eq_none n hopen hnone⟩

end Sys2Proof.Proofs.Encoding
end

section

/-! MFHI and MFLO (R160 to R162): the special register is an operand captured at issue, and ALU1 passes it on. -/

namespace Sys2Proof.Proofs.MoveFrom

open Sys2Proof.Machine

/-- R261 at a kind that its table lists: ALU1 puts the table's result in `ALUO`. -/
theorem exec_alu1_of_aluResult {i : Instr} {s : State} {ins : Rec} {v : Word} (hst : s.work.station = .alu1 ins)
    (hv : aluResult i ins.v1 ins.v2 = some v) : exec i s = .next (s.putAluo ins v) := by
  rw [exec_alu1 i s ins hst, hv]

/-- R200, R248: the first operand issue captures is the record's `src1`, read from the current generation. -/
@[simp] theorem capture_v1 (s : State) (i : Instr) (ins : Rec) :
    (s.capture i ins).v1 = s.cur.rfGet (src1Of i) := rfl

theorem capture_mfhi_v1 (rd : Reg) (s : State) (ins : Rec) : (s.capture (.mfhi rd) ins).v1 = s.cur.regs.hi := by
  rw [capture_v1, src1Of, Gen.rfGet]

theorem capture_mflo_v1 (rd : Reg) (s : State) (ins : Rec) : (s.capture (.mflo rd) ins).v1 = s.cur.regs.lo := by
  rw [capture_v1, src1Of, Gen.rfGet]

@[simp] theorem readsOf_mfhi (rd : Reg) : readsOf (.mfhi rd) = [.hi] := rfl

@[simp] theorem readsOf_mflo (rd : Reg) : readsOf (.mflo rd) = [.lo] := rfl

@[simp] theorem destOf_mfhi (rd : Reg) : destOf (.mfhi rd) = .gpr rd := rfl

@[simp] theorem destOf_mflo (rd : Reg) : destOf (.mflo rd) = .gpr rd := rfl

/-- Settles O29: the captured operand, ALU1 by R261's table, the opcode by R70's table, and the operands. -/
theorem movesFromHiLo : Obligations.MovesFromHiLo := by
  intro rd s ins
  refine ⟨capture_mfhi_v1 rd s ins, capture_mflo_v1 rd s ins, fun hst => ?_, (Laws.OpcodeBits.mfhi rd).1,
    (Laws.OpcodeBits.mflo rd).1, readsOf_mfhi rd, readsOf_mflo rd, destOf_mfhi rd, destOf_mflo rd⟩
  exact ⟨exec_alu1_of_aluResult hst rfl, exec_alu1_of_aluResult hst rfl⟩

end Sys2Proof.Proofs.MoveFrom
end

section

/-! The register roles of the kinds (R205), the conflict predicates over them (R209), and the operations on the register
file and its awaiting flags (R200 to R203). -/

namespace Sys2Proof.Proofs.Registers

open Sys2Proof.Machine

/-! ### What a kind reads and writes, from the references of its row in R205's table -/

section Roles

variable {i : Instr} {a b : Reg}

theorem readsOf_of_two_gprs (h₁ : src1Of i = .gpr a) (h₂ : src2Of i = .gpr b) : readsOf i = [.x a, .x b] := by
  rw [readsOf, h₁, h₂]
  rfl

theorem readsOf_of_one_gpr (h₁ : src1Of i = .gpr a) (h₂ : src2Of i = .none) : readsOf i = [.x a] := by
  rw [readsOf, h₁, h₂]
  rfl

theorem writesOf_of_none (h : destOf i = .none) : writesOf i = [] := by
  rw [writesOf, h]
  rfl

theorem writesOf_of_gpr (h : destOf i = .gpr a) : writesOf i = [.x a] := by
  rw [writesOf, h]
  rfl

theorem writesOf_of_hilo (h : destOf i = .hilo) : writesOf i = [.hi, .lo] := by
  rw [writesOf, h]
  rfl

end Roles

theorem roles_of_equality_branch (rs rt : Reg) (off : Half) :
    readsOf (.beq rs rt off) = [.x rs, .x rt] ∧ writesOf (.beq rs rt off) = [] ∧
      readsOf (.bne rs rt off) = [.x rs, .x rt] ∧ writesOf (.bne rs rt off) = [] :=
  ⟨readsOf_of_two_gprs rfl rfl, writesOf_of_none rfl, readsOf_of_two_gprs rfl rfl, writesOf_of_none rfl⟩

theorem roles_of_bgtz (rs : Reg) (off : Half) : readsOf (.bgtz rs off) = [.x rs] ∧ writesOf (.bgtz rs off) = [] :=
  ⟨readsOf_of_one_gpr rfl rfl, writesOf_of_none rfl⟩

/-- SW reads the stored register and writes none; LW writes the loaded one (R205). -/
theorem roles_of_memory_access (base rt : Reg) (off : Half) :
    readsOf (.sw base rt off) = [.x base, .x rt] ∧ writesOf (.sw base rt off) = [] ∧
      readsOf (.lw base rt off) = [.x base] ∧ writesOf (.lw base rt off) = [.x rt] :=
  ⟨readsOf_of_two_gprs rfl rfl, writesOf_of_none rfl, readsOf_of_one_gpr rfl rfl, writesOf_of_gpr rfl⟩

theorem roles_of_formatR (rd ra rb : Reg) :
    ∀ i ∈ [Instr.add rd ra rb, .sub rd ra rb, .and rd ra rb, .or rd ra rb, .srl rd ra rb, .sra rd ra rb],
      readsOf i = [.x ra, .x rb] ∧ writesOf i = [.x rd] := by
  intro i hi
  obtain ⟨h₁, h₂, hd⟩ : src1Of i = .gpr ra ∧ src2Of i = .gpr rb ∧ destOf i = .gpr rd := by
    fin_cases hi <;> exact ⟨rfl, rfl, rfl⟩
  exact ⟨readsOf_of_two_gprs h₁ h₂, writesOf_of_gpr hd⟩

theorem roles_of_formatI (rd ra : Reg) (imm : Half) :
    ∀ i ∈ [Instr.addi rd ra imm, .andi rd ra imm, .ori rd ra imm],
      readsOf i = [.x ra] ∧ writesOf i = [.x rd] := by
  intro i hi
  obtain ⟨h₁, h₂, hd⟩ : src1Of i = .gpr ra ∧ src2Of i = .none ∧ destOf i = .gpr rd := by
    fin_cases hi <;> exact ⟨rfl, rfl, rfl⟩
  exact ⟨readsOf_of_one_gpr h₁ h₂, writesOf_of_gpr hd⟩

theorem roles_of_formatD (ra rb : Reg) :
    ∀ i ∈ [Instr.mult ra rb, .div ra rb], readsOf i = [.x ra, .x rb] ∧ writesOf i = [.hi, .lo] := by
  intro i hi
  obtain ⟨h₁, h₂, hd⟩ : src1Of i = .gpr ra ∧ src2Of i = .gpr rb ∧ destOf i = .hilo := by
    fin_cases hi <;> exact ⟨rfl, rfl, rfl⟩
  exact ⟨readsOf_of_two_gprs h₁ h₂, writesOf_of_hilo hd⟩

theorem roles_of_formatF (rd : Reg) :
    readsOf (.mfhi rd) = [.hi] ∧ writesOf (.mfhi rd) = [.x rd] ∧
      readsOf (.mflo rd) = [.lo] ∧ writesOf (.mflo rd) = [.x rd] :=
  ⟨MoveFrom.readsOf_mfhi rd, writesOf_of_gpr (MoveFrom.destOf_mfhi rd), MoveFrom.readsOf_mflo rd,
    writesOf_of_gpr (MoveFrom.destOf_mflo rd)⟩

/-! ### The conflict predicates -/

theorem meets_iff (as bs : List PReg) : meets as bs = true ↔ ∃ r, r ∈ as ∧ r ∈ bs := by
  simp only [meets, List.any_eq_true, decide_eq_true_eq]

theorem raw_iff (a b : Instr) : raw a b = true ↔ ∃ r, r ∈ writesOf a ∧ r ∈ readsOf b := meets_iff _ _

theorem war_iff (a b : Instr) : war a b = true ↔ ∃ r, r ∈ readsOf a ∧ r ∈ writesOf b := meets_iff _ _

theorem waw_iff (a b : Instr) : waw a b = true ↔ ∃ r, r ∈ writesOf a ∧ r ∈ writesOf b := meets_iff _ _

/-- Settles O5: R205's table by format, R209's predicates as meetings of sets, and R246's routing kind by kind. -/
theorem rolesByKind : Obligations.RolesByKind :=
  ⟨fun _ => ⟨rfl, rfl⟩, fun _ => ⟨rfl, rfl, rfl, rfl, rfl, rfl, rfl⟩, fun _ => ⟨rfl, rfl⟩, roles_of_equality_branch,
    roles_of_bgtz, roles_of_memory_access, ⟨rfl, rfl⟩, roles_of_formatR, roles_of_formatI, roles_of_formatD,
    roles_of_formatF, fun a b => ⟨raw_iff a b, war_iff a b, waw_iff a b⟩, fun i => by cases i <;> rfl⟩

/-! ### The register file -/

/-- R200: the absent register reads 0; `x[0]` is read like every other. -/
theorem rfGet_by_reference (g : Gen) (i : Reg) :
    g.rfGet .none = 0#32 ∧ g.rfGet (.gpr i) = g.regs.x[i] ∧ g.rfGet .hi = g.regs.hi ∧ g.rfGet .lo = g.regs.lo :=
  ⟨rfl, rfl, rfl, rfl⟩

@[simp] theorem rfSet_none (s : State) (v : Word) : s.rfSet .none v = .next s := rfl

/-- R201 at a general register: the write and the clearing of its flag, as one update of the next generation. -/
theorem rfSet_gpr (s : State) (i : Reg) (v : Word) :
    s.rfSet (.gpr i) v = .next
      ((s.setRegs { s.next.regs with x := s.next.regs.x.set i v }).setAw (s.next.aw.put (.gpr i) false)) := rfl

/-- An update of registers and flags leaves the rest of the state as it was. -/
theorem setRegs_setAw_frame (s : State) (regs : RegFile) (aw : Scoreboard) :
    (s.setRegs regs).setAw aw = { s with next := { s.next with regs := regs, aw := aw } } := rfl

@[simp] theorem rfSetPair_next_regs (s : State) (vhi vlo : Word) :
    (s.rfSetPair vhi vlo).next.regs = { s.next.regs with hi := vhi, lo := vlo } := rfl

@[simp] theorem rfSetPair_next_aw (s : State) (vhi vlo : Word) :
    (s.rfSetPair vhi vlo).next.aw = s.next.aw.put .hilo false := rfl

/-! ### The awaiting flags -/

theorem flag_put_gpr (aw : Scoreboard) (i : Reg) (b : Bool) (r : PReg) :
    (aw.put (.gpr i) b).flag r = if r = .x i then b else aw.flag r := by
  simp only [Scoreboard.flag_put, DRef.mem_regs_gpr]

theorem flag_put_hilo (aw : Scoreboard) (b : Bool) (r : PReg) :
    (aw.put .hilo b).flag r = if r = .hi ∨ r = .lo then b else aw.flag r := by
  simp only [Scoreboard.flag_put, DRef.mem_regs_hilo]

/-- R203: marking sets the flags of the destination and no other. -/
theorem flag_mark (aw : Scoreboard) (d : DRef) (r : PReg) :
    (aw.mark d).flag r = (aw.flag r || decide (r ∈ d.regs)) := by
  rw [Scoreboard.mark, Scoreboard.flag_put]
  by_cases hr : r ∈ d.regs <;> simp [hr]

/-- R202: each reference asks the flags of its registers. -/
theorem awaits_by_reference (aw : Scoreboard) (i : Reg) :
    aw.awaitsSrc .none = false ∧ aw.awaitsSrc (.gpr i) = aw.flag (.x i) ∧ aw.awaitsSrc .hi = aw.flag .hi ∧
      aw.awaitsSrc .lo = aw.flag .lo ∧ aw.awaitsDest .hilo = (aw.flag .hi || aw.flag .lo) := by
  simp [Scoreboard.awaitsSrc_eq, Scoreboard.awaitsDest_eq, SRef.regs, DRef.regs]

/-- Settles O6: the reads, the writes with their frame, the queries, and the marks, by the flags that `put` sets. -/
theorem registerFileOperations : Obligations.RegisterFileOperations := by
  refine ⟨rfGet_by_reference, rfSet_none, fun s i v => ?_, fun s vhi vlo => ?_, awaits_by_reference, fun aw i r => ?_⟩
  · exact ⟨_, rfSet_gpr s i v, rfl, fun r => flag_put_gpr s.next.aw i false r, setRegs_setAw_frame s _ _⟩
  · exact ⟨rfSetPair_next_regs s vhi vlo, fun r => by rw [rfSetPair_next_aw, flag_put_hilo], setRegs_setAw_frame s _ _⟩
  · simp [flag_mark]

end Sys2Proof.Proofs.Registers
end

section

/-! The front of the machine over a cycle: what the stages behind fetch and issue leave of the fetch registers and the
window, and so what a cycle makes of the two once its fetch stage has run (R251, R290, R291). -/

namespace Sys2Proof.Proofs.CycleFront

open Sys2Proof.Machine

/-! ### The units and writeback -/

/-- The stations of the seven units and of writeback: all but those of fetch and issue. -/
def atUnit : Station → Bool
  | .fetch | .retry _ | .issue _ => false
  | _ => true

/-- The fetch registers of the next generation and the two parts of its window are the same. -/
structure KeepsFront (s t : State) : Prop where
  fetch : t.next.fetch = s.next.fetch
  newFw : t.work.newFw = s.work.newFw
  kept : t.work.kept = s.work.kept

theorem KeepsFront.refl (s : State) : KeepsFront s s := ⟨rfl, rfl, rfl⟩

theorem KeepsFront.trans {s t u : State} (h : KeepsFront s t) (k : KeepsFront t u) : KeepsFront s u :=
  ⟨k.fetch.trans h.fetch, k.newFw.trans h.newFw, k.kept.trans h.kept⟩

theorem present_keepsFront (s : State) (st : Station) : KeepsFront s (s.present st) := ⟨rfl, rfl, rfl⟩

section Operations

variable {s t : State} {ins : Rec} {ea : Word}

theorem rfSet_keepsFront {d : DRef} {v : Word} (h : s.rfSet d v = .next t) : KeepsFront s t := by
  cases d with
  | none => cases h; exact .refl s
  | gpr i => cases h; exact ⟨rfl, rfl, rfl⟩
  | hilo => cases h

theorem loadFrom_keepsFront (h : s.loadFrom ins ea = .next t) : KeepsFront s t := by
  unfold State.loadFrom at h
  split at h <;> cases h
  exact ⟨rfl, rfl, rfl⟩

theorem storeTo_keepsFront (h : s.storeTo ins ea = .next t) : KeepsFront s t := by
  unfold State.storeTo at h
  split at h <;> cases h
  exact ⟨rfl, rfl, rfl⟩

theorem divide_keepsFront (h : s.divide ins = .next t) : KeepsFront s t := by
  unfold State.divide at h
  split at h <;> cases h
  exact ⟨rfl, rfl, rfl⟩

end Operations

/-- R290: at a unit or writeback no instruction touches the fetch registers or the window. -/
theorem exec_keepsFront {i : Instr} {s t : State} (hunit : atUnit s.work.station = true) (h : exec i s = .next t) :
    KeepsFront s t := by
  cases hst : s.work.station with
  | fetch | retry _ | issue _ => rw [hst] at hunit; cases hunit
  | alu1 ins =>
    rw [exec_alu1 i s ins hst] at h
    split at h <;> cases h
    exact ⟨rfl, rfl, rfl⟩
  | alu2 ins => rw [exec_alu2 i s ins hst] at h; cases h; exact ⟨rfl, rfl, rfl⟩
  | mem ins ea =>
    rw [exec_mem i s ins ea hst] at h
    split_ifs at h
    · exact loadFrom_keepsFront h
    · exact storeTo_keepsFront h
  | div ins => exact divide_keepsFront (exec_div i s ins hst ▸ h)
  | mul1 ins => rw [exec_mul1 i s ins hst] at h; cases h; exact ⟨rfl, rfl, rfl⟩
  | mul2 ins hi lo => rw [exec_mul2 i s ins hi lo hst] at h; cases h; exact ⟨rfl, rfl, rfl⟩
  | mul3 ins hi lo => rw [exec_mul3 i s ins hi lo hst] at h; cases h; exact ⟨rfl, rfl, rfl⟩
  | wbAlu ins v => exact rfSet_keepsFront (exec_wbAlu i s ins v hst ▸ h)
  | wbMem ins v => exact rfSet_keepsFront (exec_wbMem i s ins v hst ▸ h)
  | wbDiv ins hi lo => rw [exec_wbDiv i s ins hi lo hst] at h; cases h; exact ⟨rfl, rfl, rfl⟩
  | wbMul ins hi lo => rw [exec_wbMul i s ins hi lo hst] at h; cases h; exact ⟨rfl, rfl, rfl⟩

/-- R260, R280: a stage behind fetch and issue has nothing to do, or runs one record at a unit or writeback. -/
theorem unitStage_cases {f : State → Out} (hf : f ∈ stages.drop 2) (s : State) :
    f s = .next s ∨ ∃ st ins, atUnit st = true ∧ f s = runAt st ins s := by
  simp only [stages, List.drop_succ_cons, List.drop_zero, List.mem_cons, List.not_mem_nil, or_false] at hf
  rcases hf with rfl | rfl | rfl | rfl | rfl | rfl | rfl | rfl | rfl | rfl | rfl
  all_goals
    simp only [memStage, divStage, mul1Stage, alu1Stage, alu2Stage, mul2Stage, mul3Stage, wbAluStage, wbMemStage,
      wbDivStage, wbMulStage]
    split
    · exact .inl rfl
    · exact .inr ⟨_, _, rfl, rfl⟩

theorem unitStage_keepsFront {f : State → Out} (hf : f ∈ stages.drop 2) {s t : State} (h : f s = .next t) :
    KeepsFront s t := by
  obtain hid | ⟨st, ins, hunit, hrun⟩ := unitStage_cases hf s
  · cases hid.symm.trans h
    exact .refl s
  · exact (present_keepsFront s st).trans (exec_keepsFront hunit (hrun.symm.trans h))

theorem runUnitStages_keepsFront (fs : List (State → Out)) (hfs : fs ⊆ stages.drop 2) {s t : State}
    (h : runStages fs s = .next t) : KeepsFront s t := by
  induction fs generalizing s with
  | nil => cases h; exact .refl _
  | cons f fs ih =>
    obtain ⟨hf, hfs⟩ := List.cons_subset.mp hfs
    obtain ⟨u, hu, h⟩ := andThen_eq_next h
    exact (unitStage_keepsFront hf hu).trans (ih hfs h)

/-! ### A whole cycle -/

/-- R291: fetch first, then issue, then the stages behind them. -/
theorem runStages_stages (s : State) :
    runStages stages s = andThen (fetchStage s) fun u => andThen (issueStage u) (runStages (stages.drop 2)) := rfl

/-- R291, R292: a cycle that does not fault runs its stages and adopts the generation they built. -/
theorem cycle_eq_next {s t : State} (h : cycle s = .next t) :
    ∃ v, runStages stages s.openCycle = .next v ∧ t = v.adopt v.nextGen := by
  obtain ⟨v, hv, h⟩ := andThen_eq_next h
  cases h
  exact ⟨v, hv, rfl⟩

theorem runAllStages_keeps {s v : State} (h : runStages stages s = .next v) : Keeps s v :=
  runStages_keeps stages (fun _ hf => hf) s v h

theorem cycle_setup {s t : State} (h : cycle s = .next t) : t.setup = s.setup := by
  obtain ⟨v, hv, rfl⟩ := cycle_eq_next h
  exact (runAllStages_keeps hv).setup

/-- R293: the status changes only where the halt is requested and nothing is in flight. -/
theorem cycle_status {s t : State} (h : cycle s = .next t) :
    t.status = if t.cur.finished then .halted else s.status := by
  obtain ⟨v, hv, rfl⟩ := cycle_eq_next h
  rw [State.adopt_status, State.adopt_cur, (runAllStages_keeps hv).status, State.openCycle_status]

/-- The issue scan has not begun (R240): nothing is scanned, kept, issued or marked. -/
abbrev ScanUnbegun (w : Work) : Prop := ScanMatches w [] { marks := [], kept := [], enq := Queues.empty }

theorem scanUnbegun_fresh : ScanUnbegun Work.fresh := ⟨rfl, rfl, rfl, by simp [Work.fresh]⟩

/-- R251, R290: when the fetch stage has left `u`, the cycle ends with the fetch registers of `u`, and with survivors of
the window followed by the records fetched by then. -/
theorem cycle_after_fetchStage {s t u : State} (hfetch : fetchStage s.openCycle = .next u) (hscan : ScanUnbegun u.work)
    (h : cycle s = .next t) :
    t.cur.fetch = u.next.fetch ∧ ∃ kept, kept.Sublist s.cur.fw ∧ t.cur.fw = kept ++ u.work.newFw := by
  obtain ⟨v, hv, rfl⟩ := cycle_eq_next h
  obtain ⟨w, hissue, hnew, hmatch⟩ := issueStage_eq u hscan
  rw [runStages_stages, hfetch, andThen_next, hissue, andThen_next] at hv
  obtain ⟨hregs, hnewFw, hkept⟩ := runUnitStages_keepsFront _ (List.Subset.refl _) hv
  have hcur : u.cur = s.cur := (stage_keeps fetchStage (List.mem_cons_self ..) _ u hfetch).cur
  refine ⟨hregs, w.kept, ?_, ?_⟩
  · rw [hmatch.kept, ← hcur]
    exact (issue_facts u.setup u.cur).kept
  · rw [State.adopt_cur, State.nextGen, hkept, hnewFw, State.setWork_work, hnew]

/-! ### A step -/

/-- R297: what a step that gives a next state has done. -/
theorem step_cases {s t : State} (h : step s = .next t) :
    (s.status = .running ∧ cycle s = .next t) ∨ (s.status = .running ∧ ∃ f, t = s.takeFault f) ∨
      (s.status = .halted ∧ t = s) := by
  unfold step at h
  split at h
  case h_1 hrun =>
    split at h <;> cases h
    case h_1 hnext => exact .inl ⟨hrun, hnext⟩
    case h_2 => exact .inr (.inl ⟨hrun, _, rfl⟩)
  case h_2 hhalt => cases h; exact .inr (.inr ⟨hhalt, rfl⟩)
  case h_3 => cases h

end Sys2Proof.Proofs.CycleFront
end

section

/-! The fetch stage over cycles: a stalled branch is retried (R222), and a fetch pointer out of range idles (R231). -/

namespace Sys2Proof.Proofs.Fetch

open Sys2Proof.Machine CycleFront

/-! ### A stalled branch -/

/-- R222: with a branch stalled the fetch stage retries it, and does nothing else. -/
theorem fetchStage_of_stalled {s : State} {b : Rec} (hhalt : s.cur.fetch.haltReq = false)
    (hstalled : s.cur.fetch.stalled = some b) (hbranch : isBranch b.instr = true) :
    fetchStage s = .next ((s.present (.retry b)).branchRetried b.instr (takenOf b.instr) (targetOf b.instr) b) := by
  simp only [fetchStage, hhalt, hstalled, Bool.false_eq_true, if_false]
  rw [runAt, exec_retry _ _ b rfl, if_pos hbranch]

/-- The retry touches neither the records fetched nor the issue scan. -/
theorem branchRetried_work (s : State) (b : Instr) (taken : Word → Word → Bool) (target : Word → Word) (ins : Rec) :
    (s.branchRetried b taken target ins).work = s.work := by
  unfold State.branchRetried
  split <;> rfl

/-- R222, R228: the fetch registers after the retry. -/
theorem branchRetried_next_fetch (s : State) {b : Rec} (hbranch : isBranch b.instr = true) :
    (s.branchRetried b.instr (takenOf b.instr) (targetOf b.instr) b).next.fetch =
      if canResolve b.instr s.cur [] then
        { s.next.fetch with pc := Reference.outcome b s.cur, stalled := none, resolved := some b }
      else s.next.fetch := by
  unfold State.branchRetried
  rw [outcome_eq b s.cur hbranch]
  split <;> rfl

/-- Settles O19: the fetch stage is the retry alone, and the rest of the cycle keeps the registers it leaves. -/
theorem stalledBranchRetried : Obligations.StalledBranchRetried := by
  intro s t b hkinds hhalt hstalled hcycle
  have hbranch := hkinds.stalled b hstalled
  have hfetch := fetchStage_of_stalled (s := s.openCycle) hhalt hstalled hbranch
  obtain ⟨hregs, kept, hsub, hfw⟩ := cycle_after_fetchStage hfetch
    (by rw [branchRetried_work]; exact ⟨rfl, rfl, rfl, scanUnbegun_fresh.marks⟩) hcycle
  rw [branchRetried_work, State.present_work_newFw, State.openCycle_work, Work.fresh, List.append_nil] at hfw
  rw [branchRetried_next_fetch _ hbranch] at hregs
  refine ⟨hfw ▸ hsub, fun hcan => ?_, fun hcannot => ?_⟩
  · simpa [hcan, hhalt] using hregs
  · simpa [hcannot] using hregs

/-! ### A fetch pointer out of range -/

/-- R231: the fetch stage is free to fetch, and its pointer is out of range. -/
structure FetchIdle (s : State) : Prop where
  halt : s.cur.fetch.haltReq = false
  stalled : s.cur.fetch.stalled = none
  range : s.setup.inRange s.cur.fetch.pc = false

theorem inRange_eq_false_iff (c : Setup) (p : Word) :
    c.inRange p = false ↔ p.toNat < 256 ∨ c.maxAddr ≤ p.toNat := by
  rw [← Bool.not_eq_true, inRange_iff, Setup.maxAddr, Config.minAddr]
  omega

theorem FetchIdle.of_eq {s t : State} (h : FetchIdle s) (hfetch : t.cur.fetch = s.cur.fetch)
    (hsetup : t.setup = s.setup) : FetchIdle t :=
  ⟨hfetch ▸ h.halt, hfetch ▸ h.stalled, by rw [hfetch, hsetup]; exact h.range⟩

/-- R223, R231: the loop's condition fails at once. -/
theorem fetchStage_of_idle {s : State} (h : FetchIdle s) : fetchStage s.openCycle = .next s.openCycle := by
  have hclosed : s.openCycle.fetchOpen = false := by
    rw [State.fetchOpen, State.openCycle_next_fetch, State.openCycle_setup, h.range, Bool.and_false]
  simp [fetchStage, fetchLoop, h.halt, h.stalled, hclosed]

theorem cycle_fetch_of_idle {s t : State} (hidle : FetchIdle s) (h : cycle s = .next t) : t.cur.fetch = s.cur.fetch :=
  (cycle_after_fetchStage (fetchStage_of_idle hidle) scanUnbegun_fresh h).1

/-- Without a requested halt a cycle leaves the status as it was (R293). -/
theorem cycle_status_of_idle {s t : State} (hidle : FetchIdle s) (h : cycle s = .next t) : t.status = s.status := by
  rw [cycle_status h, Gen.finished, cycle_fetch_of_idle hidle h, hidle.halt]
  rfl

/-- `t` is where an idling fetch stage can leave `s`: the same fetch registers and parameters, and no new halt. -/
structure IdlesTo (s t : State) : Prop where
  fetch : t.cur.fetch = s.cur.fetch
  setup : t.setup = s.setup
  halted : t.status = .halted → s.status = .halted

theorem idlesTo_of_step {s t : State} (hidle : FetchIdle s) (h : step s = .next t) : IdlesTo s t := by
  obtain ⟨-, hcycle⟩ | ⟨-, f, rfl⟩ | ⟨-, rfl⟩ := step_cases h
  · exact ⟨cycle_fetch_of_idle hidle hcycle, cycle_setup hcycle, fun ht => cycle_status_of_idle hidle hcycle ▸ ht⟩
  · exact ⟨rfl, rfl, fun ht => by cases ht⟩
  · exact ⟨rfl, rfl, id⟩

theorem idlesTo_of_reaches {s t : State} (hidle : FetchIdle s) (h : Reaches s t) : IdlesTo s t := by
  induction h with
  | refl => exact ⟨rfl, rfl, id⟩
  | step _ hstep ih =>
    have hone := idlesTo_of_step (hidle.of_eq ih.fetch ih.setup) hstep
    exact ⟨hone.fetch.trans ih.fetch, hone.setup.trans ih.setup, ih.halted ∘ hone.halted⟩

/-- Settles O21: the fetch loop does not open, every step keeps it so, and without a requested halt no cycle ends the
run. -/
theorem outOfRangeFetchIdles : Obligations.OutOfRangeFetchIdles := by
  intro s hhalt hstalled hrange
  have hidle : FetchIdle s := ⟨hhalt, hstalled, (inRange_eq_false_iff _ _).mpr hrange⟩
  refine ⟨fetchStage_of_idle hidle, fun t ht => ?_⟩
  obtain ⟨hfetch, -, hhalted⟩ := idlesTo_of_reaches hidle ht
  exact ⟨hfetch, fun hrun hh => by cases hrun.symm.trans (hhalted hh)⟩

end Sys2Proof.Proofs.Fetch
end

section

/-! The issue scan at one record (R240, R248): what it issues and what it leaves in the window. -/

namespace Sys2Proof.Proofs.Issue

open Sys2Proof.Machine

section Scan

variable {s : State} {i : Instr} {k : QueueId} (ins : Rec)

theorem tryIssue_of_canIssue (h : s.canIssue i k = true) : s.tryIssue i k ins = s.issueTo i k ins := if_pos h

theorem tryIssue_of_not_canIssue (h : s.canIssue i k = false) : s.tryIssue i k ins = s.keepInWindow ins :=
  if_neg (ne_true_of_eq_false h)

/-- R240: an instruction that has a queue is tried for that queue. -/
theorem exec_issue_of_queueOf {ins : Rec} (hqueue : queueOf i = some k) (hstation : s.work.station = .issue ins) :
    exec i s = .next (s.tryIssue i k ins) := by
  rw [exec_issue i s ins hstation, scannedAt, hqueue]

end Scan

/-- Settles O24: the scan tries the record for its queue, and `canIssue` decides between R248's action and the window. -/
theorem issueAction : Obligations.IssueAction := by
  intro i k s ins hqueue hstation
  rw [exec_issue_of_queueOf hqueue hstation]
  refine ⟨fun hcan => ?_, fun hcannot => ?_⟩
  · rw [tryIssue_of_canIssue ins hcan]
    rfl
  · rw [tryIssue_of_not_canIssue ins hcannot]
    rfl

end Sys2Proof.Proofs.Issue
end

section

/-! The units at their stations: the address ALU2 forms (R262), the product MUL1 forms (R265), and the two latches that
MUL2 and MUL3 pass on (R266, R267), at the stations and over a cycle. -/

namespace Sys2Proof.Proofs.Units

open Sys2Proof.Machine Sys2Proof.Proofs.CycleFront

/-! ### ALU2 -/

/-- Settles O30: ALU2 adds the record's immediate, which for both kinds is the sign-extended offset (R73). -/
theorem effectiveAddress : Obligations.EffectiveAddress := by
  intro base rt off s ins hst
  exact ⟨exec_alu2 (.sw base rt off) s ins hst, exec_alu2 (.lw base rt off) s ins hst⟩

/-! ### MUL1 -/

/-- R151: 64 bits are enough, for the product of two 32-bit numbers is at most `2^62` in absolute value. -/
@[simp] theorem product64_toInt (a b : Word) : (product64 a b).toInt = a.toInt * b.toInt := by
  have hle : a.toInt * b.toInt ≤ 2 ^ 62 := BitVec.toInt_mul_toInt_le
  have hge : -2 ^ 62 ≤ a.toInt * b.toInt := BitVec.le_toInt_mul_toInt
  exact BitVec.toInt_ofInt_eq_self (by decide) (by omega) (by omega)

/-- R151: the two halves are the whole product. -/
@[simp] theorem productHi_append_productLo (a b : Word) : productHi a b ++ productLo a b = product64 a b :=
  (BitVec.extractLsb'_append_extractLsb'_eq_extractLsb' rfl).trans BitVec.extractLsb'_eq_self

/-- Settles O33: MUL1 leaves the halves of the 64-bit product, which is exact. -/
theorem exactProduct : Obligations.ExactProduct := by
  intro ra rb s ins hst
  refine ⟨productHi ins.v1 ins.v2, productLo ins.v1 ins.v2, exec_mul1 (.mult ra rb) s ins hst, ?_⟩
  rw [productHi_append_productLo, product64_toInt]

/-! ### The latches behind MUL2 and MUL3: what the other units and writeback leave of them -/

/-- The stations of the units and of writeback at which neither `MUL2O` nor `MUL3O` is written. -/
def leavesPassed : Station → Bool
  | .fetch | .retry _ | .issue _ | .mul2 .. | .mul3 .. => false
  | _ => true

/-- `MUL2O` and `MUL3O` of the next generation are the same. -/
structure KeepsPassed (s t : State) : Prop where
  mul2o : t.next.latches.mul2o = s.next.latches.mul2o
  mul3o : t.next.latches.mul3o = s.next.latches.mul3o

theorem KeepsPassed.refl (s : State) : KeepsPassed s s := ⟨rfl, rfl⟩

theorem KeepsPassed.trans {s t u : State} (h : KeepsPassed s t) (k : KeepsPassed t u) : KeepsPassed s u :=
  ⟨k.mul2o.trans h.mul2o, k.mul3o.trans h.mul3o⟩

section Operations

variable {s t : State} {ins : Rec} {ea : Word}

/-- R201: a register write leaves every latch. -/
theorem rfSet_keepsPassed {d : DRef} {v : Word} (h : s.rfSet d v = .next t) : KeepsPassed s t := by
  cases d with
  | none => cases h; exact .refl s
  | gpr i => cases h; exact ⟨rfl, rfl⟩
  | hilo => cases h

/-- R263: a load writes `MEMO`. -/
theorem loadFrom_keepsPassed (h : s.loadFrom ins ea = .next t) : KeepsPassed s t := by
  unfold State.loadFrom at h
  split at h <;> cases h
  exact ⟨rfl, rfl⟩

/-- R263: a store writes the memory and no latch. -/
theorem storeTo_keepsPassed (h : s.storeTo ins ea = .next t) : KeepsPassed s t := by
  unfold State.storeTo at h
  split at h <;> cases h
  exact ⟨rfl, rfl⟩

/-- R264: the DIV unit writes `DIVO`. -/
theorem divide_keepsPassed (h : s.divide ins = .next t) : KeepsPassed s t := by
  unfold State.divide at h
  split at h <;> cases h
  exact ⟨rfl, rfl⟩

end Operations

/-- R270: every unit but MUL2 and MUL3 has another latch of its own, and writeback has none. -/
theorem exec_keepsPassed {i : Instr} {s t : State} (hst : leavesPassed s.work.station = true)
    (h : exec i s = .next t) : KeepsPassed s t := by
  cases hat : s.work.station with
  | fetch | retry _ | issue _ | mul2 _ _ _ | mul3 _ _ _ => rw [hat] at hst; cases hst
  | alu1 ins =>
    rw [exec_alu1 i s ins hat] at h
    split at h <;> cases h
    exact ⟨rfl, rfl⟩
  | alu2 ins => rw [exec_alu2 i s ins hat] at h; cases h; exact ⟨rfl, rfl⟩
  | mem ins ea =>
    rw [exec_mem i s ins ea hat] at h
    split_ifs at h
    · exact loadFrom_keepsPassed h
    · exact storeTo_keepsPassed h
  | div ins => exact divide_keepsPassed (exec_div i s ins hat ▸ h)
  | mul1 ins => rw [exec_mul1 i s ins hat] at h; cases h; exact ⟨rfl, rfl⟩
  | wbAlu ins v => exact rfSet_keepsPassed (exec_wbAlu i s ins v hat ▸ h)
  | wbMem ins v => exact rfSet_keepsPassed (exec_wbMem i s ins v hat ▸ h)
  | wbDiv ins hi lo => rw [exec_wbDiv i s ins hi lo hat] at h; cases h; exact ⟨rfl, rfl⟩
  | wbMul ins hi lo => rw [exec_wbMul i s ins hi lo hat] at h; cases h; exact ⟨rfl, rfl⟩

theorem runAt_keepsPassed {st : Station} {ins : Rec} {s t : State} (hst : leavesPassed st = true)
    (h : runAt st ins s = .next t) : KeepsPassed s t :=
  KeepsPassed.trans (t := s.present st) ⟨rfl, rfl⟩ (exec_keepsPassed hst h)

/-! ### Over a cycle -/

/-- The units that run before MUL2 and MUL3 (R291). -/
abbrev unitsBefore : List (State → Out) := [memStage, divStage, mul1Stage, alu1Stage, alu2Stage]

/-- The four writebacks, after MUL2 and MUL3 (R285, R291). -/
abbrev writebacks : List (State → Out) := [wbAluStage, wbMemStage, wbDivStage, wbMulStage]

theorem stages_drop_two : stages.drop 2 = unitsBefore ++ mul2Stage :: mul3Stage :: writebacks := rfl

theorem stage_keepsPassed {f : State → Out} (hf : f ∈ unitsBefore ++ writebacks) {s t : State} (h : f s = .next t) :
    KeepsPassed s t := by
  simp only [List.cons_append, List.nil_append, List.mem_cons, List.not_mem_nil, or_false] at hf
  rcases hf with rfl | rfl | rfl | rfl | rfl | rfl | rfl | rfl | rfl
  all_goals
    simp only [memStage, divStage, mul1Stage, alu1Stage, alu2Stage, wbAluStage, wbMemStage, wbDivStage, wbMulStage] at h
    split at h
    · cases h; exact .refl s
    · exact runAt_keepsPassed rfl h

theorem runStages_keepsPassed (fs : List (State → Out)) (hfs : fs ⊆ unitsBefore ++ writebacks) {s t : State}
    (h : runStages fs s = .next t) : KeepsPassed s t := by
  induction fs generalizing s with
  | nil => cases h; exact .refl _
  | cons f fs ih =>
    obtain ⟨hf, hfs⟩ := List.cons_subset.mp hfs
    obtain ⟨u, hu, h⟩ := andThen_eq_next h
    exact (stage_keepsPassed hf hu).trans (ih hfs h)

/-- R291: a run of stages may be cut in two. -/
theorem runStages_append (fs gs : List (State → Out)) (s : State) :
    runStages (fs ++ gs) s = andThen (runStages fs s) (runStages gs) := by
  induction fs generalizing s with
  | nil => rfl
  | cons f fs ih =>
    simp only [List.cons_append, runStages]
    cases f s with
    | next u => exact ih u
    | fault _ | refused _ => rfl

/-- R266, R267: behind fetch and issue, MUL2 alone writes `MUL2O` and MUL3 alone `MUL3O`, each from the latch before. -/
theorem runUnitStages_passed {s t : State} (hm2 : s.next.latches.mul2o = none) (hm3 : s.next.latches.mul3o = none)
    (h : runStages (stages.drop 2) s = .next t) :
    t.next.latches.mul2o = s.cur.latches.mul1o ∧ t.next.latches.mul3o = s.cur.latches.mul2o := by
  rw [stages_drop_two, runStages_append] at h
  obtain ⟨u, hu, h⟩ := andThen_eq_next h
  have hbefore : KeepsPassed s u := runStages_keepsPassed _ (List.subset_append_left ..) hu
  have hcur : u.cur = s.cur := (runStages_keeps unitsBefore (by simp [stages]) s u hu).cur
  obtain ⟨v, hv, hpass2⟩ := mul2Stage_did u (hbefore.mul2o.trans hm2)
  obtain ⟨w, hw, hpass3⟩ := mul3Stage_did v (by rw [hpass2.next]; exact hbefore.mul3o.trans hm3)
  simp only [runStages] at h
  rw [hv, andThen_next, hw, andThen_next] at h
  have hafter : KeepsPassed w t := runStages_keepsPassed writebacks (List.subset_append_right ..) h
  constructor
  · rw [hafter.mul2o, hpass3.next, hpass2.next, hcur]
  · rw [hafter.mul3o, hpass3.next, hpass2.cur, hcur]

/-- An outcome that agrees with a stage computed apart and is a next state stands in the relation to its result. -/
theorem exists_of_agrees {α : Type} {o : Out} {r : Except Fault α} {P : α → State → Prop} {t : State}
    (hagrees : Agrees o r P) (h : o = .next t) : ∃ a, P a t := by
  subst h
  cases r with
  | error f => cases hagrees
  | ok a =>
    obtain ⟨u, hu, hP⟩ := hagrees
    cases hu
    exact ⟨a, hP⟩

/-- R220, R240: the fetch stage does not touch the issue scan's accumulators. -/
theorem scanUnbegun_of_fetched {s u : State} {a : FetchRegs × List Rec} (h : Fetched s a u) (hs : ScanUnbegun s.work) :
    ScanUnbegun u.work :=
  ⟨h.older.trans hs.older, h.kept.trans hs.kept, h.enq.trans hs.enq, h.marks ▸ hs.marks⟩

/-- R270, R290: fetch and issue write no latch, so the units start with the next generation's latches empty. -/
theorem frontStages_latches {s u v : State} (hkinds : s.cur.KindsOk) (hfetch : fetchStage s.openCycle = .next u)
    (hissue : issueStage u = .next v) : v.next.latches = Latches.empty ∧ v.cur = s.cur := by
  obtain ⟨a, hfetched⟩ := exists_of_agrees (fetchStage_agrees s.openCycle rfl rfl hkinds.stalled) hfetch
  obtain ⟨w, hscanned, -, -⟩ := issueStage_eq u (scanUnbegun_of_fetched hfetched scanUnbegun_fresh)
  cases hscanned.symm.trans hissue
  exact ⟨congrArg Gen.latches hfetched.next, hfetched.cur⟩

/-- R266, R267, R292: after a cycle the two latches hold what the latches before them held. -/
theorem cycle_passed {s t : State} (hkinds : s.cur.KindsOk) (h : cycle s = .next t) :
    t.cur.latches.mul2o = s.cur.latches.mul1o ∧ t.cur.latches.mul3o = s.cur.latches.mul2o := by
  obtain ⟨w, hw, rfl⟩ := cycle_eq_next h
  rw [runStages_stages] at hw
  obtain ⟨u, hfetch, hw⟩ := andThen_eq_next hw
  obtain ⟨v, hissue, hw⟩ := andThen_eq_next hw
  obtain ⟨hempty, hcur⟩ := frontStages_latches hkinds hfetch hissue
  rw [← hcur]
  exact runUnitStages_passed (by rw [hempty]; rfl) (by rw [hempty]; rfl) hw

/-- Settles O34: MUL2 and MUL3 by their stations' equations, and the cycle by `cycle_passed`. -/
theorem multiplierPassesOn : Obligations.MultiplierPassesOn :=
  ⟨fun ra rb s ins hi lo => exec_mul2 (.mult ra rb) s ins hi lo,
    fun ra rb s ins hi lo => exec_mul3 (.mult ra rb) s ins hi lo, fun _ _ => cycle_passed⟩

end Sys2Proof.Proofs.Units
end

section

/-! The cycle against the transition function of R291 written apart (Machine/Reference.lean): every stage agrees with
its part of that function, so a cycle builds the function's generation, or ends in its fault. -/

namespace Sys2Proof.Proofs.CycleReference

open Sys2Proof.Machine Sys2Proof.Proofs.CycleFront Sys2Proof.Proofs.Units

section Agreement

variable {α β : Type} {o : Out} {r : Except Fault α} {P : α → State → Prop}

/-- R294, R307: a stage that agrees with a part `r` of the computation `whole` runs first. A fault of `r` has to be the
fault of `whole`; with a result of `r`, the stages behind it have to agree with `whole`. -/
theorem agrees_andThen {f : State → Out} {whole : Except Fault β} {Q : β → State → Prop} (h : Agrees o r P)
    (herror : ∀ e, r = .error e → whole = .error e) (hok : ∀ a t, r = .ok a → P a t → Agrees (f t) whole Q) :
    Agrees (andThen o f) whole Q := by
  cases r with
  | error e =>
    rw [herror e rfl, (agrees_error o e P).mp h]
    rfl
  | ok a =>
    obtain ⟨t, rfl, ht⟩ := h
    exact hok a t rfl ht

/-- An outcome that agrees with a computation and is a next state comes of a result of it. -/
theorem ok_of_agrees {t : State} (h : Agrees o r P) (ho : o = .next t) : ∃ a, r = .ok a ∧ P a t := by
  subst ho
  cases r with
  | error e => cases h
  | ok a =>
    obtain ⟨u, hu, hP⟩ := h
    cases hu
    exact ⟨a, rfl, hP⟩

end Agreement

/-- What one stage has done and what the next has done on it. -/
theorem did_trans {s t u : State} {n m : Gen} (h : Did s t n) (k : Did t u m) : Did s u m :=
  ⟨k.next, k.cur.trans h.cur, k.status.trans h.status, k.cycles.trans h.cycles, k.setup.trans h.setup,
    k.newFw.trans h.newFw, k.kept.trans h.kept, k.marks.trans h.marks, k.enq.trans h.enq⟩

/-! ### Behind ALU1 no stage faults -/

/-- R286: the flags after the four writebacks, one after another. -/
def clearedFlags (aw : Scoreboard) (l : Latches) : Scoreboard :=
  clearPair (clearPair (clearLatch (clearLatch aw l.aluo) l.memo) l.divo) l.mul3o

/-- R288: a flag stays set through the writebacks if no latch written back clears it. -/
theorem clearedFlags_flag {g : Gen} (hkinds : g.KindsOk) (aw : Scoreboard) (r : PReg) :
    (clearedFlags aw g.latches).flag r = (aw.flag r && decide (r ∉ Reference.cleared g)) := by
  rw [clearedFlags, clearPair_flag _ _ _ fun l hl => dest_of_mul _ (hkinds.mul3o l hl),
    clearPair_flag _ _ _ fun l hl => dest_of_div _ (hkinds.divo l hl), clearLatch_flag, clearLatch_flag]
  simp only [Reference.cleared, List.flatMap_append, List.mem_append, not_or, Bool.decide_and, Bool.and_assoc]

/-- R262, R266, R267, R280 to R286: ALU2, MUL2 and MUL3 fill their latches, and the four writebacks write registers and
clear flags. -/
theorem runStagesBehindAlu1_did {s : State} (hkinds : s.cur.KindsOk) (hlsa : s.next.latches.lsa = none)
    (hmul2o : s.next.latches.mul2o = none) (hmul3o : s.next.latches.mul3o = none) :
    ∃ t, runStages (stages.drop 6) s = .next t ∧ Did s t { s.next with
      latches := { s.next.latches with
        lsa := s.cur.queues.ls.head?.map (fun b => { ins := b, value := b.v1 + immOf b.instr })
        mul2o := s.cur.latches.mul1o
        mul3o := s.cur.latches.mul2o }
      regs := putPair (putPair
        { s.next.regs with x := putLatch (putLatch s.next.regs.x s.cur.latches.aluo) s.cur.latches.memo }
        s.cur.latches.divo) s.cur.latches.mul3o
      aw := clearedFlags s.next.aw s.cur.latches } := by
  obtain ⟨t₁, h₁, d₁⟩ := alu2Stage_did s hlsa
  obtain ⟨t₂, h₂, d₂⟩ := mul2Stage_did t₁ (by rw [d₁.next]; exact hmul2o)
  obtain ⟨t₃, h₃, d₃⟩ := mul3Stage_did t₂ (by rw [d₂.next, d₁.next]; exact hmul3o)
  have hunits := did_trans d₁ (did_trans d₂ d₃)
  have hcur : t₃.cur = s.cur := hunits.cur
  obtain ⟨t₄, h₄, d₄⟩ := wbAluStage_did t₃ (by rw [hcur]; exact fun l hl => dest_of_alu _ (hkinds.aluo l hl))
  obtain ⟨t₅, h₅, d₅⟩ := wbMemStage_did t₄ (by rw [d₄.cur, hcur]; exact fun l hl => dest_of_load _ (hkinds.memo l hl))
  obtain ⟨t₆, h₆, d₆⟩ := wbDivStage_did t₅
  obtain ⟨t₇, h₇, d₇⟩ := wbMulStage_did t₆
  refine ⟨t₇, ?_, ?_⟩
  · simp only [stages, List.drop_succ_cons, List.drop_zero, runStages, andThen_next, h₁, h₂, h₃, h₄, h₅, h₆, h₇]
  · have hall := did_trans hunits (did_trans d₄ (did_trans d₅ (did_trans d₆ d₇)))
    rw [d₆.next, d₆.cur, d₅.next, d₅.cur, d₄.next, d₄.cur, hcur, d₃.next, d₂.next, d₂.cur, d₁.next, d₁.cur] at hall
    exact hall

/-! ### All thirteen stages -/

/-- Fetch and issue have run, and nothing behind them: `a` is what the fetch stage left (R220), and the scan of the
window is done (R240). -/
structure FrontDone (a : FetchRegs × List Rec) (s : State) : Prop where
  fetch : Reference.fetch s.setup s.cur = .ok a
  next : s.next = { s.cur with fetch := a.1, latches := Latches.empty }
  newFw : s.work.newFw = a.2
  scan : ScanMatches s.work s.cur.fw (Reference.issue s.setup s.cur)

/-- The next generation when MUL1 is done: the fetch registers are `f`, MEM left the latch and the memory `m`, and DIV
the latch `q` (R263 to R265). -/
def afterMul1 (g : Gen) (f : FetchRegs) (m : Option Latch × Memory) (q : Option PairLatch) : Gen :=
  { g with
    fetch := f
    latches := { Latches.empty with
      memo := m.1
      divo := q
      mul1o := g.queues.mul.head?.map (fun b => { ins := b, hi := productHi b.v1 b.v2, lo := productLo b.v1 b.v2 }) }
    mem := m.2 }

/-- The next generation when ALU1 is done too and left the latch `l` (R261). -/
def afterAlu1 (g : Gen) (f : FetchRegs) (m : Option Latch × Memory) (q : Option PairLatch) (l : Option Latch) : Gen :=
  let n := afterMul1 g f m q
  { n with latches := { n.latches with aluo := l } }

section Behind

variable {a : FetchRegs × List Rec} {m : Option Latch × Memory} {q : Option PairLatch} {l : Option Latch} {s t : State}

/-- R288, R291: with the units that can fault done, the rest of the cycle completes the transition function's
generation. -/
theorem runStagesBehindAlu1_nextGen (hkinds : s.cur.KindsOk) (hfront : FrontDone a s)
    (hmem : Reference.mem s.setup s.cur = .ok m) (hdiv : Reference.div s.cur = .ok q)
    (halu : Reference.alu1 s.cur = .ok l) (hdid : Did s t (afterAlu1 s.cur a.1 m q l)) :
    ∃ v, runStages (stages.drop 6) t = .next v ∧ Reference.cycle s.setup s.cur = .ok v.nextGen := by
  obtain ⟨v, hv, d⟩ := runStagesBehindAlu1_did (s := t) (by rw [hdid.cur]; exact hkinds) (by rw [hdid.next]; rfl)
    (by rw [hdid.next]; rfl) (by rw [hdid.next]; rfl)
  rw [hdid.next, hdid.cur] at d
  replace d := did_trans hdid d
  have hflags (r : PReg) : (v.next.aw.union v.work.marks).flag r =
      Reference.nextFlag s.cur (Reference.issue s.setup s.cur).marks r := by
    rw [Scoreboard.flag_union, d.next, d.marks, hfront.scan.marks, clearedFlags_flag hkinds]
    rfl
  refine ⟨v, hv, ?_⟩
  rw [State.nextGen, Scoreboard.eq_ofFlags _ _ hflags, d.next, d.cur, d.enq, d.kept, d.newFw, hfront.scan.kept,
    hfront.scan.enq, hfront.newFw]
  simp only [Reference.cycle, hfront.fetch, hmem, hdiv, halu, ← writeback_regs]
  rfl

/-- R263 to R265: MUL1 behind MEM and DIV. -/
theorem mul1Stage_afterMul1 (hdid : Did s t { s.cur with
      fetch := a.1, latches := { Latches.empty with memo := m.1, divo := q }, mem := m.2 }) :
    ∃ u, mul1Stage t = .next u ∧ Did s u (afterMul1 s.cur a.1 m q) := by
  obtain ⟨u, hu, d⟩ := mul1Stage_did t (by rw [hdid.next]; rfl)
  rw [hdid.next, hdid.cur] at d
  exact ⟨u, hu, did_trans hdid d⟩

/-- R291: the units and the writebacks, behind fetch and issue, agree with the transition function. -/
theorem runUnitStages_agrees (hkinds : s.cur.KindsOk) (hfront : FrontDone a s) :
    Agrees (runStages (stages.drop 2) s) (Reference.cycle s.setup s.cur) (fun g v => v.nextGen = g) := by
  have hfetch := hfront.fetch
  have hnext := hfront.next
  refine agrees_andThen (memStage_agrees s (by rw [hnext]) (by rw [hnext]; rfl))
    (fun e he => by simp only [Reference.cycle, hfetch, he]) fun m t₁ hmem d₁ => ?_
  rw [hnext] at d₁
  refine agrees_andThen (divStage_agrees t₁ (by rw [d₁.next]; rfl)) ?_ fun q t₂ hdiv d₂ => ?_
  · rw [d₁.cur]
    exact fun e he => by simp only [Reference.cycle, hfetch, hmem, he]
  rw [d₁.cur] at hdiv
  rw [d₁.next] at d₂
  obtain ⟨t₃, h₃, d₃⟩ := mul1Stage_afterMul1 (did_trans d₁ d₂)
  rw [runStages, h₃, andThen_next]
  refine agrees_andThen (alu1Stage_agrees t₃ (by rw [d₃.next]; rfl)) ?_ fun l t₄ halu d₄ => ?_
  · rw [d₃.cur]
    exact fun e he => by simp only [Reference.cycle, hfetch, hmem, hdiv, he]
  rw [d₃.cur] at halu
  rw [d₃.next] at d₄
  obtain ⟨v, hv, hcycle⟩ := runStagesBehindAlu1_nextGen hkinds hfront hmem hdiv halu (did_trans d₃ d₄)
  rw [hcycle, agrees_ok]
  exact ⟨v, hv, rfl⟩

end Behind

/-- R220, R240: fetch and issue of a cycle. -/
theorem frontDone_of_fetched {a : FetchRegs × List Rec} {s u : State} {w : Work}
    (hfetch : Reference.fetch s.setup s.cur = .ok a) (hu : Fetched s.openCycle a u) (hnew : w.newFw = u.work.newFw)
    (hscan : ScanMatches w u.cur.fw (Reference.issue u.setup u.cur)) : FrontDone a (u.setWork w) where
  fetch := by rw [State.setWork_cur, State.setWork_setup, hu.cur, hu.setup]; exact hfetch
  next := by rw [State.setWork_next, State.setWork_cur, hu.cur]; exact hu.next
  newFw := hnew.trans hu.newFw
  scan := hscan

/-- R291: the stages in their order build the generation of the transition function, or raise its fault. -/
theorem runStages_agrees {s : State} (hkinds : s.cur.KindsOk) :
    Agrees (runStages stages s.openCycle) (Reference.cycle s.setup s.cur) (fun g v => v.nextGen = g) := by
  rw [runStages_stages]
  refine agrees_andThen (fetchStage_agrees s.openCycle rfl rfl hkinds.stalled) ?_ fun a u hfetch hu => ?_
  · rw [State.openCycle_cur, State.openCycle_setup]
    exact fun e he => by simp only [Reference.cycle, he]
  obtain ⟨w, hissue, hnew, hscan⟩ := issueStage_eq u (scanUnbegun_of_fetched hu scanUnbegun_fresh)
  have hdone := frontDone_of_fetched hfetch hu hnew hscan
  have hcur : (u.setWork w).cur = s.cur := hu.cur
  have hsetup : (u.setWork w).setup = s.setup := hu.setup
  have hagrees := runUnitStages_agrees (by rw [hcur]; exact hkinds) hdone
  rw [hcur, hsetup] at hagrees
  rwa [hissue, andThen_next]

/-- R291, R292: a cycle that does not fault adopts the generation of the transition function. -/
theorem reference_cycle_of_next {s t : State} (hkinds : s.cur.KindsOk) (h : cycle s = .next t) :
    Reference.cycle s.setup s.cur = .ok t.cur := by
  obtain ⟨v, hv, rfl⟩ := cycle_eq_next h
  obtain ⟨g, hg, rfl⟩ := ok_of_agrees (runStages_agrees hkinds) hv
  exact hg

end Sys2Proof.Proofs.CycleReference
end

section

/-! Writeback: what it does at its stations (R281 to R284), and the awaiting flags over a cycle (R288). -/

namespace Sys2Proof.Proofs.Writeback

open Sys2Proof.Machine Sys2Proof.Proofs.Registers Sys2Proof.Proofs.CycleReference

/-! ### At the stations -/

/-- R281, R282: writeback of a single value writes the record's destination, from either latch. -/
theorem exec_writeback {i : Instr} {s : State} {ins : Rec} {v : Word}
    (hst : s.work.station = .wbAlu ins v ∨ s.work.station = .wbMem ins v) : exec i s = s.rfSet (destOf i) v :=
  hst.elim (exec_wbAlu i s ins v) (exec_wbMem i s ins v)

/-- R283, R284: writeback of a pair writes HI and LO. -/
theorem exec_pairWriteback {i : Instr} {s : State} {ins : Rec} {hi lo : Word}
    (hst : s.work.station = .wbDiv ins hi lo ∨ s.work.station = .wbMul ins hi lo) :
    exec i s = .next (s.rfSetPair hi lo) :=
  hst.elim (exec_wbDiv i s ins hi lo) (exec_wbMul i s ins hi lo)

/-- Settles O38: the writeback is `rfSet` of the destination, and R201 says what that writes and clears. -/
theorem generalWriteback : Obligations.GeneralWriteback := by
  intro i rd s ins v hdest hst
  have hexec : exec i s = s.rfSet (.gpr rd) v := hdest ▸ exec_writeback (hst.imp And.right And.right)
  refine ⟨_, hexec.trans (rfSet_gpr s rd v), ?_, fun j hj => ?_, rfl, rfl, ?_, fun r hr => ?_,
    setRegs_setAw_frame s _ _⟩
  · simp
  · simpa using Vector.getElem_set_ne (xs := s.next.regs.x) rd.isLt j.isLt (Fin.val_ne_of_ne hj.symm)
  · rw [State.setAw_next_aw, flag_put_gpr, if_pos rfl]
  · rw [State.setAw_next_aw, flag_put_gpr, if_neg hr]

/-- Settles O39: the writeback is `rfSetPair`, which writes both halves and clears both flags. -/
theorem pairWriteback : Obligations.PairWriteback := by
  intro ra rb s ins hi lo i hst
  refine ⟨_, exec_pairWriteback (hst.imp And.right And.right), rfSetPair_next_regs s hi lo, ?_, ?_, fun k => ?_,
    setRegs_setAw_frame s _ _⟩
  · rw [rfSetPair_next_aw, flag_put_hilo, if_pos (.inl rfl)]
  · rw [rfSetPair_next_aw, flag_put_hilo, if_pos (.inr rfl)]
  · rw [rfSetPair_next_aw, flag_put_hilo, if_neg (by simp)]

/-! ### The awaiting flags over a cycle -/

/-- R288: the flags of the transition function's generation. -/
theorem reference_cycle_flag {c : Setup} {g n : Gen} (h : Reference.cycle c g = .ok n) (r : PReg) :
    n.aw.flag r = Reference.nextFlag g (Reference.issue c g).marks r := by
  unfold Reference.cycle at h
  iterate 4
    split at h
    · cases h
  cases h
  cases r <;> simp [Scoreboard.flag]

/-- R208, R288: the records in the four final latches are issued records. -/
theorem exists_issued_writer {g : Gen} {r : PReg} (h : r ∈ Reference.cleared g) :
    ∃ b ∈ g.issued, r ∈ writesOf b.instr := by
  obtain ⟨b, hb, hr⟩ := List.mem_flatMap.mp h
  refine ⟨b, ?_, hr⟩
  simp only [Gen.issued, List.mem_append] at hb ⊢
  tauto

/-- R208: where the scoreboard is exact, every register that an issued record writes is awaiting. -/
theorem flag_of_issued_writer {g : Gen} (hexact : g.scoreboardOk) {b : Rec} (hb : b ∈ g.issued) {r : PReg}
    (hr : r ∈ writesOf b.instr) : g.aw.flag r = true := by
  have hpos : 0 < writersIn g.issued r := List.countP_pos_iff.mpr ⟨b, hb, decide_eq_true hr⟩
  rw [hexact r] at hpos
  by_contra hflag
  simp [hflag] at hpos

/-- Settles O7: the cycle's flags are those of the transition function. A cleared register was awaiting, by the exact
scoreboard, and a marked one was not, by the issue condition (a). -/
theorem flagsAfterCycle : Obligations.FlagsAfterCycle := by
  intro s t hkinds hcycle
  refine ⟨reference_cycle_flag (reference_cycle_of_next hkinds hcycle), fun hexact r hcleared hmarked => ?_⟩
  obtain ⟨b, hb, hr⟩ := exists_issued_writer hcleared
  have hset : s.cur.aw.flag r = true := flag_of_issued_writer hexact hb hr
  have hclear : s.cur.aw.flag r = false := (issue_facts s.setup s.cur).marksFree r hmarked
  cases hset.symm.trans hclear

end Sys2Proof.Proofs.Writeback
end

section

/-! The faults of the execute units: a zero divisor (R304), and the internal fault (R305), which no cycle raises where
every record stands where its kind can stand. -/

namespace Sys2Proof.Proofs.Exceptions

open Sys2Proof.Machine Sys2Proof.Proofs.CycleReference

/-! ### The DIV unit -/

theorem divide_of_zero {s : State} {ins : Rec} (h : ins.v2 = 0#32) : s.divide ins = .fault (.divideByZero ins.addr) :=
  if_pos h

theorem divide_of_nonzero {s : State} {ins : Rec} (h : ins.v2 ≠ 0#32) :
    s.divide ins = .next (s.setLatches { s.next.latches with
      divo := some { ins := ins, hi := remainder ins.v1 ins.v2, lo := quotient ins.v1 ins.v2 } }) :=
  if_neg h

/-- Settles O36: at its unit DIV is `divide`, which tests the divisor. -/
theorem zeroDivisorFaults : Obligations.ZeroDivisorFaults := by
  intro ra rb s ins hst
  rw [exec_div (.div ra rb) s ins hst]
  exact ⟨divide_of_zero, fun h => ⟨_, divide_of_nonzero h⟩⟩

/-! ### The kinds that ALU1 and MEM take -/

/-- R246, R261: the kinds without a row in ALU1's table are those that `ALUQ` does not take. -/
theorem aluResult_eq_none_iff (i : Instr) (v1 v2 : Word) : aluResult i v1 v2 = none ↔ queueOf i ≠ some .alu := by
  cases i <;> simp [aluResult, queueOf]

/-- R246: `LSQ` takes the loads and the stores. -/
theorem queueOf_eq_ls_iff (i : Instr) : queueOf i = some .ls ↔ isLoad i = true ∨ isStore i = true := by
  cases i <;> simp [queueOf, isLoad, isStore]

theorem exec_alu1_of_not_alu {i : Instr} {s : State} {ins : Rec} (hst : s.work.station = .alu1 ins)
    (hqueue : queueOf i ≠ some .alu) : exec i s = .fault .internal := by
  rw [exec_alu1 i s ins hst, (aluResult_eq_none_iff i ins.v1 ins.v2).mpr hqueue]

theorem exec_mem_of_not_ls {i : Instr} {s : State} {ins : Rec} {ea : Word} (hst : s.work.station = .mem ins ea)
    (hqueue : queueOf i ≠ some .ls) : exec i s = .fault .internal := by
  obtain ⟨hload, hstore⟩ := not_or.mp (mt (queueOf_eq_ls_iff i).mpr hqueue)
  rw [exec_mem i s ins ea hst, if_neg hload, if_neg hstore]

/-! ### The transition function of R291 never ends in the internal fault -/

/-- R223, R230: the fetch loop's one fault is that of an illegal word. -/
theorem fetchLoop_ne_internal (c : Setup) (g : Gen) (n : Nat) (p : Word) (newFw : List Rec) :
    Reference.fetchLoop c g n p newFw ≠ .error .internal := by
  induction n generalizing p newFw with
  | zero => simp [Reference.fetchLoop]
  | succ n ih =>
    simp only [Reference.fetchLoop]
    split_ifs
    · split
      · simp
      · split_ifs
        · simp
        · simp
        · simp
        · exact ih _ _
    · simp

theorem fetch_ne_internal (c : Setup) (g : Gen) : Reference.fetch c g ≠ .error .internal := by
  rw [Reference.fetch]
  split_ifs
  · simp
  · split
    · split_ifs <;> simp
    · exact fetchLoop_ne_internal c g 4 g.fetch.pc []

/-- R263, R302, R303: a load or a store in `LSA` ends in no fault but those of its address. -/
theorem mem_ne_internal (c : Setup) {g : Gen} (hlsa : ∀ l ∈ g.latches.lsa, queueOf l.ins.instr = some .ls) :
    Reference.mem c g ≠ .error .internal := by
  rw [Reference.mem]
  split
  · simp
  next l hl =>
    split_ifs with hload _ hstore
    · simp
    · simp
    · simp
    · simp
    · simp
    · exact absurd ((queueOf_eq_ls_iff _).mp (hlsa l hl)) (not_or.mpr ⟨hload, hstore⟩)

/-- R264, R304. -/
theorem div_ne_internal (g : Gen) : Reference.div g ≠ .error .internal := by
  rw [Reference.div]
  split
  · simp
  · split_ifs <;> simp

/-- R261: ALU1's table has a row for every kind that `ALUQ` holds. -/
theorem alu1_ne_internal {g : Gen} (halu : ∀ b ∈ g.queues.alu, queueOf b.instr = some .alu) :
    Reference.alu1 g ≠ .error .internal := by
  rw [Reference.alu1]
  split
  · simp
  next b bs hq =>
    split
    · simp
    next hnone => exact absurd (halu b (by simp [hq])) ((aluResult_eq_none_iff _ _ _).mp hnone)

/-- R305: where every record stands where it can, none of the four parts that can fault raises the internal fault. -/
theorem reference_cycle_ne_internal (c : Setup) {g : Gen} (hkinds : g.KindsOk) :
    Reference.cycle c g ≠ .error .internal := by
  intro h
  unfold Reference.cycle at h
  split at h
  next f hf => cases h; exact fetch_ne_internal c g hf
  split at h
  next f hf => cases h; exact mem_ne_internal c hkinds.lsa hf
  split at h
  next f hf => cases h; exact div_ne_internal g hf
  split at h
  next f hf => cases h; exact alu1_ne_internal hkinds.alu hf
  cases h

/-! ### The cycle -/

/-- An outcome that agrees with a computation and is a fault is that computation's fault. -/
theorem error_of_agrees {α : Type} {o : Out} {r : Except Fault α} {P : α → State → Prop} {f : Fault}
    (h : Agrees o r P) (ho : o = .fault f) : r = .error f := by
  subst ho
  cases r with
  | error e => cases h; rfl
  | ok a =>
    obtain ⟨t, ht, -⟩ := h
    cases ht

/-- R294: a cycle that faults does so in its stages, for the swap does not fault. -/
theorem runStages_of_cycle_fault {s : State} {f : Fault} (h : cycle s = .fault f) :
    runStages stages s.openCycle = .fault f := by
  unfold cycle at h
  cases hrun : runStages stages s.openCycle with
  | next t => rw [hrun] at h; cases h
  | fault e => rw [hrun] at h; cases h; rfl
  | refused e => rw [hrun] at h; cases h

/-- R291, R307: a cycle's fault is that of the transition function. -/
theorem reference_cycle_of_fault {s : State} {f : Fault} (hkinds : s.cur.KindsOk) (h : cycle s = .fault f) :
    Reference.cycle s.setup s.cur = .error f :=
  error_of_agrees (runStages_agrees hkinds) (runStages_of_cycle_fault h)

/-- Settles O37: ALU1 and MEM by the kinds they take; a cycle's fault is the transition function's, which is never the
internal one. -/
theorem internalFaultUnreachable : Obligations.InternalFaultUnreachable :=
  ⟨fun _ _ _ => exec_alu1_of_not_alu, fun _ _ _ _ => exec_mem_of_not_ls,
    fun s hkinds hfault => reference_cycle_ne_internal s.setup hkinds (reference_cycle_of_fault hkinds hfault)⟩

end Sys2Proof.Proofs.Exceptions
end

section

/-! Branch and jump targets (R73, R106): aligned addresses have aligned targets. -/

namespace Sys2Proof.Proofs.Targets

open Sys2Proof.Machine

/-- The numbers of two words, appended: the first counts above the second's bits. -/
theorem append_toNat {m n : Nat} (a : BitVec m) (b : BitVec n) : (a ++ b).toNat = a.toNat * 2 ^ n + b.toNat := by
  rw [BitVec.toNat_append, ← Nat.shiftLeft_add_eq_or_of_lt b.isLt, Nat.shiftLeft_eq]

/-- R73: J's target, as a number: the four top bits of the next address, then four times the index. -/
theorem jumpTarget_toNat (addr : Word) (idx : BitVec 26) :
    (jumpTarget addr idx).toNat = ((addr + 4#32).extractLsb' 28 4).toNat * 2 ^ 28 + 4 * idx.toNat := by
  rw [jumpTarget, append_toNat, append_toNat, BitVec.toNat_zero]
  omega

theorem next_aligned {addr : Word} (h : addr.toNat % 4 = 0) : (addr + 4#32).toNat % 4 = 0 := by
  rw [BitVec.toNat_add, BitVec.toNat_ofNat]
  omega

theorem branchTarget_aligned {addr : Word} (off : Half) (h : addr.toNat % 4 = 0) :
    (branchTarget addr off).toNat % 4 = 0 := by
  have hnext := next_aligned h
  rw [branchTarget, BitVec.toNat_add, BitVec.toNat_shiftLeft, Nat.shiftLeft_eq]
  omega

theorem jumpTarget_aligned (addr : Word) (idx : BitVec 26) : (jumpTarget addr idx).toNat % 4 = 0 := by
  rw [jumpTarget_toNat]
  omega

/-- D7: below `2^27` the next address has no top bits, so the target is the index in words. -/
theorem jumpTarget_toNat_of_low {addr : Word} (idx : BitVec 26) (h : addr.toNat < 2 ^ 27) :
    (jumpTarget addr idx).toNat = 4 * idx.toNat := by
  have htop : ((addr + 4#32).extractLsb' 28 4).toNat = 0 := by
    rw [BitVec.extractLsb'_toNat, Nat.shiftRight_eq_div_pow, BitVec.toNat_add, BitVec.toNat_ofNat]
    omega
  rw [jumpTarget_toNat, htop]
  omega

/-- Settles O13: branches add multiples of 4, and a jump's target ends in two zeros. -/
theorem targetsAligned : Obligations.TargetsAligned :=
  fun addr h => ⟨fun off => branchTarget_aligned off h, jumpTarget_aligned addr, fun idx => jumpTarget_toNat_of_low idx⟩

end Sys2Proof.Proofs.Targets
end

section

/-! The transition function of R291 taken apart once: what each field of the next generation is, as a function of the
current one. A cycle that does not fault makes these its results, so later proofs about cycles start here. -/

namespace Sys2Proof.Proofs.Transition

open Sys2Proof.Machine Sys2Proof.Proofs.CycleReference Sys2Proof.Proofs.Writeback

/-- `n` is the generation after `g` (R291), field by field. -/
structure Becomes (c : Setup) (g n : Gen) : Prop where
  fetch : ∃ new, Reference.fetch c g = .ok (n.fetch, new) ∧ n.fw = (Reference.issue c g).kept ++ new
  queues : ∀ k, n.queues.get k = (g.queues.get k).tail ++ (Reference.issue c g).enq.get k
  mem : Reference.mem c g = .ok (n.latches.memo, n.mem)
  div : Reference.div g = .ok n.latches.divo
  alu1 : Reference.alu1 g = .ok n.latches.aluo
  lsa : n.latches.lsa = g.queues.ls.head?.map (fun b => { ins := b, value := b.v1 + immOf b.instr })
  mul1o : n.latches.mul1o = g.queues.mul.head?.map
    (fun b => { ins := b, hi := productHi b.v1 b.v2, lo := productLo b.v1 b.v2 })
  mul2o : n.latches.mul2o = g.latches.mul1o
  mul3o : n.latches.mul3o = g.latches.mul2o
  regs : n.regs = putPair (putPair
    { x := putLatch (putLatch g.regs.x g.latches.aluo) g.latches.memo, hi := g.regs.hi, lo := g.regs.lo }
    g.latches.divo) g.latches.mul3o
  flag : ∀ r, n.aw.flag r = Reference.nextFlag g (Reference.issue c g).marks r

theorem becomes_of_reference {c : Setup} {g n : Gen} (h : Reference.cycle c g = .ok n) : Becomes c g n := by
  have hflag := reference_cycle_flag h
  unfold Reference.cycle at h
  split at h
  · cases h
  next f new hfetch =>
  split at h
  · cases h
  next memo mem hmem =>
  split at h
  · cases h
  next divo hdiv =>
  split at h
  · cases h
  next aluo halu =>
  cases h
  exact ⟨⟨new, hfetch, rfl⟩, fun k => by cases k <;> rfl, hmem, hdiv, halu, rfl, rfl, rfl, rfl,
    (writeback_regs g).symm, hflag⟩

/-- R291, R292: what a cycle that does not fault makes of the current generation. -/
theorem becomes_of_cycle {s t : State} (hkinds : s.cur.KindsOk) (h : cycle s = .next t) :
    Becomes s.setup s.cur t.cur :=
  becomes_of_reference (reference_cycle_of_next hkinds h)

/-- R247, R268: a queue within its capacity stays so. -/
theorem queue_length_le {c : Setup} {g n : Gen} (h : Becomes c g n) {k : QueueId} (hk : (g.queues.get k).length ≤ 2) :
    (n.queues.get k).length ≤ 2 := by
  have hcap := (issue_facts c g).cap k
  rw [h.queues k, List.length_append, List.length_tail]
  omega

/-! ### The parts that can fault, read backwards -/

section Parts

variable {c : Setup} {g : Gen}

/-- R263: what MEM has done when it did not fault. -/
theorem mem_cases {m : Option Latch × Memory} (h : Reference.mem c g = .ok m) :
    (g.latches.lsa = none ∧ m = (none, g.mem)) ∨
    (∃ l, g.latches.lsa = some l ∧ isLoad l.ins.instr = true ∧
      m = (some { ins := l.ins, value := g.mem.get l.value.toNat }, g.mem)) ∨
    (∃ l, g.latches.lsa = some l ∧ isStore l.ins.instr = true ∧ c.dataStart ≤ l.value.toNat ∧ l.value.toNat % 4 = 0 ∧
      l.value.toNat < c.maxAddr ∧ m = (none, g.mem.set l.value.toNat l.ins.v2)) := by
  unfold Reference.mem at h
  split at h
  next hl => cases h; exact .inl ⟨hl, rfl⟩
  next l hl =>
    split_ifs at h with hload _ hstore hcode haddr
    · cases h; exact .inr (.inl ⟨l, hl, hload, rfl⟩)
    · cases h
      obtain ⟨haligned, hbelow⟩ := not_or.mp haddr
      exact .inr (.inr ⟨l, hl, hstore, not_lt.mp hcode, not_not.mp haligned, not_le.mp hbelow, rfl⟩)

/-- R264: what DIV has done when it did not fault. -/
theorem div_cases {q : Option PairLatch} (h : Reference.div g = .ok q) :
    (g.queues.div = [] ∧ q = none) ∨ (∃ b bs, g.queues.div = b :: bs ∧ b.v2 ≠ 0#32 ∧
      q = some { ins := b, hi := remainder b.v1 b.v2, lo := quotient b.v1 b.v2 }) := by
  unfold Reference.div at h
  split at h
  next hq => cases h; exact .inl ⟨hq, rfl⟩
  next b bs hq =>
    split_ifs at h with hzero
    cases h
    exact .inr ⟨b, bs, hq, hzero, rfl⟩

/-- R261: what ALU1 has done when it did not fault. -/
theorem alu1_cases {l : Option Latch} (h : Reference.alu1 g = .ok l) :
    (g.queues.alu = [] ∧ l = none) ∨ (∃ b bs v, g.queues.alu = b :: bs ∧ aluResult b.instr b.v1 b.v2 = some v ∧
      l = some { ins := b, value := v }) := by
  unfold Reference.alu1 at h
  split at h
  next hq => cases h; exact .inl ⟨hq, rfl⟩
  next b bs hq =>
    split at h <;> cases h
    next v hv => exact .inr ⟨b, bs, v, hq, hv, rfl⟩

/-- R220 to R222: what the fetch stage has done when it did not fault. -/
theorem fetch_cases {r : FetchRegs} {new : List Rec} (h : Reference.fetch c g = .ok (r, new)) :
    (g.fetch.haltReq = true ∧ r = g.fetch ∧ new = []) ∨
    (g.fetch.haltReq = false ∧ new = [] ∧ ∃ b, g.fetch.stalled = some b ∧
      (r = { g.fetch with pc := Reference.outcome b g, stalled := none, resolved := some b } ∨ r = g.fetch)) ∨
    (g.fetch.haltReq = false ∧ g.fetch.stalled = none ∧ Reference.fetchLoop c g 4 g.fetch.pc [] = .ok (r, new)) := by
  unfold Reference.fetch at h
  split_ifs at h with hhalt
  · cases h; exact .inl ⟨hhalt, rfl, rfl⟩
  have hhalt := Bool.eq_false_iff.mpr hhalt
  split at h
  next b hb =>
    split_ifs at h <;> cases h
    · exact .inr (.inl ⟨hhalt, rfl, b, hb, .inl rfl⟩)
    · exact .inr (.inl ⟨hhalt, rfl, b, hb, .inr rfl⟩)
  next hnone => exact .inr (.inr ⟨hhalt, hnone, h⟩)

end Parts

end Sys2Proof.Proofs.Transition
end

section

/-! The scoreboard over a cycle (R208): every issued record moves on by one unit or is written back, and every record
that issues marks its register; so the flags stay exact. -/

namespace Sys2Proof.Proofs.Scoreboard

open Sys2Proof.Machine Sys2Proof.Proofs.Transition

/-! ### Where the writers of a register go in a cycle -/

/-- The records in the four final latches, which a cycle writes back (R280). -/
def writtenBack (g : Gen) : List Rec :=
  g.latches.aluo.toList.map Latch.ins ++ g.latches.memo.toList.map Latch.ins
    ++ g.latches.divo.toList.map PairLatch.ins ++ g.latches.mul3o.toList.map PairLatch.ins

theorem mem_cleared_iff (g : Gen) (r : PReg) : r ∈ Reference.cleared g ↔ 0 < writersIn (writtenBack g) r := by
  rw [writersIn, List.countP_pos_iff]
  simp only [decide_eq_true_eq]
  exact List.mem_flatMap

theorem writersIn_writtenBack_le (g : Gen) (r : PReg) : writersIn (writtenBack g) r ≤ writersIn g.issued r := by
  simp only [writtenBack, Gen.issued, writersIn_append]
  omega

theorem writersIn_head_tail (q : List Rec) (r : PReg) :
    writersIn q.head?.toList r + writersIn q.tail r = writersIn q r := by
  cases q with
  | nil => rfl
  | cons b bs => exact (writersIn_append [b] bs r).symm

theorem writesOf_of_store {i : Instr} (h : isStore i = true) : writesOf i = [] := by
  cases i with
  | sw => rfl
  | _ => cases h

section Moves

variable {c : Setup} {g n : Gen} (h : Becomes c g n) (r : PReg)
include h

/-- R262: the head of `LSQ` stands in `LSA`. -/
theorem writersIn_lsa : writersIn (n.latches.lsa.toList.map Latch.ins) r = writersIn g.queues.ls.head?.toList r := by
  rw [h.lsa]
  cases g.queues.ls <;> rfl

/-- R263: a load stands in `MEMO`, and a store, which is done, writes no register. -/
theorem writersIn_memo :
    writersIn (n.latches.memo.toList.map Latch.ins) r = writersIn (g.latches.lsa.toList.map Latch.ins) r := by
  obtain ⟨hl, hm⟩ | ⟨l, hl, -, hm⟩ | ⟨l, hl, hstore, -, -, -, hm⟩ := mem_cases h.mem <;>
    obtain ⟨hmemo, -⟩ := Prod.mk.inj hm <;> rw [hl, hmemo]
  · rfl
  · simp [writersIn, writesOf_of_store hstore]

/-- R264: the head of `DIVQ` stands in `DIVO`. -/
theorem writersIn_divo :
    writersIn (n.latches.divo.toList.map PairLatch.ins) r = writersIn g.queues.div.head?.toList r := by
  obtain ⟨hq, hd⟩ | ⟨b, bs, hq, -, hd⟩ := div_cases h.div <;> rw [hq, hd] <;> rfl

/-- R261: the head of `ALUQ` stands in `ALUO`. -/
theorem writersIn_aluo :
    writersIn (n.latches.aluo.toList.map Latch.ins) r = writersIn g.queues.alu.head?.toList r := by
  obtain ⟨hq, hl⟩ | ⟨b, bs, v, hq, -, hl⟩ := alu1_cases h.alu1 <;> rw [hq, hl] <;> rfl

/-- R265: the head of `MULQ` stands in `MUL1O`. -/
theorem writersIn_mul1o :
    writersIn (n.latches.mul1o.toList.map PairLatch.ins) r = writersIn g.queues.mul.head?.toList r := by
  rw [h.mul1o]
  cases g.queues.mul <;> rfl

/-- R208: of the writers in flight, those written back leave, and those that issue come. -/
theorem writersIn_issued :
    writersIn n.issued r + writersIn (writtenBack g) r =
      writersIn g.issued r + if r ∈ (Reference.issue c g).marks then 1 else 0 := by
  have hcount := (issue_facts c g).count r
  have hls := writersIn_head_tail g.queues.ls r
  have hdiv := writersIn_head_tail g.queues.div r
  have hmul := writersIn_head_tail g.queues.mul r
  have halu := writersIn_head_tail g.queues.alu r
  have hq := h.queues
  have hqls : n.queues.ls = g.queues.ls.tail ++ (Reference.issue c g).enq.ls := hq .ls
  have hqdiv : n.queues.div = g.queues.div.tail ++ (Reference.issue c g).enq.div := hq .div
  have hqmul : n.queues.mul = g.queues.mul.tail ++ (Reference.issue c g).enq.mul := hq .mul
  have hqalu : n.queues.alu = g.queues.alu.tail ++ (Reference.issue c g).enq.alu := hq .alu
  simp only [Gen.issued, writtenBack, writersIn_append, hqls, hqdiv, hqmul, hqalu, writersIn_lsa h, writersIn_memo h,
    writersIn_divo h, writersIn_aluo h, writersIn_mul1o h, h.mul2o, h.mul3o]
  omega

/-- R208, R288: the flag of a marked register was clear, so it has its one new writer; any other flag that is set loses
its writer exactly when it is cleared. -/
theorem scoreboardOk_becomes (hexact : g.scoreboardOk) : n.scoreboardOk := by
  intro r
  have hmoves := writersIn_issued h r
  have hissued := writersIn_writtenBack_le g r
  have hcleared := mem_cleared_iff g r
  have hg := hexact r
  rw [h.flag r, Reference.nextFlag]
  by_cases hmark : r ∈ (Reference.issue c g).marks
  case pos =>
    rw [(issue_facts c g).marksFree r hmark] at hg
    rw [if_pos hmark] at hmoves
    simp only [hmark, decide_true, Bool.or_true, if_true, Bool.false_eq_true, if_false] at hg ⊢
    omega
  case neg =>
    rw [if_neg hmark] at hmoves
    simp only [hmark, decide_false, Bool.or_false, Bool.and_eq_true, decide_eq_true_eq, hcleared]
    cases hflag : g.aw.flag r with
    | false =>
      simp only [hflag, Bool.false_eq_true, false_and, if_false] at hg ⊢
      omega
    | true =>
      simp only [hflag, true_and, if_true] at hg ⊢
      split_ifs <;> omega

end Moves

/-- Settles O53: by the count of the writers in flight over a cycle. -/
theorem scoreboardStaysExact : Obligations.ScoreboardStaysExact :=
  fun _ _ hkinds hexact hcycle => scoreboardOk_becomes (becomes_of_cycle hkinds hcycle) hexact

/-! ### The pair -/

/-- R204: HI and LO are written together. -/
theorem hi_mem_writesOf_iff (i : Instr) : PReg.hi ∈ writesOf i ↔ PReg.lo ∈ writesOf i := by
  rw [writesOf]
  cases destOf i <;> simp

/-- R28 (f): an exact scoreboard has HI and LO awaiting together. -/
theorem pairOk_of_scoreboardOk {g : Gen} (hexact : g.scoreboardOk) : g.pairOk := by
  have hsame : writersIn g.issued .hi = writersIn g.issued .lo := by
    simp only [writersIn, hi_mem_writesOf_iff]
  rw [hexact .hi, hexact .lo] at hsame
  change g.aw.flag .hi = g.aw.flag .lo
  revert hsame
  cases g.aw.flag .hi <;> cases g.aw.flag .lo <;> simp

end Sys2Proof.Proofs.Scoreboard
end

section

/-! The invariant of the reachable states (R28, R208, R15, R24), clause by clause over a cycle, and the code segment. -/

namespace Sys2Proof.Proofs.Invariant

open Sys2Proof.Machine Sys2Proof.Proofs.CycleFront Sys2Proof.Proofs.Transition Sys2Proof.Proofs.Scoreboard
  Sys2Proof.Proofs.Targets

/-! ### What the fetch stage leaves -/

/-- R228: a branch at an aligned address goes on at an aligned one. -/
theorem outcome_aligned {b : Rec} (g : Gen) (h : b.addr.toNat % 4 = 0) : (Reference.outcome b g).toNat % 4 = 0 := by
  have hnext := next_aligned h
  unfold Reference.outcome
  split
  case h_1 => exact jumpTarget_aligned _ _
  case h_2 rs rt off hi =>
    split_ifs
    · exact branchTarget_aligned off h
    · exact hnext
  case h_3 rs rt off hi =>
    split_ifs
    · exact hnext
    · exact branchTarget_aligned off h
  case h_4 rs off hi =>
    split_ifs
    · exact branchTarget_aligned off h
    · exact hnext
  case h_5 => exact hnext

/-- The fetch stage of generation `g` leaves registers `r` and new records `new`, all in order: an aligned `pc`, and
records that hold an address that an instruction can have and what their word decodes to. -/
structure FetchOk (g : Gen) (r : FetchRegs) (new : List Rec) : Prop where
  pc : r.pc.toNat % 4 = 0
  new : ∀ b ∈ new, b.ok
  stalled : ∀ b ∈ r.stalled, b.ok
  resolved : ∀ b ∈ r.resolved, g.fetch.resolved = some b ∨ b.ok

section Fetch

variable {c : Setup} {g : Gen} {r : FetchRegs} {new : List Rec}

/-- R75: the record that the loop makes at an aligned address in range. -/
theorem fetched_ok {p : Word} {i : Instr} (hp : p.toNat % 4 = 0) (hlow : 256 ≤ p.toNat)
    (hd : decode (g.mem.get p.toNat) = some i) :
    Rec.ok { addr := p, word := g.mem.get p.toNat, instr := i, v1 := 0#32, v2 := 0#32 } :=
  ⟨by simp [instrAddrOk, Config.minAddr, hp, hlow], hd⟩

/-- R223 to R226, by the words left: each turn of the loop stands at an aligned address. -/
theorem fetchLoop_ok (hstalled : g.fetch.stalled = none) (n : Nat) {p : Word} {old : List Rec} (hp : p.toNat % 4 = 0)
    (hold : ∀ b ∈ old, b.ok) (h : Reference.fetchLoop c g n p old = .ok (r, new)) : FetchOk g r new := by
  have hnone : ∀ b ∈ g.fetch.stalled, b.ok := by simp [hstalled]
  induction n generalizing p old with
  | zero => cases h; exact ⟨hp, hold, hnone, fun b hb => .inl hb⟩
  | succ n ih =>
    simp only [Reference.fetchLoop] at h
    split_ifs at h with hopen
    · obtain ⟨-, hlow, -⟩ := hopen
      split at h
      · cases h
      next i hd =>
      have hrec := fetched_ok hp hlow hd
      split_ifs at h with hbrk hbranch hres
      · cases h; exact ⟨hp, hold, hnone, fun b hb => .inl hb⟩
      · cases h; exact ⟨outcome_aligned g hp, hold, by simp, fun b hb => .inr (Option.mem_some_iff.mp hb ▸ hrec)⟩
      · cases h; exact ⟨hp, hold, fun b hb => Option.mem_some_iff.mp hb ▸ hrec, fun b hb => .inl hb⟩
      · refine ih (next_aligned hp) (fun b hb => ?_) h
        obtain hb | hb := List.mem_append.mp hb
        · exact hold b hb
        · exact List.mem_singleton.mp hb ▸ hrec
    · cases h; exact ⟨hp, hold, hnone, fun b hb => .inl hb⟩

theorem aligned_of_ok {b : Rec} (h : b.ok) : b.addr.toNat % 4 = 0 := by
  obtain ⟨haddr, -⟩ := h
  rw [instrAddrOk, Bool.and_eq_true, decide_eq_true_eq] at haddr
  exact haddr.1

theorem fetch_ok (hpc : g.pcOk) (hstalled : ∀ b ∈ g.fetch.stalled, b.ok)
    (h : Reference.fetch c g = .ok (r, new)) : FetchOk g r new := by
  obtain ⟨-, rfl, rfl⟩ | ⟨-, rfl, b, hb, rfl | rfl⟩ | ⟨-, hnone, hloop⟩ := fetch_cases h
  · exact ⟨hpc, by simp, hstalled, fun b hb => .inl hb⟩
  · have hok := hstalled b hb
    exact ⟨outcome_aligned g (aligned_of_ok hok), by simp, by simp,
      fun b' hb' => .inr (Option.mem_some_iff.mp hb' ▸ hok)⟩
  · exact ⟨hpc, by simp, hstalled, fun b hb => .inl hb⟩
  · exact fetchLoop_ok hnone 4 hpc (by simp) hloop

/-- R223, R226: no more records than free slots, none of them a branch or BREAK; R225: a branch alone stalls, and not
beside a requested halt. -/
theorem fetch_kinds (hstalled : ∀ b ∈ g.fetch.stalled, isBranch b.instr = true) (hhalt : g.haltOk)
    (h : Reference.fetch c g = .ok (r, new)) :
    new.length ≤ 8 - g.fw.length ∧ (∀ b ∈ new, endsFetch b.instr = false) ∧
      ∀ b ∈ r.stalled, isBranch b.instr = true ∧ r.haltReq = false := by
  have hsame : ∀ b ∈ g.fetch.stalled, isBranch b.instr = true ∧ g.fetch.haltReq = false :=
    fun b hb => ⟨hstalled b hb, hhalt (Option.isSome_of_mem hb)⟩
  obtain ⟨-, rfl, rfl⟩ | ⟨-, rfl, b, hb, rfl | rfl⟩ | ⟨hfree, hnone, -⟩ := fetch_cases h
  · exact ⟨Nat.zero_le _, by simp, hsame⟩
  · exact ⟨Nat.zero_le _, by simp, by simp⟩
  · exact ⟨Nat.zero_le _, by simp, hsame⟩
  · have facts := fetch_facts h hfree hnone
    refine ⟨facts.atMostFree, fun b hb => ?_, fun b hb => ?_⟩
    · obtain ⟨k, hk⟩ := List.mem_iff_getElem?.mp hb
      obtain ⟨-, -, hends⟩ := facts.recs k b hk
      exact hends
    · obtain ⟨hbranch, -, -, hreq⟩ := facts.stalled b hb
      exact ⟨hbranch, hreq⟩

end Fetch

/-! ### The issued records, place by place -/

/-- Every record in a queue or a latch meets `Q` of the queue that its unit takes records from; one in `MEMO` meets
`M`. -/
structure IssuedMeet (Q : QueueId → Rec → Prop) (M : Rec → Prop) (g : Gen) : Prop where
  queue : ∀ k, ∀ b ∈ g.queues.get k, Q k b
  lsa : ∀ l ∈ g.latches.lsa, Q .ls l.ins
  memo : ∀ l ∈ g.latches.memo, M l.ins
  divo : ∀ l ∈ g.latches.divo, Q .div l.ins
  mul1o : ∀ l ∈ g.latches.mul1o, Q .mul l.ins
  mul2o : ∀ l ∈ g.latches.mul2o, Q .mul l.ins
  mul3o : ∀ l ∈ g.latches.mul3o, Q .mul l.ins
  aluo : ∀ l ∈ g.latches.aluo, Q .alu l.ins

theorem forall_queues_iff {Q : QueueId → Rec → Prop} {q : Queues} :
    (∀ k, ∀ b ∈ q.get k, Q k b) ↔
      (∀ b ∈ q.ls, Q .ls b) ∧ (∀ b ∈ q.div, Q .div b) ∧ (∀ b ∈ q.mul, Q .mul b) ∧ ∀ b ∈ q.alu, Q .alu b :=
  ⟨fun h => ⟨h .ls, h .div, h .mul, h .alu⟩, fun ⟨h₁, h₂, h₃, h₄⟩ k => by cases k <;> assumption⟩

theorem issuedMeet_of_kindsOk {g : Gen} (h : g.KindsOk) :
    IssuedMeet (fun k b => queueOf b.instr = some k) (fun b => isLoad b.instr = true) g :=
  ⟨forall_queues_iff.mpr ⟨h.ls, h.div, h.mul, h.alu⟩, h.lsa, h.memo, h.divo, h.mul1o, h.mul2o, h.mul3o, h.aluo⟩

theorem kindsOk_of_issuedMeet {g : Gen}
    (h : IssuedMeet (fun k b => queueOf b.instr = some k) (fun b => isLoad b.instr = true) g)
    (hfw : ∀ b ∈ g.fw, endsFetch b.instr = false) (hstalled : ∀ b ∈ g.fetch.stalled, isBranch b.instr = true) :
    g.KindsOk :=
  ⟨hfw, hstalled, h.queue .ls, h.queue .div, h.queue .mul, h.queue .alu, h.lsa, h.memo, h.divo, h.mul1o, h.mul2o,
    h.mul3o, h.aluo⟩

theorem forall_issued_iff {P : Rec → Prop} {g : Gen} : (∀ b ∈ g.issued, P b) ↔ IssuedMeet (fun _ => P) P g := by
  simp only [Gen.issued, List.forall_mem_append, List.forall_mem_map, Option.mem_toList]
  constructor
  · rintro ⟨⟨⟨⟨⟨⟨⟨⟨⟨⟨hls, hdiv⟩, hmul⟩, halu⟩, hlsa⟩, hmemo⟩, hdivo⟩, hmul1o⟩, hmul2o⟩, hmul3o⟩, haluo⟩
    exact ⟨forall_queues_iff.mpr ⟨hls, hdiv, hmul, halu⟩, hlsa, hmemo, hdivo, hmul1o, hmul2o, hmul3o, haluo⟩
  · rintro ⟨hqueue, hlsa, hmemo, hdivo, hmul1o, hmul2o, hmul3o, haluo⟩
    obtain ⟨hls, hdiv, hmul, halu⟩ := forall_queues_iff.mp hqueue
    exact ⟨⟨⟨⟨⟨⟨⟨⟨⟨⟨hls, hdiv⟩, hmul⟩, halu⟩, hlsa⟩, hmemo⟩, hdivo⟩, hmul1o⟩, hmul2o⟩, hmul3o⟩, haluo⟩

/-! ### The clauses over a cycle -/

section Clauses

variable {c : Setup} {g n : Gen} (h : Becomes c g n)
include h

/-- R28 (a): the window by the free slots, the queues by the issue condition on them (R247). -/
theorem capacityOk_becomes (hkinds : g.KindsOk) (hhalt : g.haltOk) (hcap : g.capacityOk) : n.capacityOk := by
  obtain ⟨hfw, hls, hdiv, hmul, halu⟩ := hcap
  obtain ⟨new, hfetch, hwindow⟩ := h.fetch
  obtain ⟨hnew, -, -⟩ := fetch_kinds hkinds.stalled hhalt hfetch
  have hkept := (issue_facts c g).kept.length_le
  refine ⟨?_, queue_length_le h (k := .ls) hls, queue_length_le h (k := .div) hdiv, queue_length_le h (k := .mul) hmul,
    queue_length_le h (k := .alu) halu⟩
  rw [hwindow, List.length_append]
  omega

/-- R268, R260: where every issued record meets the condition of its place, the next generation's do, if the records that
issue and the loads that MEM passes on do. -/
theorem issuedMeet_becomes {Q : QueueId → Rec → Prop} {M : Rec → Prop}
    (hissue : ∀ k, ∀ b ∈ (Reference.issue c g).enq.get k, Q k b)
    (hload : ∀ b, Q .ls b → isLoad b.instr = true → M b) (hg : IssuedMeet Q M g) : IssuedMeet Q M n := by
  constructor
  case queue =>
    intro k b hb
    rw [h.queues k, List.mem_append] at hb
    exact hb.elim (fun hb => hg.queue k b (List.mem_of_mem_tail hb)) (hissue k b)
  case lsa =>
    rw [h.lsa]
    intro l hl
    obtain ⟨b, hb, rfl⟩ := Option.map_eq_some_iff.mp hl
    exact hg.queue .ls b (List.mem_of_head? hb)
  case memo =>
    intro l hl
    obtain ⟨-, hm⟩ | ⟨l', hl', hisLoad, hm⟩ | ⟨l', -, -, -, -, -, hm⟩ := mem_cases h.mem <;>
      obtain ⟨hmemo, -⟩ := Prod.mk.inj hm <;> rw [hmemo] at hl <;> cases hl
    exact hload _ (hg.lsa l' hl') hisLoad
  case divo =>
    intro l hl
    obtain ⟨-, hd⟩ | ⟨b, bs, hq, -, hd⟩ := div_cases h.div <;> rw [hd] at hl <;> cases hl
    exact hg.queue .div b (by simp [Queues.get, hq])
  case mul1o =>
    rw [h.mul1o]
    intro l hl
    obtain ⟨b, hb, rfl⟩ := Option.map_eq_some_iff.mp hl
    exact hg.queue .mul b (List.mem_of_head? hb)
  case mul2o => rw [h.mul2o]; exact hg.mul1o
  case mul3o => rw [h.mul3o]; exact hg.mul2o
  case aluo =>
    intro l hl
    obtain ⟨-, ha⟩ | ⟨b, bs, v, hq, -, ha⟩ := alu1_cases h.alu1 <;> rw [ha] at hl <;> cases hl
    exact hg.queue .alu b (by simp [Queues.get, hq])

/-- R28 (c), (d): every record moves on to where its kind can stand. -/
theorem kindsOk_becomes (hkinds : g.KindsOk) (hhalt : g.haltOk) : n.KindsOk := by
  obtain ⟨new, hfetch, hwindow⟩ := h.fetch
  obtain ⟨-, hnew, hstalled⟩ := fetch_kinds hkinds.stalled hhalt hfetch
  have hissued := issuedMeet_becomes h (fun k b hb => ?_) (fun b _ hload => hload) (issuedMeet_of_kindsOk hkinds)
  · refine kindsOk_of_issuedMeet hissued (fun b hb => ?_) fun b hb => (hstalled b hb).1
    rw [hwindow, List.mem_append] at hb
    exact hb.elim (fun hb => hkinds.fw b ((issue_facts c g).kept.subset hb)) (hnew b)
  · obtain ⟨b', -, hq, rfl⟩ := (issue_facts c g).enq k b hb
    exact hq

/-- R15: fetch makes records that are in order, and issue changes nothing of them but the operands. -/
theorem records_becomes (hpc : g.pcOk) (hrecords : ∀ b ∈ g.records, b.ok) : ∀ b ∈ n.records, b.ok := by
  obtain ⟨new, hfetch, hwindow⟩ := h.fetch
  simp only [Gen.records, List.mem_append, Option.mem_toList] at hrecords ⊢
  have hok := fetch_ok hpc (fun b hb => hrecords b (.inl (.inr hb))) hfetch
  rintro b (((hb | hb) | hb) | hb)
  · rw [hwindow, List.mem_append] at hb
    obtain hb | hb := hb
    · exact hrecords b (.inl (.inl (.inl ((issue_facts c g).kept.subset hb))))
    · exact hok.new b hb
  · have hissued := forall_issued_iff.mp fun b hb => hrecords b (.inl (.inl (.inr hb)))
    refine forall_issued_iff.mpr (issuedMeet_becomes h (fun k b hb => ?_) (fun b hb _ => hb) hissued) b hb
    obtain ⟨b', hb', -, rfl⟩ := (issue_facts c g).enq k b hb
    exact hrecords b' (.inl (.inl (.inl hb')))
  · exact hok.stalled b hb
  · exact (hok.resolved b hb).elim (fun hb => hrecords b (.inr hb)) id

/-- R24, R43: a store writes a word of the array. -/
theorem memOk_becomes (hsetup : c.ok) (hmem : memOk c g.mem) : memOk c n.mem := by
  obtain ⟨-, hm⟩ | ⟨l, -, -, hm⟩ | ⟨l, -, -, hdata, haligned, hbelow, hm⟩ := mem_cases h.mem <;>
    obtain ⟨-, hm⟩ := Prod.mk.inj hm <;> rw [hm]
  · exact hmem
  · exact hmem
  · obtain ⟨hwf, hin⟩ := hmem
    obtain ⟨-, hlow, -⟩ := hsetup
    refine ⟨Memory.set_wf _ _ _ hwf, fun w hw => ?_⟩
    obtain hw | ⟨rfl, -⟩ := Memory.mem_set hw
    · exact hin w hw
    · exact ⟨hlow.trans hdata, hbelow, haligned⟩

end Clauses

/-! ### A step -/

theorem inv_of_cycle {s t : State} (hinv : s.Inv) (h : cycle s = .next t) : t.Inv := by
  have hb := becomes_of_cycle hinv.kinds h
  obtain ⟨new, hfetch, -⟩ := hb.fetch
  have hexact := scoreboardOk_becomes hb hinv.scoreboard
  constructor
  case capacity => exact capacityOk_becomes hb hinv.kinds hinv.halt hinv.capacity
  case kinds => exact kindsOk_becomes hb hinv.kinds hinv.halt
  case pc =>
    have hstalled (b : Rec) (hb : b ∈ s.cur.fetch.stalled) : b.ok :=
      hinv.records b (List.mem_append_left _ (List.mem_append_right _ (Option.mem_toList.mpr hb)))
    exact (fetch_ok hinv.pc hstalled hfetch).pc
  case records => exact records_becomes hb hinv.pc hinv.records
  case scoreboard => exact hexact
  case pair => exact pairOk_of_scoreboardOk hexact
  case halt =>
    intro hsome
    obtain ⟨b, hb⟩ := Option.isSome_iff_exists.mp hsome
    obtain ⟨-, -, hstalled⟩ := fetch_kinds hinv.kinds.stalled hinv.halt hfetch
    exact (hstalled b hb).2
  case mem => rw [cycle_setup h]; exact memOk_becomes hb hinv.setup hinv.mem
  case setup => rw [cycle_setup h]; exact hinv.setup

/-- The invariant speaks of the current generation and the parameters alone. -/
theorem inv_of_eq {s t : State} (hinv : s.Inv) (hcur : t.cur = s.cur) (hsetup : t.setup = s.setup) : t.Inv := by
  obtain ⟨h₁, h₂, h₃, h₄, h₅, h₆, h₇, h₈, h₉⟩ := hinv
  constructor <;> simpa only [hcur, hsetup]

theorem inv_of_step {s t : State} (hinv : s.Inv) (h : step s = .next t) : t.Inv := by
  obtain ⟨-, hcycle⟩ | ⟨-, f, rfl⟩ | ⟨-, rfl⟩ := step_cases h
  · exact inv_of_cycle hinv hcycle
  · exact inv_of_eq hinv rfl rfl
  · exact hinv

/-- Settles O52: a step is a cycle, which keeps each clause, or changes the status alone. -/
theorem everyStepKeepsInvariant : Obligations.EveryStepKeepsInvariant := fun _ _ => inv_of_step

theorem inv_of_reaches {s t : State} (hinv : s.Inv) (h : Reaches s t) : t.Inv := by
  induction h with
  | refl => exact hinv
  | step _ hstep ih => exact inv_of_step ih hstep

/-! ### The code segment -/

/-- R43: a store below `DATA_START` faults, so a cycle that does not fault has made none. -/
theorem get_code_of_cycle {s t : State} (hinv : s.Inv) (h : cycle s = .next t) {a : Nat} (ha : a < s.setup.dataStart) :
    t.cur.mem.get a = s.cur.mem.get a := by
  obtain ⟨-, hm⟩ | ⟨l, -, -, hm⟩ | ⟨l, -, -, hdata, -, -, hm⟩ := mem_cases (becomes_of_cycle hinv.kinds h).mem <;>
    obtain ⟨-, hm⟩ := Prod.mk.inj hm <;> rw [hm]
  rw [Memory.get_set _ ((Memory.wf_iff _).mp hinv.mem.1).1, if_neg (by omega)]

/-- What a run cannot change: the parameters and the words below `DATA_START`. -/
structure SameCode (s t : State) : Prop where
  setup : t.setup = s.setup
  code : ∀ a, a < s.setup.dataStart → t.cur.mem.get a = s.cur.mem.get a

theorem sameCode_of_step {s t : State} (hinv : s.Inv) (h : step s = .next t) : SameCode s t := by
  obtain ⟨-, hcycle⟩ | ⟨-, f, rfl⟩ | ⟨-, rfl⟩ := step_cases h
  · exact ⟨cycle_setup hcycle, fun a ha => get_code_of_cycle hinv hcycle ha⟩
  · exact ⟨rfl, fun _ _ => rfl⟩
  · exact ⟨rfl, fun _ _ => rfl⟩

theorem sameCode_of_reaches {s t : State} (hinv : s.Inv) (h : Reaches s t) : SameCode s t := by
  induction h with
  | refl => exact ⟨rfl, fun _ _ => rfl⟩
  | step hreach hstep ih =>
    have hone := sameCode_of_step (inv_of_reaches hinv hreach) hstep
    exact ⟨hone.setup.trans ih.setup, fun a ha => (hone.code a (ih.setup ▸ ha)).trans (ih.code a ha)⟩

/-- Settles O54: by the invariant, every step keeps the words below `DATA_START`. -/
theorem codeSegmentNeverWritten : Obligations.CodeSegmentNeverWritten := by
  intro s t hinv hreach
  obtain ⟨hsetup, hcode⟩ := sameCode_of_reaches hinv hreach
  exact ⟨hsetup, hcode⟩

end Sys2Proof.Proofs.Invariant
end

section

/-! What a cycle leaves of each part of the machine: the window and the fetch registers (R220 to R231, R251), the queues
(R268), the registers (R280 to R285) and the memory (R263). -/

namespace Sys2Proof.Proofs.AfterCycle

open Sys2Proof.Machine Sys2Proof.Proofs.CycleFront Sys2Proof.Proofs.Transition

/-! ### Fetch -/

/-- R221, R222: with a halt requested or a branch stalled nothing is fetched; otherwise the loop has run. -/
theorem fetch_new {c : Setup} {g : Gen} {r : FetchRegs} {new : List Rec} (h : Reference.fetch c g = .ok (r, new)) :
    new = [] ∨ FetchFacts c g r new := by
  obtain ⟨-, -, hnew⟩ | ⟨-, hnew, -⟩ | ⟨hhalt, hstalled, -⟩ := fetch_cases h
  · exact .inl hnew
  · exact .inl hnew
  · exact .inr (fetch_facts h hhalt hstalled)

/-- Settles O18: the scan keeps a sublist of the window, and the loop's records are those of `FetchFacts`. -/
theorem windowAfterCycle : Obligations.WindowAfterCycle := by
  intro s t hkinds hcycle
  obtain ⟨new, hfetch, hfw⟩ := (becomes_of_cycle hkinds hcycle).fetch
  refine ⟨_, new, hfw, (issue_facts s.setup s.cur).kept, ?_⟩
  obtain rfl | facts := fetch_new hfetch
  · simp
  · refine ⟨facts.atMostFour, facts.atMostFree, fun k b hk => ?_⟩
    obtain ⟨haddr, ⟨hrange, hword, hdecode⟩, hends⟩ := facts.recs k b hk
    exact ⟨haddr, hrange, hword, hdecode, hends⟩

/-- Settles O22: neither the retry nor an idle fetch stage touches `halt_req`, and in the loop BREAK alone sets it. -/
theorem onlyBreakRequestsHalt : Obligations.OnlyBreakRequestsHalt := by
  intro s t hkinds hcycle hbefore hafter
  obtain ⟨new, hfetch, -⟩ := (becomes_of_cycle hkinds hcycle).fetch
  obtain ⟨hhalt, -, -⟩ | ⟨-, -, b, -, hr | hr⟩ | ⟨-, hnone, -⟩ := fetch_cases hfetch
  · exact absurd (hbefore.symm.trans hhalt) (by decide)
  · exact absurd (hbefore.symm.trans (hr ▸ hafter)) (by decide)
  · exact absurd (hbefore.symm.trans (hr ▸ hafter)) (by decide)
  · obtain ⟨hstalled, -, hrange, hdecode⟩ := (fetch_facts hfetch hbefore hnone).halt hafter
    exact ⟨hnone, hstalled, hrange, hdecode⟩

/-- R221: with the halt requested the fetch stage does nothing. -/
theorem fetchStage_of_haltReq {s : State} (h : s.cur.fetch.haltReq = true) :
    fetchStage s.openCycle = .next s.openCycle :=
  if_pos h

/-- R221, R251: so a cycle keeps the fetch registers, and the window only loses records. -/
theorem cycle_of_haltReq {s t : State} (hhalt : s.cur.fetch.haltReq = true) (h : cycle s = .next t) :
    t.cur.fetch = s.cur.fetch ∧ t.cur.fw.Sublist s.cur.fw := by
  obtain ⟨hregs, kept, hsub, hfw⟩ := cycle_after_fetchStage (fetchStage_of_haltReq hhalt) scanUnbegun_fresh h
  rw [State.openCycle_work, Work.fresh, List.append_nil] at hfw
  exact ⟨hregs, hfw ▸ hsub⟩

theorem step_fetch_of_haltReq {s t : State} (hhalt : s.cur.fetch.haltReq = true) (h : step s = .next t) :
    t.cur.fetch = s.cur.fetch := by
  obtain ⟨-, hcycle⟩ | ⟨-, f, rfl⟩ | ⟨-, rfl⟩ := step_cases h
  · exact (cycle_of_haltReq hhalt hcycle).1
  · rfl
  · rfl

/-- Settles O20: one cycle, and an induction over the steps. -/
theorem nothingFetchedAfterBreak : Obligations.NothingFetchedAfterBreak := by
  refine fun s hhalt => ⟨fun t h => (cycle_of_haltReq hhalt h).2, fun t hreach => ?_⟩
  induction hreach with
  | refl => rfl
  | step _ hstep ih => exact (step_fetch_of_haltReq (ih ▸ hhalt) hstep).trans ih

/-! ### The queues -/

/-- Settles O26: the scan's records go behind the old tail, at most as many as R247 lets it issue. -/
theorem queuesAfterCycle : Obligations.QueuesAfterCycle := by
  intro s t hkinds hcycle
  have h := becomes_of_cycle hkinds hcycle
  have facts := issue_facts s.setup s.cur
  exact ⟨_, fun k => ⟨h.queues k, facts.enq k, queue_length_le h⟩⟩

/-! ### The registers -/

@[simp] theorem putPair_x (r : RegFile) (l : Option PairLatch) : (putPair r l).x = r.x := by
  cases l <;> rfl

section Registers

variable {c : Setup} {g n : Gen} (h : Becomes c g n)
include h

/-- R281, R282, R285: `MEMO` is written back behind `ALUO`. -/
theorem x_becomes : n.regs.x = putLatch (putLatch g.regs.x g.latches.aluo) g.latches.memo := by
  rw [h.regs, putPair_x, putPair_x]

theorem x_of_memo {l : Latch} {j : Reg} (hl : g.latches.memo = some l) (hdest : destOf l.ins.instr = .gpr j) :
    n.regs.x[j] = l.value := by
  rw [x_becomes h, putLatch_get, hl]
  exact if_pos hdest

/-- A general register that the record in `MEMO` does not name is as `ALUO` leaves it. -/
theorem x_of_not_memo {j : Reg} (hmemo : ∀ l, g.latches.memo = some l → destOf l.ins.instr ≠ .gpr j) :
    n.regs.x[j] = (putLatch g.regs.x g.latches.aluo)[j] := by
  rw [x_becomes h, putLatch_get]
  cases hl : g.latches.memo with
  | none => rfl
  | some l => exact if_neg (hmemo l hl)

theorem x_of_aluo {l : Latch} {j : Reg} (hmemo : ∀ l, g.latches.memo = some l → destOf l.ins.instr ≠ .gpr j)
    (hl : g.latches.aluo = some l) (hdest : destOf l.ins.instr = .gpr j) : n.regs.x[j] = l.value := by
  rw [x_of_not_memo h hmemo, putLatch_get, hl]
  exact if_pos hdest

theorem x_unwritten {j : Reg} (hmemo : ∀ l, g.latches.memo = some l → destOf l.ins.instr ≠ .gpr j)
    (haluo : ∀ l, g.latches.aluo = some l → destOf l.ins.instr ≠ .gpr j) : n.regs.x[j] = g.regs.x[j] := by
  rw [x_of_not_memo h hmemo, putLatch_get]
  cases hl : g.latches.aluo with
  | none => rfl
  | some l => exact if_neg (haluo l hl)

theorem pair_of_mul3o {l : PairLatch} (hl : g.latches.mul3o = some l) : n.regs.hi = l.hi ∧ n.regs.lo = l.lo := by
  rw [h.regs, hl]
  exact ⟨rfl, rfl⟩

theorem pair_of_divo {l : PairLatch} (hnone : g.latches.mul3o = none) (hl : g.latches.divo = some l) :
    n.regs.hi = l.hi ∧ n.regs.lo = l.lo := by
  rw [h.regs, hnone, hl]
  exact ⟨rfl, rfl⟩

theorem pair_unwritten (hmul3o : g.latches.mul3o = none) (hdivo : g.latches.divo = none) :
    n.regs.hi = g.regs.hi ∧ n.regs.lo = g.regs.lo := by
  rw [h.regs, hmul3o, hdivo]
  exact ⟨rfl, rfl⟩

end Registers

/-- Settles O40: the four writebacks in the order of R285, each by what it leaves. -/
theorem registersAfterCycle : Obligations.RegistersAfterCycle := by
  intro s t hkinds hcycle
  have h := becomes_of_cycle hkinds hcycle
  exact ⟨fun j => ⟨fun l => x_of_memo h, fun hmemo => ⟨fun l => x_of_aluo h hmemo, x_unwritten h hmemo⟩⟩,
    fun l => pair_of_mul3o h, fun hnone => ⟨fun l => pair_of_divo h hnone, pair_unwritten h hnone⟩⟩

/-! ### The memory -/

theorem not_store_of_load {i : Instr} (h : isLoad i = true) : isStore i = false := by
  cases i with
  | lw => rfl
  | _ => cases h

/-- R263: an SW in `LSA` has its word written. -/
theorem mem_get_of_store {c : Setup} {g n : Gen} (h : Becomes c g n) (hwf : g.mem.wf = true) {l : Latch}
    (hl : g.latches.lsa = some l) (hstore : isStore l.ins.instr = true) (a : Nat) :
    n.mem.get a = if a = l.value.toNat then l.ins.v2 else g.mem.get a := by
  obtain ⟨hnone, -⟩ | ⟨l', hl', hload, -⟩ | ⟨l', hl', -, -, -, -, hm⟩ := mem_cases h.mem
  · cases hl.symm.trans hnone
  · cases hl.symm.trans hl'
    exact absurd (hstore.symm.trans (not_store_of_load hload)) (by decide)
  · cases hl.symm.trans hl'
    rw [(Prod.mk.inj hm).2, Memory.get_set _ ((Memory.wf_iff _).mp hwf).1]
    simp only [eq_comm]

/-- R263: without one the memory is the same. -/
theorem mem_of_no_store {c : Setup} {g n : Gen} (h : Becomes c g n)
    (hno : ∀ l, g.latches.lsa = some l → isStore l.ins.instr = false) : n.mem = g.mem := by
  obtain ⟨-, hm⟩ | ⟨l, -, -, hm⟩ | ⟨l, hl, hstore, -⟩ := mem_cases h.mem
  · exact (Prod.mk.inj hm).2
  · exact (Prod.mk.inj hm).2
  · exact absurd (hstore.symm.trans (hno l hl)) (by decide)

/-- Settles O41: by what MEM does with a store, and with anything else. -/
theorem memoryAfterCycle : Obligations.MemoryAfterCycle := by
  intro s t hkinds hwf hcycle
  have h := becomes_of_cycle hkinds hcycle
  exact ⟨fun l a hl hstore => mem_get_of_store h hwf hl hstore a, mem_of_no_store h⟩

end Sys2Proof.Proofs.AfterCycle
end

section

/-! The cycle and the run (R291 to R297, R306, R307): the swap, the status, faults and their order, and the two ends of
a run. -/

namespace Sys2Proof.Proofs.Run

open Sys2Proof.Machine Sys2Proof.Proofs.CycleFront Sys2Proof.Proofs.CycleReference Sys2Proof.Proofs.Fetch

/-! ### The swap -/

/-- R292, R293: a generation adopted at the end of a cycle of `s`. -/
theorem adopt_eq {s v : State} (h : runStages stages s.openCycle = .next v) (g : Gen) :
    v.adopt g = { s with
      cur := g
      next := g
      work := Work.fresh
      cycles := s.cycles + 1
      status := if g.finished then .halted else s.status } := by
  obtain ⟨-, hstatus, hcycles, hsetup⟩ := runAllStages_keeps h
  rw [State.adopt, hstatus, hcycles, hsetup]
  rfl

/-- Settles O42: the stages agree with the transition function, and the swap adopts what they built. -/
theorem cycleIsTransitionFunction : Obligations.CycleIsTransitionFunction := by
  intro s hkinds
  have hagrees := runStages_agrees hkinds
  cases href : Reference.cycle s.setup s.cur with
  | error f =>
    rw [href, agrees_error] at hagrees
    rw [cycle, hagrees, andThen_fault]
  | ok g =>
    rw [href, agrees_ok] at hagrees
    obtain ⟨v, hv, rfl⟩ := hagrees
    rw [cycle, hv, andThen_next, adopt_eq hv]
    rfl

/-- R297: a step of a running machine is its cycle. -/
theorem step_of_cycle {s t : State} (hrun : s.status = .running) (h : cycle s = .next t) : step s = .next t := by
  rw [step, hrun, h]

/-- Settles O43: the swap adopts what the stages built; they keep the count and the parameters. -/
theorem swapIsWhole : Obligations.SwapIsWhole := by
  intro s t hcycle
  refine ⟨?_, ?_, ?_, ?_, cycle_setup hcycle, fun hrun => step_of_cycle hrun hcycle⟩ <;>
    obtain ⟨u, hu, rfl⟩ := cycle_eq_next hcycle
  · exact ⟨u, hu, rfl⟩
  · rfl
  · rfl
  · rw [adopt_eq hu]

/-! ### Faults -/

/-- Settles O44: by the status that `step` looks at. -/
theorem faultAbandonsCycle : Obligations.FaultAbandonsCycle := by
  intro s f
  refine ⟨fun hrun hcycle => ?_, fun hfaulted => ?_, fun hhalted => ?_⟩
  · rw [step, hrun, hcycle]
    rfl
  · rw [step, hfaulted]
  · rw [step, hhalted]

/-- R240: the issue scan never ends the cycle. -/
theorem issueScan_next (fw : List Rec) (s : State) : ∃ t, issueScan fw s = .next t := by
  induction fw generalizing s with
  | nil => exact ⟨s, rfl⟩
  | cons b fw ih =>
    rw [issueScan, runAt, exec_issue b.instr (s.present (.issue b)) b rfl, andThen_next]
    exact ih _

/-- R263: whether MEM faults, and how, is told by the current generation, whatever stands in the next one. -/
theorem memStage_agrees_any (s : State) : Agrees (memStage s) (Reference.mem s.setup s.cur) (fun _ _ => True) := by
  rw [memStage, Reference.mem]
  cases s.cur.latches.lsa with
  | none => exact ⟨s, rfl, trivial⟩
  | some l =>
    simp only [runAt, exec_mem l.ins.instr (s.present (.mem l.ins l.value)) l.ins l.value rfl, State.loadFrom,
      State.storeTo, State.present_setup]
    by_cases hload : isLoad l.ins.instr = true
    · rw [if_pos hload, if_pos hload]
      by_cases hbad : l.value.toNat % 4 ≠ 0 ∨ l.value.toNat < 256 ∨ 256 + 4 * s.setup.words ≤ l.value.toNat
      · rw [if_pos hbad, memRead_bad hbad]; rfl
      · rw [if_neg hbad, memRead_good hbad]; exact ⟨_, rfl, trivial⟩
    rw [if_neg hload, if_neg hload]
    by_cases hstore : isStore l.ins.instr = true
    · rw [if_pos hstore, if_pos hstore]
      by_cases hcode : l.value.toNat < s.setup.dataStart
      · rw [if_pos hcode, memWrite_code hcode]; rfl
      rw [if_neg hcode]
      by_cases hbad : l.value.toNat % 4 ≠ 0 ∨ 256 + 4 * s.setup.words ≤ l.value.toNat
      · rw [if_pos hbad, memWrite_bad hcode hbad]; rfl
      · rw [if_neg hbad, memWrite_good hcode hbad]; exact ⟨_, rfl, trivial⟩
    · rw [if_neg hstore, if_neg hstore]; rfl

/-- R264: so it is with the DIV unit. -/
theorem divStage_agrees_any (s : State) : Agrees (divStage s) (Reference.div s.cur) (fun _ _ => True) := by
  rw [divStage, Reference.div]
  cases s.cur.queues.div with
  | nil => exact ⟨s, rfl, trivial⟩
  | cons b bs =>
    simp only [runAt, exec_div b.instr (s.present (.div b)) b rfl, State.divide]
    split
    · rfl
    · exact ⟨_, rfl, trivial⟩

/-- R307: two states that agree with one computation fault alike. -/
theorem fault_of_agrees {α : Type} {o o' : Out} {r : Except Fault α} {P P' : α → State → Prop} {f : Fault}
    (h : Agrees o r P) (h' : Agrees o' r P') (ho : o = .fault f) : o' = .fault f := by
  have hr := Exceptions.error_of_agrees h ho
  rwa [hr] at h'

/-- R307: and they go on alike. -/
theorem next_of_agrees {α : Type} {o o' : Out} {r : Except Fault α} {P P' : α → State → Prop} {t : State}
    (h : Agrees o r P) (h' : Agrees o' r P') (ho : o = .next t) : ∃ u, o' = .next u := by
  obtain ⟨a, hr, -⟩ := ok_of_agrees h ho
  rw [hr] at h'
  obtain ⟨u, hu, -⟩ := h'
  exact ⟨u, hu⟩

/-- R291: where fetch does not fault the cycle comes to MEM, with the current generation it began with. -/
theorem runStages_of_fetch {s u : State} (hfetch : fetchStage s.openCycle = .next u) :
    ∃ v, v.cur = s.cur ∧ v.setup = s.setup ∧ runStages stages s.openCycle = runStages (stages.drop 2) v := by
  obtain ⟨v, hissue⟩ := issueScan_next u.cur.fw u
  have hu : Keeps s.openCycle u := stage_keeps _ (by simp [stages]) _ _ hfetch
  have hv : Keeps u v := issueScan_keeps _ _ _ hissue
  refine ⟨v, hv.cur.trans hu.cur, hv.setup.trans hu.setup, ?_⟩
  rw [runStages_stages, hfetch, andThen_next, issueStage, hissue, andThen_next]

theorem cycle_of_runStages_fault {s : State} {f : Fault} (h : runStages stages s.openCycle = .fault f) :
    cycle s = .fault f := by
  rw [cycle, h, andThen_fault]

/-- R291: MEM first, then the DIV unit, then the rest. -/
theorem runStages_drop_two (v : State) :
    runStages (stages.drop 2) v = andThen (memStage v) fun w => andThen (divStage w) (runStages (stages.drop 4)) := rfl

/-- Settles O45: the first stage that faults ends the cycle, and what a stage does to the next generation does not tell
whether a later one faults. -/
theorem faultPriority : Obligations.FaultPriority := by
  refine fun s f => ⟨fun hfetch => ?_, fun ⟨u, hfetch⟩ hmem => ?_, fun ⟨u, hfetch⟩ ⟨m, hmem⟩ hdiv => ?_⟩ <;>
    apply cycle_of_runStages_fault
  · rw [runStages_stages, hfetch, andThen_fault]
  all_goals
    obtain ⟨v, hcur, hsetup, hrun⟩ := runStages_of_fetch hfetch
    have hmemV := memStage_agrees_any v
    rw [hcur, hsetup] at hmemV
    rw [hrun, runStages_drop_two]
  · rw [fault_of_agrees (memStage_agrees_any s.openCycle) hmemV hmem, andThen_fault]
  · obtain ⟨w, hw⟩ := next_of_agrees (memStage_agrees_any s.openCycle) hmemV hmem
    have hdivW := divStage_agrees_any w
    rw [(stage_keeps memStage (by simp [stages]) v w hw).cur, hcur] at hdivW
    rw [hw, andThen_next, fault_of_agrees (divStage_agrees_any s.openCycle) hdivW hdiv, andThen_fault]

/-! ### The ends of a run -/

/-- R293: nothing is in flight when the window, the queues, the latches and the stalled slot are empty. -/
theorem inFlight_eq_false_iff (g : Gen) :
    g.inFlight = false ↔
      g.fw = [] ∧ g.queues = Queues.empty ∧ g.latches = Latches.empty ∧ g.fetch.stalled = none := by
  obtain ⟨fetch, fw, ⟨ls, div, mul, alu⟩, ⟨aluo, lsa, memo, divo, mul1o, mul2o, mul3o⟩, regs, aw, mem⟩ := g
  simp only [Gen.inFlight, Queues.empty, Latches.empty, Bool.or_eq_false_iff, Bool.not_eq_false', List.isEmpty_iff,
    Option.isSome_eq_false_iff, Option.isNone_iff_eq_none, Queues.mk.injEq, Latches.mk.injEq]
  tauto

theorem finished_iff (g : Gen) :
    g.finished = true ↔ g.fetch.haltReq = true ∧ g.fw = [] ∧ g.queues = Queues.empty ∧ g.latches = Latches.empty ∧
      g.fetch.stalled = none := by
  rw [Gen.finished, Bool.and_eq_true, Bool.not_eq_true', inFlight_eq_false_iff]

/-- Settles O46: a running machine halts exactly where its generation is finished. -/
theorem haltsWhenDrained : Obligations.HaltsWhenDrained := by
  intro s t hrun hcycle
  have hstatus := cycle_status hcycle
  rw [hrun] at hstatus
  rw [← finished_iff, hstatus]
  cases t.cur.finished <;> simp

/-- R220, R240, R260, R280: with nothing in flight and the fetch stage idle, no stage does anything. -/
theorem runStages_of_drained {s : State} (hidle : FetchIdle s) (hdrained : s.cur.inFlight = false) :
    runStages stages s.openCycle = .next s.openCycle := by
  obtain ⟨hfw, hqueues, hlatches, -⟩ := (inFlight_eq_false_iff _).mp hdrained
  have hissue : issueStage s.openCycle = .next s.openCycle := by rw [issueStage, State.openCycle_cur, hfw, issueScan]
  simp [stages, runStages, fetchStage_of_idle hidle, hissue, memStage, divStage, mul1Stage, alu1Stage, alu2Stage,
    mul2Stage, mul3Stage, wbAluStage, wbMemStage, wbDivStage, wbMulStage, hqueues, hlatches, Queues.empty, Latches.empty]

/-- R291: and the next generation is the current one. -/
theorem nextGen_of_drained {s : State} (hdrained : s.cur.inFlight = false) : s.openCycle.nextGen = s.cur := by
  obtain ⟨hfw, hqueues, hlatches, -⟩ := (inFlight_eq_false_iff _).mp hdrained
  have haw : s.cur.aw.union Scoreboard.clear = s.cur.aw := Scoreboard.ext_flag fun r => by simp
  calc s.openCycle.nextGen
      = { s.cur with
          fw := []
          queues := s.cur.queues.advance Queues.empty
          latches := Latches.empty
          aw := s.cur.aw.union Scoreboard.clear } := rfl
    _ = { s.cur with fw := s.cur.fw, queues := s.cur.queues, latches := s.cur.latches, aw := s.cur.aw } := by
        rw [haw, hfw, hqueues, hlatches]
        rfl

/-- Settles O47: the cycle does nothing but count. -/
theorem outOfRangeFixedPoint : Obligations.OutOfRangeFixedPoint := by
  intro s ⟨hnext, hwork⟩ hrun hrange hhalt hdrained
  obtain ⟨-, -, -, hstalled⟩ := (inFlight_eq_false_iff _).mp hdrained
  have hstages := runStages_of_drained ⟨hhalt, hstalled, hrange⟩ hdrained
  have hunfinished : s.cur.finished = false := by rw [Gen.finished, hhalt, Bool.false_and]
  apply step_of_cycle hrun
  rw [cycle, hstages, andThen_next, nextGen_of_drained hdrained, adopt_eq hstages, hunfinished]
  simp [hnext, hwork]

end Sys2Proof.Proofs.Run
end

section

/-! The issue scan (R240): the conditions of R241 to R247 written out, and the independence of the records that one scan
issues (R250). -/

namespace Sys2Proof.Proofs.IssueScan

open Sys2Proof.Machine Sys2Proof.Proofs.CycleFront Sys2Proof.Proofs.Registers

/-! ### The conditions at one record -/

/-- Two register sets are disjoint when no element of the first is in the second. -/
theorem not_meets_iff (as bs : List PReg) : meets as bs = false ↔ ∀ r ∈ as, r ∉ bs := by
  simp [meets]

theorem condA_iff (i : Instr) (aw marks : Scoreboard) :
    condA i aw marks = true ↔ ∀ r, r ∈ readsOf i ∨ r ∈ writesOf i → aw.flag r = false ∧ marks.flag r = false := by
  simp only [condA, List.all_eq_true, List.mem_append, Bool.and_eq_true, Bool.not_eq_true']

theorem condB_iff (i : Instr) (older : List Rec) :
    condB i older = true ↔ ∀ j ∈ older, ∀ r ∈ writesOf j.instr, r ∉ readsOf i := by
  simp [condB, raw, not_meets_iff]

theorem condC_iff (i : Instr) (older : List Rec) :
    condC i older = true ↔ ∀ j ∈ older, ∀ r ∈ readsOf j.instr, r ∉ writesOf i := by
  simp [condC, war, not_meets_iff]

/-- R244: no kind is both a load and a store, so the two cases of the condition are two implications. -/
theorem condD_iff (i : Instr) (older : List Rec) :
    condD i older = true ↔ ∀ j ∈ older, (isLoad i = true → isStore j.instr = false) ∧
      (isStore i = true → isStore j.instr = false ∧ isLoad j.instr = false) := by
  unfold condD
  split_ifs with hload hstore
  · simp [hload, AfterCycle.not_store_of_load hload]
  · simp [hload, hstore]
  · simp [hload, hstore]

theorem condE_iff (check : Bool) (i : Instr) (older : List Rec) :
    condE check i older = true ↔ ∀ j ∈ older, check = true → ∀ r ∈ writesOf j.instr, r ∉ writesOf i := by
  cases check <;> simp [condE, waw, not_meets_iff]

theorem slotFree_iff (s : State) (k : QueueId) :
    s.slotFree k = true ↔ (s.cur.queues.get k).length + (s.work.enq.get k).length < 2 := by
  simp [State.slotFree, Config.qCap]

/-- R240: the record issues when all five conditions hold and its queue has room. -/
theorem canIssue_iff (s : State) (i : Instr) (k : QueueId) :
    s.canIssue i k = true ↔
      (∀ r, r ∈ readsOf i ∨ r ∈ writesOf i → s.cur.aw.flag r = false ∧ s.work.marks.flag r = false) ∧
      (∀ j ∈ s.work.older, (∀ r ∈ writesOf j.instr, r ∉ readsOf i) ∧ (∀ r ∈ readsOf j.instr, r ∉ writesOf i) ∧
        (isLoad i = true → isStore j.instr = false) ∧
        (isStore i = true → isStore j.instr = false ∧ isLoad j.instr = false) ∧
        (s.setup.wawCheck = true → ∀ r ∈ writesOf j.instr, r ∉ writesOf i)) ∧
      (s.cur.queues.get k).length + (s.work.enq.get k).length < 2 := by
  simp only [State.canIssue, Bool.and_eq_true, condA_iff, condB_iff, condC_iff, condD_iff, condE_iff, slotFree_iff]
  constructor
  · rintro ⟨⟨⟨⟨⟨ha, hb⟩, hc⟩, hd⟩, he⟩, hslot⟩
    exact ⟨ha, fun j hj => ⟨hb j hj, hc j hj, (hd j hj).1, (hd j hj).2, he j hj⟩, hslot⟩
  · rintro ⟨ha, holder, hslot⟩
    refine ⟨⟨⟨⟨⟨ha, fun j hj => ?_⟩, fun j hj => ?_⟩, fun j hj => ?_⟩, fun j hj => ?_⟩, hslot⟩ <;>
      obtain ⟨hb, hc, hload, hstore, he⟩ := holder j hj
    · exact hb
    · exact hc
    · exact ⟨hload, hstore⟩
    · exact he

/-- Settles O23: condition by condition. -/
theorem issueConditions : Obligations.IssueConditions := canIssue_iff

/-! ### Records issued by one scan -/

/-- The records that the scan has issued, over all queues. -/
def allIssued (q : Queues) : List Rec := q.ls ++ q.div ++ q.mul ++ q.alu

theorem mem_allIssued {q : Queues} {b : Rec} : b ∈ allIssued q ↔ ∃ k, b ∈ q.get k := by
  simp only [allIssued, List.mem_append]
  constructor
  · rintro (((h | h) | h) | h)
    · exact ⟨.ls, h⟩
    · exact ⟨.div, h⟩
    · exact ⟨.mul, h⟩
    · exact ⟨.alu, h⟩
  · rintro ⟨k, h⟩
    cases k with
    | ls => exact .inl (.inl (.inl h))
    | div => exact .inl (.inl (.inr h))
    | mul => exact .inl (.inr h)
    | alu => exact .inr h

/-- Up to order, a push puts the record in front. -/
theorem allIssued_push (q : Queues) (k : QueueId) (b : Rec) : (allIssued (q.push k b)).Perm (b :: allIssued q) := by
  rw [List.perm_iff_count]
  intro a
  cases k <;> simp only [allIssued, Queues.push, List.count_append, List.count_cons, List.count_nil] <;> omega

theorem independent_symm {a b : Instr} (h : independent a b) : independent b a := by
  obtain ⟨hraw, hwar, hwaw⟩ := h
  simp only [independent, raw, war, waw, not_meets_iff] at *
  exact ⟨fun r hw hr => hwar r hr hw, fun r hr hw => hraw r hw hr, fun r hb ha => hwaw r ha hb⟩

/-- No two of the records issued so far depend on one another, and a store shares `LSQ`'s new records with none. -/
structure Independent (q : Queues) : Prop where
  all : (allIssued q).Pairwise fun a b => independent a.instr b.instr
  ls : q.ls.Pairwise fun a b => isStore a.instr = false ∧ isStore b.instr = false

section Scan

variable {c : Setup} {g : Gen} {pre : List Rec} {a : Reference.Issue}

/-- R240, R248: what the scan has marked is what the records issued so far write. -/
theorem marked_of_issued (facts : IssueFacts c g pre a) {b : Rec} (hb : b ∈ allIssued a.enq) {r : PReg}
    (hr : r ∈ writesOf b.instr) : r ∈ a.marks := by
  have hpos : 0 < writersIn (allIssued a.enq) r := List.countP_pos_iff.mpr ⟨b, hb, decide_eq_true hr⟩
  have hcount := facts.count r
  simp only [allIssued, writersIn_append] at hpos
  by_contra hmark
  rw [if_neg hmark] at hcount
  omega

/-- A record issued so far stands among those scanned, but for its operands. -/
theorem scanned_of_issued (facts : IssueFacts c g pre a) {k : QueueId} {b : Rec} (hb : b ∈ a.enq.get k) :
    ∃ j ∈ pre, j.instr = b.instr ∧ queueOf b.instr = some k := by
  obtain ⟨j, hj, hqueue, rfl⟩ := facts.enq k b hb
  exact ⟨j, hj, rfl, hqueue⟩

/-- The conditions of R241 to R244 as the transition function asks them. -/
theorem issues_conditions {i : Instr} {k : QueueId} (h : Reference.issues c g pre a i k = true) :
    (∀ r, r ∈ readsOf i ∨ r ∈ writesOf i → r ∉ a.marks) ∧
    (∀ j ∈ pre, ∀ r ∈ readsOf j.instr, r ∉ writesOf i) ∧
    (∀ j ∈ pre, (isLoad i = true → isStore j.instr = false) ∧
      (isStore i = true → isStore j.instr = false ∧ isLoad j.instr = false)) := by
  simp only [Reference.issues, Reference.disjoint, Bool.and_eq_true, List.all_eq_true, List.mem_append,
    Bool.or_eq_true, Bool.not_eq_true', decide_eq_true_eq] at h
  obtain ⟨⟨⟨⟨⟨⟨hmarks, -⟩, hreads⟩, hload⟩, hstore⟩, -⟩, -⟩ := h
  refine ⟨fun r hr => (hmarks r hr).2, hreads, fun j hj => ⟨fun hi => ?_, fun hi => ?_⟩⟩
  · exact (hload.resolve_left (by simp [hi])) j hj
  · exact (hstore.resolve_left (by simp [hi])) j hj

/-- R241, R243: a record that issues is independent of those issued before it in the scan. -/
theorem independent_of_issues (facts : IssueFacts c g pre a) {i : Instr} {k : QueueId}
    (h : Reference.issues c g pre a i k = true) {b : Rec} (hb : b ∈ allIssued a.enq) : independent i b.instr := by
  obtain ⟨hmarks, hreads, -⟩ := issues_conditions h
  obtain ⟨k', hk'⟩ := mem_allIssued.mp hb
  obtain ⟨j, hj, hji, -⟩ := scanned_of_issued facts hk'
  simp only [independent, raw, war, waw, not_meets_iff]
  exact ⟨fun r hw hr => hreads j hj r (hji ▸ hr) hw, fun r hr hw => hmarks r (.inl hr) (marked_of_issued facts hb hw),
    fun r hw hw' => hmarks r (.inr hw) (marked_of_issued facts hb hw')⟩

/-- R244: neither of two loads or stores that issue in one scan is a store. -/
theorem not_store_of_issues (facts : IssueFacts c g pre a) {i : Instr} (hi : queueOf i = some .ls)
    (h : Reference.issues c g pre a i .ls = true) {b : Rec} (hb : b ∈ a.enq.ls) :
    isStore b.instr = false ∧ isStore i = false := by
  obtain ⟨-, -, hmem⟩ := issues_conditions h
  obtain ⟨j, hj, hji, hqueue⟩ := scanned_of_issued facts (k := .ls) hb
  obtain ⟨hload, hstore⟩ := hji ▸ hmem j hj
  obtain hi | hi := (Exceptions.queueOf_eq_ls_iff i).mp hi
  · exact ⟨hload hi, AfterCycle.not_store_of_load hi⟩
  · obtain ⟨hnostore, hnoload⟩ := hstore hi
    simp [Exceptions.queueOf_eq_ls_iff, hnostore, hnoload] at hqueue

/-- One record of the scan. -/
theorem independent_issueOne (facts : IssueFacts c g pre a) (hind : Independent a.enq) (b : Rec) :
    Independent (Reference.issueOne c g pre a b).enq := by
  unfold Reference.issueOne
  split
  · exact hind
  next k hqueue =>
  split_ifs with hissues
  · constructor
    · refine (List.Perm.pairwise_iff independent_symm (allIssued_push _ _ _)).mpr (List.pairwise_cons.mpr ⟨?_, hind.all⟩)
      exact fun b' hb' => independent_of_issues facts hissues hb'
    · cases k with
      | ls =>
        refine List.pairwise_append.mpr ⟨hind.ls, List.pairwise_singleton _ _, fun b' hb' x hx => ?_⟩
        obtain rfl := List.mem_singleton.mp hx
        exact not_store_of_issues facts hqueue hissues hb'
      | div | mul | alu => exact hind.ls
  · exact hind

/-- The scan of the rest of the window. -/
theorem independent_issueScan (fw : List Rec) {pre : List Rec} {a : Reference.Issue} (facts : IssueFacts c g pre a)
    (hind : Independent a.enq) : Independent (Reference.issueScan c g pre fw a).enq := by
  induction fw generalizing pre a with
  | nil => exact hind
  | cons b fw ih => exact ih (issueOne_facts pre b facts) (independent_issueOne facts hind b)

end Scan

theorem independent_issue (c : Setup) (g : Gen) : Independent (Reference.issue c g).enq :=
  independent_issueScan g.fw
    ⟨by simp, by simp, by simp, by simp, by simp, by simp [Queues.empty, writersIn]⟩
    ⟨by simp [allIssued, Queues.empty], by simp [Queues.empty]⟩

/-- R240: the issue stage of a cycle issues what the scan written apart issues. -/
theorem issueStage_enq {s u : State} (h : issueStage s.openCycle = .next u) :
    u.work.enq = (Reference.issue s.setup s.cur).enq := by
  obtain ⟨w, hw, -, hmatch⟩ := issueStage_eq s.openCycle scanUnbegun_fresh
  cases hw.symm.trans h
  exact hmatch.enq

/-- Settles O25: by the scan's conditions at each record against those issued before it. -/
theorem sameCycleIssuesIndependent : Obligations.SameCycleIssuesIndependent := by
  intro s u h
  rw [issueStage_enq h]
  obtain ⟨hall, hls⟩ := independent_issue s.setup s.cur
  refine ⟨hall, hls, fun b hb => ?_⟩
  obtain ⟨k, hk⟩ := mem_allIssued.mp hb
  exact (issue_facts s.setup s.cur).awFree k b hk

end Sys2Proof.Proofs.IssueScan
end

section

/-! Latencies (R338, R339) and the order of memory (R48, R340): a record at the head of its queue followed from cycle to
cycle, until its value is where it belongs. -/

namespace Sys2Proof.Proofs.Latency

open Sys2Proof.Machine Sys2Proof.Proofs.Transition Sys2Proof.Proofs.Scoreboard Sys2Proof.Proofs.Invariant
  Sys2Proof.Proofs.AfterCycle Sys2Proof.Proofs.Registers Sys2Proof.Proofs.Writeback

/-! ### Several cycles -/

theorem inv_of_cycles {n : Nat} {s t : State} (hinv : s.Inv) (h : Cycles n s t) : t.Inv := by
  induction n generalizing s with
  | zero => exact h ▸ hinv
  | succ n ih =>
    obtain ⟨u, -, hu, h⟩ := h
    exact ih (inv_of_cycle hinv hu) h

/-- The last cycle of several. -/
theorem cycles_succ_last {n : Nat} {s t : State} (h : Cycles (n + 1) s t) : ∃ u, Cycles n s u ∧ cycle u = .next t := by
  induction n generalizing s with
  | zero =>
    obtain ⟨u, -, hu, rfl⟩ := h
    exact ⟨s, rfl, hu⟩
  | succ n ih =>
    obtain ⟨v, hrun, hv, h⟩ := h
    obtain ⟨u, hu, ht⟩ := ih h
    exact ⟨u, ⟨v, hrun, hv, hu⟩, ht⟩

theorem becomes_of_inv {s t : State} (hinv : s.Inv) (h : cycle s = .next t) : Becomes s.setup s.cur t.cur :=
  becomes_of_cycle hinv.kinds h

/-! ### One record, one cycle -/

section Move

variable {c : Setup} {g n : Gen} {b : Rec} {bs : List Rec} (h : Becomes c g n)
include h

theorem aluo_of_head {v : Word} (hq : g.queues.alu = b :: bs) (hv : aluResult b.instr b.v1 b.v2 = some v) :
    n.latches.aluo = some { ins := b, value := v } := by
  obtain ⟨hnil, -⟩ | ⟨b', bs', v', hq', hv', hl⟩ := alu1_cases h.alu1
  · cases hq.symm.trans hnil
  · cases hq.symm.trans hq'
    cases hv.symm.trans hv'
    exact hl

theorem lsa_of_head (hq : g.queues.ls = b :: bs) :
    n.latches.lsa = some { ins := b, value := b.v1 + immOf b.instr } := by
  rw [h.lsa, hq]
  rfl

theorem memo_of_load {l : Latch} (hl : g.latches.lsa = some l) (hload : isLoad l.ins.instr = true) :
    n.latches.memo = some { ins := l.ins, value := g.mem.get l.value.toNat } := by
  obtain ⟨hnone, -⟩ | ⟨l', hl', -, hm⟩ | ⟨l', hl', hstore, -⟩ := mem_cases h.mem
  · cases hl.symm.trans hnone
  · cases hl.symm.trans hl'
    exact (Prod.mk.inj hm).1
  · cases hl.symm.trans hl'
    exact absurd (hstore.symm.trans (not_store_of_load hload)) (by decide)

theorem divo_of_head (hq : g.queues.div = b :: bs) :
    b.v2 ≠ 0#32 ∧ n.latches.divo = some { ins := b, hi := remainder b.v1 b.v2, lo := quotient b.v1 b.v2 } := by
  obtain ⟨hnil, -⟩ | ⟨b', bs', hq', hzero, hl⟩ := div_cases h.div
  · cases hq.symm.trans hnil
  · cases hq.symm.trans hq'
    exact ⟨hzero, hl⟩

/-- R286, R288: a record written back leaves its registers awaiting no more, for none of them is marked again in the
same cycle. -/
theorem flag_of_writtenBack (hexact : g.scoreboardOk) (hb : b ∈ writtenBack g) {r : PReg} (hr : r ∈ writesOf b.instr) :
    n.aw.flag r = false := by
  have hcleared : r ∈ Reference.cleared g := List.mem_flatMap.mpr ⟨b, hb, hr⟩
  obtain ⟨b', hb', hr'⟩ := exists_issued_writer hcleared
  have hset := flag_of_issued_writer hexact hb' hr'
  have hunmarked : r ∉ (Reference.issue c g).marks := fun hmark => by
    cases hset.symm.trans ((issue_facts c g).marksFree r hmark)
  simp [h.flag r, Reference.nextFlag, hcleared, hunmarked]

end Move

/-! ### One writer in flight -/

section OneWriter

variable {g : Gen} (hexact : g.scoreboardOk) {r : PReg}
include hexact

/-- R208: an exact scoreboard has at most one writer of a register in flight, so at most one that is written back. -/
theorem writersIn_writtenBack_le_one (r : PReg) : writersIn (writtenBack g) r ≤ 1 := by
  have hissued := hexact r
  have hle := writersIn_writtenBack_le g r
  split_ifs at hissued <;> omega

/-- `MEMO` does not name the register that `ALUO` names. -/
theorem not_memo_of_aluo {l m : Latch} (hl : g.latches.aluo = some l) (hr : r ∈ writesOf l.ins.instr)
    (hm : g.latches.memo = some m) : r ∉ writesOf m.ins.instr := by
  intro hr'
  have hle := writersIn_writtenBack_le_one hexact r
  simp only [writtenBack, hl, hm, writersIn_append, Option.toList_some, List.map_cons, List.map_nil,
    writersIn_singleton, hr, hr', if_true] at hle
  omega

/-- `MUL3O` is empty beside a `DIVO` that holds a writer of HI. -/
theorem mul3o_of_divo (hkinds : g.KindsOk) {l : PairLatch} (hl : g.latches.divo = some l) : g.latches.mul3o = none := by
  rw [Option.eq_none_iff_forall_ne_some]
  intro m hm
  have hhi : PReg.hi ∈ writesOf l.ins.instr := by rw [writesOf_of_hilo (dest_of_div _ (hkinds.divo l hl))]; simp
  have hhi' : PReg.hi ∈ writesOf m.ins.instr := by rw [writesOf_of_hilo (dest_of_mul _ (hkinds.mul3o m hm))]; simp
  have hle := writersIn_writtenBack_le_one hexact .hi
  simp only [writtenBack, hl, hm, writersIn_append, Option.toList_some, List.map_cons, List.map_nil,
    writersIn_singleton, hhi, hhi', if_true] at hle
  omega

end OneWriter

/-! ### The generic ALU -/

theorem mem_writesOf_of_gpr {i : Instr} {rd : Reg} (h : destOf i = .gpr rd) : PReg.x rd ∈ writesOf i := by
  rw [writesOf_of_gpr h]
  exact List.mem_singleton_self _

/-- Settles O55: `ALUO` after one cycle, the register after two. -/
theorem aluLatency : Obligations.AluLatency := by
  intro s b bs rd v hinv hq hdest hv
  have hwrites := mem_writesOf_of_gpr hdest
  refine ⟨?_, ?_⟩
  · rintro u ⟨_, -, hu, rfl⟩
    have haluo := aluo_of_head (becomes_of_inv hinv hu) hq hv
    exact flag_of_issued_writer (inv_of_cycle hinv hu).scoreboard (by simp [Gen.issued, haluo]) hwrites
  · rintro t ⟨u, -, hu, _, -, ht, rfl⟩
    have haluo := aluo_of_head (becomes_of_inv hinv hu) hq hv
    have hinv' := inv_of_cycle hinv hu
    have h := becomes_of_inv hinv' ht
    have hmemo (m : Latch) (hm : u.cur.latches.memo = some m) : destOf m.ins.instr ≠ .gpr rd := fun hd =>
      not_memo_of_aluo hinv'.scoreboard haluo hwrites hm (mem_writesOf_of_gpr hd)
    exact ⟨x_of_aluo h hmemo haluo hdest,
      flag_of_writtenBack h hinv'.scoreboard (by simp [writtenBack, haluo]) hwrites⟩

/-! ### Loads and stores -/

/-- Settles O56: `LSA` after one cycle, `MEMO` after two, the register after three. -/
theorem loadLatency : Obligations.LoadLatency := by
  intro s b bs base rt off hinv hq hi
  have hdest : destOf b.instr = .gpr rt := by rw [hi, destOf]
  have hwrites := mem_writesOf_of_gpr hdest
  have hload : isLoad b.instr = true := by rw [hi, isLoad]
  have hlsa {u : State} (hu : cycle s = .next u) :
      u.cur.latches.lsa = some { ins := b, value := b.v1 + off.signExtend 32 } := by
    rw [lsa_of_head (becomes_of_inv hinv hu) hq, hi]
    rfl
  refine ⟨?_, ?_⟩
  · rintro w ⟨u, -, hu, _, -, hw, rfl⟩
    have hinv' := inv_of_cycle hinv hu
    have hmemo := memo_of_load (becomes_of_inv hinv' hw) (hlsa hu) hload
    exact flag_of_issued_writer (inv_of_cycle hinv' hw).scoreboard (by simp [Gen.issued, hmemo]) hwrites
  · rintro u t ⟨_, -, hu, rfl⟩ ⟨w, -, hw, _, -, ht, rfl⟩
    have hinv' := inv_of_cycle hinv hu
    have hmemo := memo_of_load (becomes_of_inv hinv' hw) (hlsa hu) hload
    have hinv'' := inv_of_cycle hinv' hw
    have h := becomes_of_inv hinv'' ht
    exact ⟨x_of_memo h hmemo hdest, flag_of_writtenBack h hinv''.scoreboard (by simp [writtenBack, hmemo]) hwrites⟩

/-- Settles O57: `LSA` after one cycle, the memory after two. -/
theorem storeLatency : Obligations.StoreLatency := by
  rintro s b bs base rt off hinv hq hi u t ⟨_, -, hu, rfl⟩ ⟨_, -, ht, rfl⟩ a
  have hinv' := inv_of_cycle hinv hu
  have hlsa := lsa_of_head (becomes_of_inv hinv hu) hq
  have hstore : isStore b.instr = true := by rw [hi, isStore]
  rw [mem_get_of_store (becomes_of_inv hinv' ht) hinv'.mem.1 hlsa hstore, hi]
  rfl

/-- Settles O60: the store is at the head of `LSQ`, and the load one cycle later; so the load reads memory the cycle
after the store has written it. -/
theorem loadSeesOlderStore : Obligations.LoadSeesOlderStore := by
  rintro s b c bs base rt base' rt' off off' hinv hq hb hc haddr t ⟨u, hrun, hu, v, hrun', hv, ht⟩
  have hqueue : u.cur.queues.ls = c :: (bs ++ (Reference.issue s.setup s.cur).enq.ls) := by
    have hls := (becomes_of_inv hinv hu).queues .ls
    rwa [Queues.get, Queues.get, hq] at hls
  obtain ⟨-, hloaded⟩ := loadLatency u c _ base' rt' off' (inv_of_cycle hinv hu) hqueue hc
  obtain ⟨hvalue, -⟩ := hloaded v t ⟨v, hrun', hv, rfl⟩ ht
  rw [hvalue, storeLatency s b _ base rt off hinv hq hb u v ⟨u, hrun, hu, rfl⟩ ⟨v, hrun', hv, rfl⟩, if_pos]
  rw [haddr]

/-! ### MULT and DIV -/

/-- What MUL1 makes of a record (R265). -/
def productOf (b : Rec) : PairLatch := { ins := b, hi := productHi b.v1 b.v2, lo := productLo b.v1 b.v2 }

/-- Where the record stands `k` cycles after it was at the head of `MULQ` (R265 to R267). -/
def MultiplyAt (b : Rec) : Nat → Gen → Prop
  | 0, g => ∃ bs, g.queues.mul = b :: bs
  | 1, g => g.latches.mul1o = some (productOf b)
  | 2, g => g.latches.mul2o = some (productOf b)
  | 3, g => g.latches.mul3o = some (productOf b)
  | _, _ => False

section Multiply

variable {b : Rec}

theorem multiplyAt_becomes {c : Setup} {g n : Gen} (h : Becomes c g n) {k : Nat} (hk : k < 3) (hat : MultiplyAt b k g) :
    MultiplyAt b (k + 1) n := by
  match k, hk with
  | 0, _ =>
    obtain ⟨bs, hq⟩ := hat
    exact h.mul1o.trans (by rw [hq]; rfl)
  | 1, _ => exact h.mul2o.trans hat
  | 2, _ => exact h.mul3o.trans hat

theorem multiplyAt_of_cycles {s t : State} (hinv : s.Inv) (hat : MultiplyAt b 0 s.cur) {n : Nat} (hn : n ≤ 3)
    (h : Cycles n s t) : MultiplyAt b n t.cur := by
  induction n generalizing t with
  | zero => exact h ▸ hat
  | succ n ih =>
    obtain ⟨u, hu, ht⟩ := cycles_succ_last h
    exact multiplyAt_becomes (becomes_of_inv (inv_of_cycles hinv hu) ht) hn (ih (by omega) hu)

theorem mem_issued_of_multiplyAt {g : Gen} {k : Nat} (hat : MultiplyAt b k g) : b ∈ g.issued := by
  match k with
  | 0 =>
    obtain ⟨bs, hq⟩ := hat
    simp [Gen.issued, hq]
  | 1 | 2 | 3 =>
    have hlatch : _ = some (productOf b) := hat
    simp [Gen.issued, hlatch, productOf]
  | _ + 4 => exact hat.elim

end Multiply

/-- R208: HI and LO await while a record that writes the pair is in flight. -/
theorem pair_awaits {g : Gen} (hexact : g.scoreboardOk) {b : Rec} (hb : b ∈ g.issued) (hdest : destOf b.instr = .hilo) :
    g.aw.hi = true ∧ g.aw.lo = true :=
  ⟨flag_of_issued_writer (r := .hi) hexact hb (by rw [writesOf_of_hilo hdest]; simp),
    flag_of_issued_writer (r := .lo) hexact hb (by rw [writesOf_of_hilo hdest]; simp)⟩

/-- R286: they await no more when it is written back. -/
theorem pair_awaits_no_more {c : Setup} {g n : Gen} (h : Becomes c g n) (hexact : g.scoreboardOk) {b : Rec}
    (hb : b ∈ writtenBack g) (hdest : destOf b.instr = .hilo) : n.aw.hi = false ∧ n.aw.lo = false :=
  ⟨flag_of_writtenBack (r := .hi) h hexact hb (by rw [writesOf_of_hilo hdest]; simp),
    flag_of_writtenBack (r := .lo) h hexact hb (by rw [writesOf_of_hilo hdest]; simp)⟩

/-- R241: a record that reads an awaiting register cannot issue. -/
theorem canIssue_of_awaits {w : State} {i : Instr} {k : QueueId} {r : PReg} (hr : r ∈ readsOf i)
    (haw : w.cur.aw.flag r = true) : w.canIssue i k = false := by
  rw [Bool.eq_false_iff]
  intro hcan
  obtain ⟨hfree, -⟩ := (IssueScan.canIssue_iff w i k).mp hcan
  exact absurd (haw.symm.trans (hfree r (.inl hr)).1) (by decide)

/-- Settles O58: the record passes MUL1 to MUL3 and is written back from `MUL3O`, the last of the four latches. -/
theorem multiplyLatency : Obligations.MultiplyLatency := by
  intro s b bs hinv hq
  have hat : MultiplyAt b 0 s.cur := ⟨bs, hq⟩
  have hdest : destOf b.instr = .hilo := dest_of_mul _ (hinv.kinds.mul b (by simp [hq]))
  refine ⟨fun n u hn hu => ?_, fun t ht => ?_⟩
  · have hissued := mem_issued_of_multiplyAt (multiplyAt_of_cycles hinv hat hn hu)
    obtain ⟨hhi, hlo⟩ := pair_awaits (inv_of_cycles hinv hu).scoreboard hissued hdest
    refine ⟨hhi, hlo, fun rd w k _ hcur => ⟨?_, ?_⟩⟩
    · exact canIssue_of_awaits (r := .hi) (by simp) (hcur ▸ hhi)
    · exact canIssue_of_awaits (r := .lo) (by simp) (hcur ▸ hlo)
  · obtain ⟨u, hu, ht⟩ := cycles_succ_last ht
    have hinv' := inv_of_cycles hinv hu
    have hmul3o : u.cur.latches.mul3o = some (productOf b) := multiplyAt_of_cycles hinv hat le_rfl hu
    have h := becomes_of_inv hinv' ht
    obtain ⟨hhi, hlo⟩ := pair_of_mul3o h hmul3o
    refine ⟨?_, pair_awaits_no_more h hinv'.scoreboard (by simp [writtenBack, hmul3o, productOf]) hdest⟩
    rw [hhi, hlo, productOf, Units.productHi_append_productLo, Units.product64_toInt]

/-- Settles O59: `DIVO` after one cycle, HI and LO after two. -/
theorem divideLatency : Obligations.DivideLatency := by
  intro s b bs hinv hq
  have hdest : destOf b.instr = .hilo := dest_of_div _ (hinv.kinds.div b (by simp [hq]))
  refine ⟨?_, ?_⟩
  · rintro u ⟨_, -, hu, rfl⟩
    obtain ⟨hzero, hdivo⟩ := divo_of_head (becomes_of_inv hinv hu) hq
    exact ⟨hzero, pair_awaits (inv_of_cycle hinv hu).scoreboard (by simp [Gen.issued, hdivo]) hdest⟩
  · rintro t ⟨u, -, hu, _, -, ht, rfl⟩
    obtain ⟨-, hdivo⟩ := divo_of_head (becomes_of_inv hinv hu) hq
    have hinv' := inv_of_cycle hinv hu
    have h := becomes_of_inv hinv' ht
    obtain ⟨hhi, hlo⟩ := pair_of_divo h (mul3o_of_divo hinv'.scoreboard hinv'.kinds hdivo) hdivo
    exact ⟨hhi, hlo, pair_awaits_no_more h hinv'.scoreboard (by simp [writtenBack, hdivo]) hdest⟩

end Sys2Proof.Proofs.Latency
end

section

/-! Decoding and the ignored bits (R72, decision D6): an instruction hangs on the field bits of its word alone. -/

namespace Sys2Proof.Proofs.IgnoredBits

open Sys2Proof.Machine Sys2Proof.Proofs.Encoding

section SameFields

variable {w w' m : Word} (h : w' &&& m = w &&& m)
include h

theorem extractLsb'_eq_of_and_eq {lo len : Nat} (hm : m.extractLsb' lo len = BitVec.allOnes len) :
    w'.extractLsb' lo len = w.extractLsb' lo len := by
  rw [← extractLsb'_and_of_ones hm, h, extractLsb'_and_of_ones hm]

theorem catField_eq_of_and_eq (hm : m.extractLsb' 29 3 = BitVec.allOnes 3) : catField w' = catField w := by
  rw [catField, extractLsb'_eq_of_and_eq h hm, catField]

theorem opField_eq_of_and_eq (hm : m.extractLsb' 26 3 = BitVec.allOnes 3) : opField w' = opField w := by
  rw [opField, extractLsb'_eq_of_and_eq h hm, opField]

theorem regField_eq_of_and_eq {lo : Nat} (hm : m.extractLsb' lo 5 = BitVec.allOnes 5) :
    regField w' lo = regField w lo := by
  rw [regField, extractLsb'_eq_of_and_eq h hm, regField]

theorem halfField_eq_of_and_eq (hm : m.extractLsb' 0 16 = BitVec.allOnes 16) : halfField w' = halfField w :=
  extractLsb'_eq_of_and_eq h hm

end SameFields

/-- R61: the category and the opcode are field bits of every format. -/
theorem fieldBits_opcode (i : Instr) :
    (fieldBits i).extractLsb' 29 3 = BitVec.allOnes 3 ∧ (fieldBits i).extractLsb' 26 3 = BitVec.allOnes 3 := by
  cases i <;> simp only [fieldBits] <;> decide

/-- R72, row by row of `decode`: the word with the same field bits is at the same row, and its fields are the same. -/
theorem decode_of_same_fieldBits {w w' : Word} {i : Instr} (h : decode w = some i)
    (hsame : w' &&& fieldBits i = w &&& fieldBits i) : decode w' = some i := by
  obtain ⟨hcatBits, hopBits⟩ := fieldBits_opcode i
  have hcat := catField_eq_of_and_eq hsame hcatBits
  have hop := opField_eq_of_and_eq hsame hopBits
  unfold decode at h ⊢
  rw [hcat, hop]
  split at h <;> cases h <;> simp only [fieldBits] at hsame
  case h_1 | h_2 | h_3 | h_5 | h_6 | h_14 | h_15 | h_16 =>
    have hall (v : Word) : v &&& 0xFFFFFFFF#32 = v := BitVec.and_allOnes
    rw [hall, hall] at hsame
    rw [hsame]
  case h_4 => rw [regField_eq_of_and_eq hsame (by decide), halfField_eq_of_and_eq hsame (by decide)]
  case h_7 => rfl
  case h_8 | h_9 | h_10 | h_11 | h_12 | h_13 =>
    rw [regField_eq_of_and_eq hsame (by decide), regField_eq_of_and_eq hsame (by decide),
      regField_eq_of_and_eq hsame (by decide)]
  case h_17 | h_18 => rw [regField_eq_of_and_eq hsame (by decide), regField_eq_of_and_eq hsame (by decide)]
  case h_19 | h_20 => rw [regField_eq_of_and_eq hsame (by decide)]

/-- Changing bits outside a mask changes nothing under the mask. -/
theorem xor_outside_and (w k m : Word) : (w ^^^ (k &&& ~~~m)) &&& m = w &&& m := by
  ext j hj
  simp only [BitVec.getElem_and, BitVec.getElem_xor, BitVec.getElem_not]
  cases m[j] <;> simp

/-- Settles O3: what an encoding keeps of its word, and words with the same field bits. -/
theorem bitsOutsideFieldsIgnored : Obligations.BitsOutsideFieldsIgnored :=
  fun w i h => ⟨encode_eq_and_fieldBits h, fun k => decode_of_same_fieldBits h (xor_outside_and w k (fieldBits i))⟩

/-- Settles O4: each of the twelve words is evaluated. -/
theorem wordsOfTheSpecDecode : Obligations.WordsOfTheSpecDecode := by
  unfold Obligations.WordsOfTheSpecDecode
  decide

end Sys2Proof.Proofs.IgnoredBits
end

section

/-! Instructions at the fetch stage (R222 to R228): branches and jumps resolve or stall, BREAK requests the halt, and
every other kind enters the window; and the stages that present records to `exec`. -/

namespace Sys2Proof.Proofs.FetchedInstr

open Sys2Proof.Machine Sys2Proof.Proofs.Fetch Sys2Proof.Proofs.IssueScan Sys2Proof.Proofs.Run

/-! ### When a branch may resolve -/

/-- R227, written out. -/
theorem canResolve_iff (b : Instr) (g : Gen) (extra : List Rec) :
    canResolve b g extra = true ↔
      (∀ r ∈ readsOf b, g.aw.flag r = false) ∧ ∀ j ∈ g.fw ++ extra, ∀ r ∈ writesOf j.instr, r ∉ readsOf b := by
  simp only [canResolve, Bool.and_eq_true, List.all_eq_true, Bool.not_eq_true', raw, not_meets_iff]

/-- J reads nothing. -/
theorem canResolve_j (idx : BitVec 26) (g : Gen) (extra : List Rec) : canResolve (.j idx) g extra = true := by
  simp [canResolve_iff, readsOf, src1Of, src2Of, SRef.regs]

/-- Settles O12: R227 as it stands, and J's empty read set. -/
theorem resolutionCondition : Obligations.ResolutionCondition := ⟨canResolve_iff, canResolve_j⟩

/-! ### Branches and jumps -/

section Branches

variable {i : Instr} {s : State} (hbranch : isBranch i = true)
include hbranch

theorem exec_fetch_of_branch (hst : s.work.station = .fetch) :
    exec i s = .next (s.branchFetched i (takenOf i) (targetOf i)) := by
  have hbrk : i ≠ .brk := by rintro rfl; cases hbranch
  rw [exec_fetch i s hst, if_neg hbrk, if_pos hbranch]

/-- R225: a branch that can resolve when it is fetched does. -/
theorem exec_fetch_of_canResolve (hst : s.work.station = .fetch)
    (hcan : canResolve i s.cur s.work.newFw = true) :
    exec i s = .next (s.resolve (s.fetched i) (Reference.outcome (s.fetched i) s.cur)) := by
  rw [exec_fetch_of_branch hbranch hst, State.branchFetched, if_pos hcan, ← outcome_eq (s.fetched i) s.cur hbranch]
  rfl

/-- R225: one that cannot stalls. -/
theorem exec_fetch_of_cannotResolve (hst : s.work.station = .fetch)
    (hcannot : canResolve i s.cur s.work.newFw = false) : exec i s = .next (s.stall (s.fetched i)) := by
  rw [exec_fetch_of_branch hbranch hst, State.branchFetched, if_neg (by simp [hcannot])]

/-- R222: a stalled branch retried. -/
theorem exec_retry_of_branch {ins : Rec} (hst : s.work.station = .retry ins) :
    exec i s = .next (if canResolve i s.cur []
      then s.resolve ins (Reference.outcome { ins with instr := i } s.cur) else s) := by
  rw [exec_retry i s ins hst, if_pos hbranch, State.branchRetried,
    ← outcome_eq { ins with instr := i } s.cur hbranch]

end Branches

/-- Settles O8: J can always resolve, and its outcome is its target. -/
theorem jumpResolvesWhenFetched : Obligations.JumpResolvesWhenFetched := by
  intro idx s hst
  refine ⟨?_, (Laws.OpcodeBits.j idx).1, rfl, rfl⟩
  rw [exec_fetch_of_canResolve rfl hst (canResolve_j idx s.cur _)]
  rfl

/-- Settles O9: both branches read `rs` and `rt`, which are ready, so they resolve to R228's outcome. -/
theorem equalityBranchesResolve : Obligations.EqualityBranchesResolve := by
  intro rs rt off s hst hrs hrt hwriters
  have hcan (i : Instr) (hreads : readsOf i = [.x rs, .x rt]) : canResolve i s.cur s.work.newFw = true := by
    rw [canResolve_iff, hreads]
    refine ⟨by simp [hrs, hrt], fun j hj r hr hmem => ?_⟩
    obtain ⟨hnrs, hnrt⟩ := hwriters j hj
    simp only [List.mem_cons, List.not_mem_nil, or_false] at hmem
    obtain rfl | rfl := hmem
    · exact hnrs hr
    · exact hnrt hr
  refine ⟨?_, ?_, (Laws.OpcodeBits.beq rs rt off).1, (Laws.OpcodeBits.bne rs rt off).1, fun i hi => ?_⟩
  · rw [exec_fetch_of_canResolve rfl hst (hcan _ rfl)]
    rfl
  · rw [exec_fetch_of_canResolve rfl hst (hcan _ rfl)]
    rfl
  · fin_cases hi <;> exact ⟨rfl, rfl, rfl⟩

/-- D31: a signed word is above 0 when its sign bit is clear and it is not 0. -/
theorem zero_lt_toInt_iff (a : Word) : 0 < a.toInt ↔ a.msb = false ∧ a ≠ 0#32 := by
  rw [BitVec.msb_eq_toInt, decide_eq_false_iff_not, Ne, ← BitVec.toInt_inj, BitVec.toInt_zero]
  omega

/-- Settles O10: BGTZ reads `rs` alone, which is ready, and R228's outcome compares it with 0. -/
theorem greaterThanZeroBranchResolves : Obligations.GreaterThanZeroBranchResolves := by
  intro rs off s hst hrs hwriters
  have hcan : canResolve (.bgtz rs off) s.cur s.work.newFw = true := by
    rw [canResolve_iff, (Registers.roles_of_bgtz rs off).1]
    refine ⟨by simp [hrs], fun j hj r hr hmem => ?_⟩
    obtain rfl := List.mem_singleton.mp hmem
    exact hwriters j hj hr
  rw [exec_fetch_of_canResolve rfl hst hcan]
  simp only [← zero_lt_toInt_iff]
  rfl

/-- Settles O11: a branch fetched too early stalls, and a retry resolves it or does nothing. -/
theorem stalledBranches : Obligations.StalledBranches := by
  refine fun i s hbranch => ⟨fun hst hcannot => ?_, fun ins hst => ⟨fun hcannot => ?_, fun hcan => ?_⟩⟩
  · rw [exec_fetch_of_cannotResolve hbranch hst hcannot]
    rfl
  · rw [exec_retry_of_branch hbranch hst, if_neg (by simp [hcannot])]
  · rw [exec_retry_of_branch hbranch hst, if_pos hcan]
    rfl

/-! ### BREAK and the queued kinds -/

/-- Settles O14: BREAK requests the halt. -/
theorem breakRequestsHalt : Obligations.BreakRequestsHalt := by
  intro s hst
  rw [exec_fetch .brk s hst, if_pos rfl]
  rfl

/-- R252: the kinds that have a queue are those that the fetch loop goes on after. -/
theorem endsFetch_of_queueOf {i : Instr} {k : QueueId} (h : queueOf i = some k) : endsFetch i = false := by
  cases i with
  | j | beq | bne | bgtz | brk => cases h
  | _ => rfl

/-- Settles O15: a kind with a queue is neither BREAK nor a branch. -/
theorem windowEntry : Obligations.WindowEntry := by
  intro i s k hqueue hst
  have hends := endsFetch_of_queueOf hqueue
  rw [Bool.eq_false_iff, Ne, endsFetch_iff, not_or] at hends
  obtain ⟨hbrk, hbranch⟩ := hends
  rw [exec_fetch i s hst, if_neg hbrk, if_neg hbranch]
  rfl

/-! ### The stages present their records -/

theorem andThen_assoc (o : Out) (f k : State → Out) : andThen (andThen o f) k = andThen o fun s => andThen (f s) k := by
  cases o <;> rfl

/-- R223: an open loop runs the instruction that its word decodes to. -/
theorem fetchLoop_of_decode (n : Nat) {s : State} {i : Instr} (hopen : s.fetchOpen = true)
    (hdecode : decode s.fetchWord = some i) :
    fetchLoop (n + 1) s = andThen (exec i (s.present .fetch))
      (fun t => if endsFetch i then .next t else fetchLoop n t) := by
  rw [fetchLoop, if_pos hopen, hdecode]

/-- R291: the cycle of a machine whose fetch stage is the open loop. -/
theorem cycle_of_decode {s : State} {i : Instr} (hhalt : s.cur.fetch.haltReq = false)
    (hstalled : s.cur.fetch.stalled = none) (hfw : s.cur.fw.length < 8)
    (hrange : s.setup.inRange s.cur.fetch.pc = true) (hdecode : decode (s.cur.mem.get s.cur.fetch.pc.toNat) = some i) :
    cycle s = andThen (exec i s.openCycle) (fun t =>
      andThen (if endsFetch i then .next t else fetchLoop 3 t) (fun u =>
        andThen (runStages (stages.drop 1) u) (fun v => .next (v.adopt v.nextGen)))) := by
  have hopen : s.openCycle.fetchOpen = true := by
    simp [State.fetchOpen, Work.fresh, Config.fwCap, hrange, hfw]
  have hstage : fetchStage s.openCycle = andThen (exec i s.openCycle)
      (fun t => if endsFetch i then .next t else fetchLoop 3 t) := by
    simp only [fetchStage, State.openCycle_cur, hhalt, hstalled, Bool.false_eq_true, if_false]
    exact fetchLoop_of_decode 3 hopen hdecode
  have hrun : runStages stages s.openCycle = andThen (fetchStage s.openCycle) (runStages (stages.drop 1)) := rfl
  rw [cycle, hrun, hstage, andThen_assoc, andThen_assoc]

/-- Settles O16: the loop's first turn, and the step around its cycle. -/
theorem stepRunsDecodedInstruction : Obligations.StepRunsDecodedInstruction := by
  refine ⟨fun n s i hopen hdecode => fetchLoop_of_decode n hopen hdecode, ?_⟩
  intro s i hrun hhalt hstalled hfw hrange hdecode
  rw [step, hrun, ← cycle_of_decode hhalt hstalled hfw hrange hdecode]
  cases cycle s <;> rfl

/-- Settles O17: each stage looks at its slot and presents what it finds. -/
theorem stagesRunTheirRecords : Obligations.StagesRunTheirRecords := by
  intro s
  refine ⟨fun b hhalt hstalled => ?_, fun b bs => rfl, fun b bs hq => ?_, fun b bs hq => ?_, fun b bs hq => ?_,
    fun b bs hq => ?_, fun l hl => ?_, fun l hl => ?_, fun l hl => ?_, fun l hl => ?_, fun l hl => ?_, fun l hl => ?_,
    fun l hl => ?_⟩
  · rw [fetchStage, hhalt, hstalled]
    rfl
  · rw [alu1Stage, hq]; rfl
  · rw [alu2Stage, hq]; rfl
  · rw [divStage, hq]; rfl
  · rw [mul1Stage, hq]; rfl
  · rw [memStage, hl]; rfl
  · rw [mul2Stage, hl]; rfl
  · rw [mul3Stage, hl]; rfl
  · rw [wbAluStage, hl]; rfl
  · rw [wbMemStage, hl]; rfl
  · rw [wbDivStage, hl]; rfl
  · rw [wbMulStage, hl]; rfl

end Sys2Proof.Proofs.FetchedInstr
end

section

/-! The results of the units: ALU1 (R131 to R136, R141 to R143), MEM (R42, R43) and DIV (R152). -/

namespace Sys2Proof.Proofs.UnitResults

open Sys2Proof.Machine Sys2Proof.Proofs.MoveFrom

/-! ### ALU1 -/

/-- R135: the quotient by the power of two. -/
theorem ushiftRight_toNat (v : Word) (k : Nat) : (v >>> k).toNat = v.toNat / 2 ^ k := by
  rw [BitVec.toNat_ushiftRight, Nat.shiftRight_eq_div_pow]

/-- R136: the floored signed quotient by the power of two. -/
theorem sshiftRight_toInt (v : Word) (k : Nat) : (v.sshiftRight k).toInt = v.toInt / 2 ^ k := by
  rw [BitVec.toInt_sshiftRight, Int.shiftRight_eq_div_pow]
  norm_cast

/-- Settles O27: ALU1 by R261's table, and each result as a number or bit by bit. -/
theorem aluRegisterResults : Obligations.AluRegisterResults := by
  intro rd ra rb s ins hst
  refine ⟨⟨_, exec_alu1_of_aluResult hst rfl, ?_⟩, ⟨_, exec_alu1_of_aluResult hst rfl, ?_⟩,
    ⟨_, exec_alu1_of_aluResult hst rfl, fun n => ?_⟩, ⟨_, exec_alu1_of_aluResult hst rfl, fun n => ?_⟩,
    ⟨_, exec_alu1_of_aluResult hst rfl, ?_⟩, ⟨_, exec_alu1_of_aluResult hst rfl, ?_⟩⟩
  · exact BitVec.toNat_add _ _
  · exact BitVec.toInt_sub
  · exact BitVec.getLsbD_and
  · exact BitVec.getLsbD_or
  · exact ushiftRight_toNat _ _
  · exact sshiftRight_toInt _ _

/-- R142, R143: the zero-extended immediate, bit by bit. -/
theorem setWidth_half_getLsbD (imm : Half) (n : Nat) :
    (imm.setWidth 32).getLsbD n = (decide (n < 16) && imm.getLsbD n) := by
  rw [BitVec.getLsbD_setWidth]
  by_cases hn : n < 16
  · simp [hn, show n < 32 by omega]
  · simp [hn, BitVec.getLsbD_of_ge imm n (by omega)]

/-- Settles O28: ALU1 by R261's table, with the immediate extended by sign or by zeros. -/
theorem aluImmediateResults : Obligations.AluImmediateResults := by
  intro rd ra imm s ins hst
  refine ⟨⟨_, exec_alu1_of_aluResult hst rfl, ?_⟩, ⟨_, exec_alu1_of_aluResult hst rfl, fun n => ?_⟩,
    ⟨_, exec_alu1_of_aluResult hst rfl, fun n => ?_⟩⟩
  · rw [BitVec.toInt_add, BitVec.toInt_signExtend_of_le (by decide)]
  · rw [BitVec.getLsbD_and, setWidth_half_getLsbD, Bool.and_left_comm, Bool.and_assoc]
  · rw [BitVec.getLsbD_or, setWidth_half_getLsbD]
    by_cases hn : n < 16 <;> simp [hn]

/-! ### MEM -/

/-- Settles O31: MEM loads, and `memRead` tells the good addresses from the bad. -/
theorem loadAccess : Obligations.LoadAccess := by
  intro base rt off s ins ea hst
  rw [exec_mem (.lw base rt off) s ins ea hst, isLoad, if_pos rfl, State.loadFrom]
  refine ⟨fun haligned hlow hhigh => ?_, fun hbad => ?_⟩
  · have hgood : ¬(ea.toNat % 4 ≠ 0 ∨ ea.toNat < 256 ∨ 256 + 4 * s.setup.words ≤ ea.toNat) := by
      rw [Setup.maxAddr, Config.minAddr] at hhigh
      omega
    rw [memRead_good hgood]
    rfl
  · rw [memRead_bad hbad]
    rfl

theorem exec_mem_of_store {i : Instr} {s : State} {ins : Rec} {ea : Word} (hst : s.work.station = .mem ins ea)
    (hstore : isStore i = true) : exec i s = s.storeTo ins ea := by
  have hload : ¬isLoad i = true := fun hload =>
    absurd (hstore.symm.trans (AfterCycle.not_store_of_load hload)) (by decide)
  rw [exec_mem i s ins ea hst, if_neg hload, if_pos hstore]

/-- Settles O32: MEM stores, and `memWrite` tests the code segment first, then the address. -/
theorem storeAccess : Obligations.StoreAccess := by
  intro base rt off s ins ea hst hwf
  rw [exec_mem_of_store (i := .sw base rt off) hst rfl, State.storeTo]
  refine ⟨fun hdata haligned hhigh => ?_, fun hcode => ?_, fun hdata hbad => ?_⟩
  · have hgood : ¬(ea.toNat % 4 ≠ 0 ∨ 256 + 4 * s.setup.words ≤ ea.toNat) := by
      rw [Setup.maxAddr, Config.minAddr] at hhigh
      omega
    rw [memWrite_good (not_lt.mpr hdata) hgood]
    refine ⟨_, rfl, Memory.set_wf _ _ _ hwf, fun a => ?_⟩
    rw [Memory.get_set _ ((Memory.wf_iff _).mp hwf).1]
    simp only [eq_comm]
  · rw [memWrite_code hcode]
    rfl
  · rw [memWrite_bad (not_lt.mpr hdata) hbad]
    rfl

/-! ### DIV -/

/-- R152: outside the one overflow the quotient fits into 32 bits. -/
theorem quotient_toInt {a b : Word} (h : ¬(a = 0x80000000#32 ∧ b = 0xFFFFFFFF#32)) :
    (quotient a b).toInt = a.toInt.tdiv b.toInt := by
  rw [quotient, BitVec.toInt_ofInt, ← BitVec.toInt_sdiv, BitVec.toInt_sdiv_of_ne_or_ne]
  exact not_and_or.mp h

/-- R152: the remainder always does. -/
theorem remainder_toInt (a b : Word) : (remainder a b).toInt = a.toInt.tmod b.toInt := by
  rw [remainder, mul_comm, ← Int.tmod_def, BitVec.toInt_ofInt, ← BitVec.toInt_srem, BitVec.toInt_bmod_cancel]

/-- A truncated remainder is not above 0 where the dividend is not. -/
theorem tmod_nonpos {a : Int} (b : Int) (h : a ≤ 0) : a.tmod b ≤ 0 := by
  have hneg := Int.tmod_nonneg (a := -a) b (by omega)
  rw [Int.neg_tmod] at hneg
  omega

/-- R152: dividend = quotient * divisor + remainder, with a remainder below the divisor and of the dividend's sign. -/
theorem division_spec {a b : Word} (hb : b ≠ 0#32) (h : ¬(a = 0x80000000#32 ∧ b = 0xFFFFFFFF#32)) :
    a.toInt = (quotient a b).toInt * b.toInt + (remainder a b).toInt ∧
      (remainder a b).toInt.natAbs < b.toInt.natAbs ∧
      (0 < (remainder a b).toInt → 0 < a.toInt) ∧ ((remainder a b).toInt < 0 → a.toInt < 0) := by
  have hzero : b.toInt ≠ 0 := fun hz => hb (BitVec.toInt_inj.mp (hz.trans BitVec.toInt_zero.symm))
  rw [quotient_toInt h, remainder_toInt]
  refine ⟨?_, ?_, fun hpos => ?_, fun hneg => ?_⟩
  · rw [mul_comm, Int.mul_tdiv_add_tmod]
  · rw [Int.natAbs_tmod]
    exact Nat.mod_lt _ (Int.natAbs_pos.mpr hzero)
  · by_contra hle
    have := tmod_nonpos b.toInt (not_lt.mp hle)
    omega
  · by_contra hle
    have := Int.tmod_nonneg b.toInt (not_lt.mp hle)
    omega

/-- Settles O35: the unit divides by a nonzero divisor; the overflow is evaluated, every other pair has `division_spec`. -/
theorem quotientAndRemainder : Obligations.QuotientAndRemainder := by
  intro ra rb s ins hst hzero
  refine ⟨_, _, (exec_div (.div ra rb) s ins hst).trans (Exceptions.divide_of_nonzero hzero), ?_, division_spec hzero⟩
  rintro ⟨ha, hb⟩
  rw [ha, hb]
  decide

end Sys2Proof.Proofs.UnitResults
end

section

/-! Reset and the image (R27, R330, R41): the state right after reset, what loading an image gives, and the invariant
at both. -/

namespace Sys2Proof.Proofs.Image

open Sys2Proof.Machine

/-! ### Reset -/

/-- Settles O48: field by field. -/
theorem resetValues : Obligations.ResetValues :=
  ⟨rfl, rfl, rfl, rfl, rfl, rfl, rfl, fun j => Vector.getElem_replicate j.isLt, rfl, rfl, Scoreboard.flag_clear, rfl,
    rfl⟩

/-! ### The words of an image -/

/-- R330: word `k` stands at `a + 4*k`. -/
theorem imageMemory_get (a : Nat) (ws : List Word) (k : Nat) (hk : k < ws.length) :
    (imageMemory a ws).get (a + 4 * k) = ws[k] := by
  induction ws generalizing a k with
  | nil => simp at hk
  | cons w ws ih =>
    have hbelow : (imageMemory (a + 4) ws).get a = 0#32 :=
      Memory.get_of_lt _ _ fun c hc => by have := (imageMemory_wf (a + 4) ws).2 c hc; omega
    cases k with
    | zero =>
      by_cases hw : w = 0#32
      · simp [imageMemory, hw, hbelow]
      · simp [imageMemory, hw, Memory.get]
    | succ k =>
      have hrest : (imageMemory a (w :: ws)).get (a + 4 * (k + 1)) =
          (imageMemory (a + 4) ws).get (a + 4 * (k + 1)) := by
        by_cases hw : w = 0#32
        · simp [imageMemory, hw]
        · simp [imageMemory, hw, Memory.get]
      have hlt : k < ws.length := by simpa using hk
      rw [hrest, show a + 4 * (k + 1) = a + 4 + 4 * k by ring, ih (a + 4) k hlt]
      rfl

/-- R41: `DATA_START` is behind the first `BREAK_WORD`. -/
theorem dataStartFrom_of_first (a : Nat) (ws : List Word) (k : Nat) (hk : k < ws.length)
    (hbreak : ws[k] = Config.breakWord) (hfirst : Config.breakWord ∉ ws.take k) :
    dataStartFrom a ws = a + 4 * (k + 1) := by
  induction ws generalizing a k with
  | nil => simp at hk
  | cons w ws ih =>
    cases k with
    | zero => exact if_pos hbreak
    | succ k =>
      rw [List.take_succ_cons, List.mem_cons, not_or] at hfirst
      obtain ⟨hw, hfirst⟩ := hfirst
      rw [dataStartFrom, if_neg (Ne.symm hw), ih (a + 4) k (by simpa using hk) (by simpa using hbreak) hfirst]
      ring

/-- R41: with no `BREAK_WORD` it is at the end of the words. -/
theorem dataStartFrom_of_none (a : Nat) (ws : List Word) (hnone : Config.breakWord ∉ ws) :
    dataStartFrom a ws = a + 4 * ws.length := by
  induction ws generalizing a with
  | nil => rfl
  | cons w ws ih =>
    rw [List.mem_cons, not_or] at hnone
    obtain ⟨hw, hnone⟩ := hnone
    rw [dataStartFrom, if_neg (Ne.symm hw), ih (a + 4) hnone, List.length_cons]
    ring

/-- R41: it lies between the first address and the end of the words. -/
theorem dataStartFrom_bounds (a : Nat) (ws : List Word) :
    a ≤ dataStartFrom a ws ∧ dataStartFrom a ws ≤ a + 4 * ws.length := by
  induction ws generalizing a with
  | nil => simp [dataStartFrom]
  | cons w ws ih =>
    have := ih (a + 4)
    rw [dataStartFrom, List.length_cons]
    split_ifs <;> omega

/-! ### Loading -/

/-- R330: the state that loading an image gives. -/
def loaded (image : List Word) (waw : Bool) : State :=
  { State.reset with
    cur := { Gen.reset with mem := imageMemory Config.minAddr image }
    next := { Gen.reset with mem := imageMemory Config.minAddr image }
    setup :=
      { words := image.length
        dataStart := dataStartFrom Config.minAddr image
        wawCheck := waw } }

theorem load_of_ok {image : List Word} (waw : Bool) (h : imageOk image = true) :
    State.load image waw = .next (loaded image waw) := if_pos h

theorem load_of_not_ok {image : List Word} (waw : Bool) (h : imageOk image = false) :
    State.load image waw = .refused .badImage := if_neg (ne_true_of_eq_false h)

/-- Settles O49: the fields of the loaded state, its memory word by word, and `DATA_START` by the first `BREAK_WORD`. -/
theorem loadedImage : Obligations.LoadedImage := by
  refine fun image waw => ⟨load_of_not_ok waw, fun hok => ⟨_, load_of_ok waw hok, ⟨rfl, rfl⟩, rfl, ?_, rfl, rfl, ?_, rfl,
    rfl, ?_, ?_⟩⟩
  · exact (imageMemory_wf _ image).1
  · exact imageMemory_get _ image
  · exact dataStartFrom_of_first _ image
  · exact dataStartFrom_of_none _ image

/-! ### The invariant at the start -/

/-- R28: with nothing in flight, no flag set and the fetch pointer at 256, the invariant is that of the memory and the
parameters. -/
theorem inv_of_reset_but_mem {s : State} {m : Memory} (hcur : s.cur = { Gen.reset with mem := m })
    (hmem : memOk s.setup m) (hsetup : s.setup.ok) : s.Inv := by
  constructor
  any_goals rw [hcur]
  case capacity => exact ⟨Nat.zero_le _, Nat.zero_le _, Nat.zero_le _, Nat.zero_le _, Nat.zero_le _⟩
  case kinds => constructor <;> intro r hr <;> cases hr
  case pc => exact (show (256#32).toNat % 4 = 0 by decide)
  case records => intro r hr; cases hr
  case scoreboard => intro r; rw [show Gen.aw _ = Scoreboard.clear from rfl, Scoreboard.flag_clear]; rfl
  case pair => rfl
  case halt => intro _; rfl
  case mem => exact hmem
  case setup => exact hsetup

theorem reset_inv : State.reset.Inv :=
  inv_of_reset_but_mem (m := []) rfl ⟨rfl, by simp⟩ ⟨by decide, by decide, by decide⟩

theorem loaded_inv {image : List Word} (waw : Bool) (h : imageOk image = true) : (loaded image waw).Inv := by
  obtain ⟨hlow, hhigh⟩ := dataStartFrom_bounds Config.minAddr image
  obtain ⟨hwf, hwords⟩ := imageMemory_wf Config.minAddr image
  rw [imageOk, Bool.and_eq_true, decide_eq_true_eq, decide_eq_true_eq] at h
  refine inv_of_reset_but_mem rfl ⟨hwf, fun w hw => ?_⟩ ⟨h.2, hlow, hhigh⟩
  obtain ⟨hge, hlt, haligned⟩ := hwords w hw
  exact ⟨hge, hlt, haligned⟩

/-- Settles O51: reset and the loaded state are reset but for memory and parameters. -/
theorem invariantAtStart : Obligations.InvariantAtStart := by
  refine ⟨reset_inv, fun image waw s hload => ?_⟩
  by_cases hok : imageOk image = true
  · rw [load_of_ok waw hok] at hload
    cases hload
    exact loaded_inv waw hok
  · rw [load_of_not_ok waw (Bool.eq_false_iff.mpr hok)] at hload
    cases hload

end Sys2Proof.Proofs.Image
end
